-- ==== Sys2Proof/Word.lean ====
section
/-! DEFINITION. The word types of the two ports and of the serial line, and the two integer
primitives of 00_scope.md R15 that every other file uses. -/

namespace Sys2Proof

/-- A serial byte (45_host_protocol.md R281). -/
abbrev Byte := BitVec 8

/-- A command word of a port (30_encoding.md R100). -/
abbrev Word := BitVec 32

/-- A signed 16-bit PCM sample, `int16` of 00_scope.md R15. -/
abbrev Sample := BitVec 16

/-- `ceil_div(a, b)` of 00_scope.md R15, for `b >= 1`. -/
def ceilDiv (a b : Nat) : Nat := (a + b - 1) / b

/-- `clamp(v, lo, hi)` of 00_scope.md R15. -/
def clamp (v lo hi : Nat) : Nat := min (max v lo) hi

end Sys2Proof
end

