-- ==== Sys2Proof/Config.lean ====
section
/-! DEFINITION. The implementation parameters of 00_scope.md R11, their constraints, the values the
spec's vectors use, and the free values of a build whose numerics the source leaves open. -/

namespace Sys2Proof

/-- A character of a morse string, as the text encoder tells them apart (42_queue.md R222):
`.`, `-`, or anything else. -/
inductive TextChar where
  | dot
  | dash
  | other
  deriving DecidableEq, Repr

/-- `EXPIRY_CMP` (00_scope.md R11, 40_keying.md R146): whether progress must exceed the end index or
reach it. -/
inductive ExpiryCmp where
  | gt
  | ge
  deriving DecidableEq, Repr

/-- `TONE_PHASE` (00_scope.md R11, 41_synthesizer.md R181): the argument of the tone table's sine. -/
inductive TonePhase where
  | cycle
  | freq
  deriving DecidableEq, Repr

/-- Which `genTone`, `genEnv` and `envMul` the build has (41_synthesizer.md R185): the reference
definitions, or any functions with the named properties. -/
inductive Numerics where
  | reference
  | build
  deriving DecidableEq, Repr

/-- Which arithmetic computes the dit length (43_config.md R255; 93_implementation_defined.md I3). -/
inductive DitArith where
  | exact
  | build
  deriving DecidableEq, Repr

/-- The parameters a model takes as arguments (00_scope.md R11). They are fixed at construction: no
step changes them. -/
structure Params where
  /-- sample rate -/
  SR : Nat
  /-- `sample_buffer_size` -/
  B : Nat
  /-- Transmission Queue capacity -/
  QCAP : Nat
  /-- lower bound of the device-valid audio range, Hz -/
  F_MIN : Nat
  /-- upper bound of the device-valid audio range, Hz -/
  F_MAX : Nat
  /-- `INTER_CHAR_PAUSE_UNITS` -/
  ICP : Nat
  DEFAULT_FREQ : BitVec 24
  DEFAULT_WPM : BitVec 24
  DEFAULT_VOL : BitVec 24
  DEFAULT_RISE : BitVec 24
  COLOR_OFF : BitVec 24
  COLOR_MANUAL : BitVec 24
  COLOR_QUEUED : BitVec 24
  TONE_PHASE : TonePhase
  NUMERICS : Numerics
  DIT_ARITH : DitArith
  EXPIRY_CMP : ExpiryCmp
  /-- the 20 punctuation entries, in the order 45_host_protocol.md R284 lists them -/
  MORSE_PUNCT : List (List TextChar)
  /-- the 11 frequencies of 45_host_protocol.md R301, Hz -/
  SIDETONE_TABLE : List (BitVec 24)
  /-- the string of 45_host_protocol.md R285 -/
  WORD_PAUSE : List TextChar
  deriving DecidableEq, Repr

/-- The constraints of 00_scope.md R11 and of the open-parameter table of 92_eei_decisions.md. A
parameter set that breaks one is refused (60_exceptions.md R345). -/
abbrev Params.Ok (c : Params) : Prop :=
  (1000 ≤ c.SR ∧ c.SR ≤ 192000) ∧ (1 ≤ c.B ∧ c.B ≤ 4096) ∧ (1 ≤ c.QCAP ∧ c.QCAP ≤ 65535) ∧
  (1 ≤ c.F_MIN ∧ c.F_MIN ≤ c.F_MAX ∧ c.F_MAX ≤ c.SR) ∧ 1 ≤ c.ICP ∧
  (c.MORSE_PUNCT.length = 20 ∧ ∀ str ∈ c.MORSE_PUNCT, str.length ≤ 10) ∧
  c.SIDETONE_TABLE.length = 11 ∧
  (1 ≤ c.WORD_PAUSE.length ∧ c.WORD_PAUSE.length ≤ 10 ∧ ∀ ch ∈ c.WORD_PAUSE, ch = TextChar.other)

/-- `INIT_PAUSE_SAMPLES = SR` (00_scope.md R11). -/
def Params.initPauseSamples (c : Params) : Nat := c.SR

/-- `P_MAX` (00_scope.md R13), the number of slots of the Tone Table. -/
def Params.pMax (c : Params) : Nat := ceilDiv c.SR c.F_MIN

/-- `R_MAX` (00_scope.md R13); the Envelope Table has `R_MAX + 1` slots. -/
def Params.rMax (c : Params) : Nat := 50 * c.SR / 1000

/-- `D_MAX` (00_scope.md R13). -/
def Params.dMax (c : Params) : Nat := 12 * c.SR / 100 + c.pMax

/-- The parameter values the spec's vectors use (95_test_vectors.md; DESIGN CHOICE, unsafe as a claim
about a device: logs 1 and 2). The sidetone frequencies are those of the K1EL keyer family (PRESUMED,
unsafe: log 3). `ICP` is the spec's own value (R11; log 4). -/
def Params.reference : Params where
  SR := 48000
  B := 48
  QCAP := 16
  F_MIN := 100
  F_MAX := 4000
  ICP := 3
  DEFAULT_FREQ := 600
  DEFAULT_WPM := 20
  DEFAULT_VOL := 100
  DEFAULT_RISE := 5
  COLOR_OFF := 0x000000
  COLOR_MANUAL := 0x00FF00
  COLOR_QUEUED := 0x0000FF
  TONE_PHASE := .cycle
  NUMERICS := .reference
  DIT_ARITH := .exact
  EXPIRY_CMP := .gt
  MORSE_PUNCT := List.replicate 20 []
  SIDETONE_TABLE := [0, 4000, 2000, 1333, 1000, 800, 666, 571, 500, 444, 400]
  WORD_PAUSE := [.other, .other]

/-- FREE VALUE (logs 6 and 24): the Tone Table entry a build computes for a frequency argument (0
unless TONE_PHASE = freq), a period, a volume and an index, before the limits of 41_synthesizer.md R185
are put on it. Safe: nothing is assumed about it. -/
opaque Config.buildTone : Nat → Nat → Nat → Nat → Int

/-- FREE VALUE (log 6): the Envelope Table entry a build computes for `S.R` and an index, before the
limits of R185. Safe: nothing is assumed about it. -/
opaque Config.buildEnv : Nat → Nat → Nat

/-- FREE VALUE (log 6): the magnitude of a build's envelope product, before the limits of R185. Safe:
nothing is assumed about it. -/
opaque Config.buildMul : Int → Nat → Nat

/-- FREE VALUE (log 7): how many tone periods long a build's own dit length is, for a sample rate, a
speed and a period, before the limits of 93_implementation_defined.md I3 and 00_scope.md R13. Safe:
nothing is assumed about it. -/
opaque Config.buildDitUnits : Nat → Nat → Nat → Nat

end Sys2Proof
end

