-- ==== Sys2Proof/Machine/Numerics.lean ====
section
/-! DEFINITION. The numerics configuration fields `genTone`, `genEnv` and `envMul`
(41_synthesizer.md R185): the reference definitions of R181, R183 and R186, evaluated in fixed point
(log 5), and the free functions of a build with R185's properties (log 6). -/

namespace Sys2Proof.Machine

/-- The scale of the fixed-point sine. -/
def fxOne : Nat := 2 ^ 96

/-- `pi/2` at scale `fxOne`, rounded down. -/
def fxHalfPi : Nat := 0x1921fb54442d18469898cc517

/-- The terms of the sine's series after the first: what they leave out is below `2^-96` at `pi/2`. -/
def fxTerms : Nat := 17

/-- `1 - y/(2*3) * (1 - y/(4*5) * (...))` at scale `fxOne`: the series of `sin x / x` for
`y = x^2`. -/
def fxSeries (y : Nat) : Nat :=
  (List.range fxTerms).foldr
    (fun j acc => fxOne - y * acc / fxOne / ((2 * j + 2) * (2 * j + 3))) fxOne

/-- `(pi/2) * num / den` at scale `fxOne`. -/
def fxAngle (num den : Nat) : Nat := fxHalfPi * num / den

/-- `sin((pi/2) * num / den)` at scale `fxOne`, for `0 <= num <= den`; exact where it is rational. -/
def sinQuarter (num den : Nat) : Nat :=
  if num = 0 then 0
  else if num = den then fxOne
  else if 3 * num = den then fxOne / 2
  else
    let x := fxAngle num den
    min fxOne (x * fxSeries (x * x / fxOne) / fxOne)

/-- `sin(2 pi num / den)` at scale `fxOne`, by the quarter turn the angle lies in. -/
def sinTurn (num den : Nat) : Int :=
  let q := 4 * num % (4 * den) / den
  let r := 4 * num % den
  if q = 0 then sinQuarter r den
  else if q = 1 then sinQuarter (den - r) den
  else if q = 2 then -(sinQuarter r den : Int)
  else -(sinQuarter (den - r) den : Int)

/-- `cos(2 pi num / den)` at scale `fxOne`: the sine a quarter turn on. -/
def cosTurn (num den : Nat) : Int := sinTurn (4 * num + den) (4 * den)

/-- An integer of the sign of `s` and magnitude `m`: with `m` a floor, truncation toward zero
(00_scope.md R15). -/
def withSign (s : Int) (m : Nat) : Int := if s < 0 then -(m : Int) else m

/-- The reference tone (41_synthesizer.md R181): `trunc(VOL * 32767 / 100 * sin(...))`, with the
sine's argument by `TONE_PHASE` (log 12). -/
def referenceTone (c : Params) (freq P vol i : Nat) : Int :=
  let s := match c.TONE_PHASE with
    | .cycle => sinTurn i P
    | .freq => sinTurn (freq * i) c.SR
  withSign s (vol * 32767 * s.natAbs / (100 * fxOne))

/-- What a build's own `genTone` sees of the frequency (DESIGN CHOICE, safe: log 24). R185 gives
`genTone(P, VOL, i)` no FREQ, the argument D14 names for TONE_PHASE = freq needs it, and the spec does
not say how a build's genTone and TONE_PHASE = freq combine: the model lets it depend on FREQ exactly
with TONE_PHASE = freq. -/
def buildFreq (c : Params) (freq : Nat) : Nat :=
  match c.TONE_PHASE with
  | .cycle => 0
  | .freq => freq

/-- `genTone(P, VOL, i)` (41_synthesizer.md R185), with TONE0, TONEVOL0 and TONEMAX put on it. Only
with TONE_PHASE = freq does the frequency matter, in the reference (log 12) and in a build (DESIGN
CHOICE, safe: log 24). -/
def genTone (c : Params) (freq P vol i : Nat) : Sample :=
  let raw := match c.NUMERICS with
    | .reference => referenceTone c freq P vol i
    | .build => Config.buildTone (buildFreq c freq) P vol i
  if i = 0 ∨ vol = 0 then 0 else BitVec.ofInt 16 (max (-32767) (min raw 32767))

/-- `EnvVal` (41_synthesizer.md R185): a real in [0, 1] as a count of `1/envOne`. -/
abbrev EnvVal := Nat

/-- The `EnvVal` of 1. Its factor 100 makes 0.42, 0.50 and 0.08 exact. -/
def envOne : EnvVal := 100 * fxOne

/-- The reference envelope (41_synthesizer.md R183):
`|0.42 - 0.50 cos(pi i / R) + 0.08 cos(2 pi i / R)|`. -/
def referenceEnv (R i : Nat) : EnvVal :=
  (42 * (fxOne : Int) - 50 * cosTurn i (2 * R) + 8 * cosTurn i R).natAbs

/-- `genEnv(R, i)` (41_synthesizer.md R185). A build's entry 0 is the value its product takes to 0
(ENVZERO). -/
def genEnv (c : Params) (R i : Nat) : EnvVal :=
  match c.NUMERICS with
  | .reference => min (referenceEnv R i) envOne
  | .build => if i = 0 then 0 else min (Config.buildEnv R i) envOne

/-- `envMul(s, x) = trunc(s * x)` (41_synthesizer.md R186), or a build's product with ENVZERO,
MULZERO, MULMAG and MULSIGN put on it (R185). -/
def envMul (c : Params) (s : Sample) (x : EnvVal) : Sample :=
  let raw := match c.NUMERICS with
    | .reference => s.toInt.natAbs * x / envOne
    | .build => if x = 0 then 0 else Config.buildMul s.toInt x
  BitVec.ofInt 16 (withSign s.toInt (min raw s.toInt.natAbs))

end Sys2Proof.Machine
end

