-- ==== Sys2Proof/Machine/Tables.lean ====
section
/-! DEFINITION. The derived registers and tables as a function of GeneratorConfig and the parameters
alone (43_config.md R250, R252). -/

namespace Sys2Proof.Machine

/-- What a regeneration computes (10_state.md R33). -/
structure Tables where
  P : Nat
  T : List Sample
  D : Nat
  R : Nat
  E : List EnvVal
  deriving DecidableEq, Repr

/-- `S.P` (41_synthesizer.md R180). -/
def tonePeriod (c : Params) (freq : Nat) : Nat := ceilDiv c.SR freq

/-- `S.T` (41_synthesizer.md R181): the `S.P` entries of the Tone Table. -/
def toneTable (c : Params) (freq P vol : Nat) : List Sample :=
  (List.range P).map (genTone c freq P vol)

/-- `S.D` (43_config.md R255), computed exactly on integers; or a build's own: a positive multiple of
`S.P` (93_implementation_defined.md I3) within `D_MAX` (00_scope.md R13; log 7). -/
def ditLength (c : Params) (wpm P : Nat) : Nat :=
  match c.DIT_ARITH with
  | .exact => ceilDiv (6 * c.SR) (5 * wpm * P) * P
  | .build => max 1 (min (Config.buildDitUnits c.SR wpm P) (c.dMax / P)) * P

/-- `S.R` (43_config.md R256). -/
def riseSamples (c : Params) (rise : Nat) : Nat := rise * c.SR / 1000

/-- `S.E` (41_synthesizer.md R183): the `S.R + 1` entries of the Envelope Table. -/
def envTable (c : Params) (R : Nat) : List EnvVal := (List.range (R + 1)).map (genEnv c R)

/-- `Regenerate()` (43_config.md R250). -/
def tablesOf (c : Params) (freq wpm vol rise : Nat) : Tables :=
  let P := tonePeriod c freq
  let R := riseSamples c rise
  { P := P, T := toneTable c freq P vol, D := ditLength c wpm P, R := R, E := envTable c R }

end Sys2Proof.Machine
end

