-- ==== Sys2Proof/Syntax.lean ====
section
/-! DEFINITION. The operations of spec/opcode_table.json, one constructor per row: the nine
command-word operations of the two ports and the twenty-five commands of the reference host's serial
line. -/

namespace Sys2Proof

/-- MorseSymbol (00_scope.md R18; 10_state.md R41). -/
inductive Symbol where
  | dit
  | dah
  | pause
  deriving DecidableEq, Repr

/-- An operation of a port (30_encoding.md R102) or a command of the serial line
(45_host_protocol.md R281). Operand fields that decoding ignores (R108) are not part of it. -/
inductive Instr where
  /-- READ (R195) -/
  | read
  /-- TICK (R140) -/
  | tick
  /-- SETF (R260): `value`, Hz -/
  | setf (value : BitVec 24)
  /-- SETW (R262): `value`, WPM -/
  | setw (value : BitVec 24)
  /-- SETR (R264): `value`, ms -/
  | setr (value : BitVec 24)
  /-- SETV (R266): channel, mute, volume in percent -/
  | setv (ch : BitVec 8) (mute : Bool) (vol : BitVec 8)
  /-- ENQ (R220) -/
  | enq (sym : Symbol)
  /-- ENQT (R222): number of characters and their 2-bit codes -/
  | enqt (n : BitVec 4) (codes : BitVec 20)
  /-- CLR (R225) -/
  | clr
  /-- HOST.TEXT (R283): the byte after upper-casing, 0x20 to 0x5D -/
  | hostText (c : Byte)
  /-- HOST.ADMIN.HOSTOPEN (R288), id 2 -/
  | hostAdminHostopen
  /-- HOST.ADMIN.ECHO (R289), id 4 -/
  | hostAdminEcho (x : Byte)
  /-- HOST.ADMIN.5 (R290) -/
  | hostAdmin5
  /-- HOST.ADMIN.6 (R290) -/
  | hostAdmin6
  /-- HOST.ADMIN.7 (R290) -/
  | hostAdmin7
  /-- HOST.ADMIN.MAJOR (R291), id 9 -/
  | hostAdminMajor
  /-- HOST.ADMIN.VERSION1 (R292), id 10 -/
  | hostAdminVersion1
  /-- HOST.ADMIN.VERSION2 (R292), id 11 -/
  | hostAdminVersion2
  /-- HOST.ADMIN.VERSION3 (R292), id 20 -/
  | hostAdminVersion3
  /-- HOST.ADMIN.VOLTAGE (R293), id 21 -/
  | hostAdminVoltage
  /-- HOST.ADMIN.MINOR (R294), id 23 -/
  | hostAdminMinor
  /-- HOST.ADMIN.ICTYPE (R295), id 24 -/
  | hostAdminIctype
  /-- HOST.ADMIN.SIDETONEVOL (R297), id 25 -/
  | hostAdminSidetonevol
  /-- HOST.ADMIN.RISE (R298), id 26 -/
  | hostAdminRise (x : Byte)
  /-- HOST.ADMIN.FREQ (R299), id 27 -/
  | hostAdminFreq (x : Byte)
  /-- HOST.ADMIN.FWUPDATE (R296), id 28 -/
  | hostAdminFwupdate
  /-- HOST.ADMIN.OTHER (R300): every other id -/
  | hostAdminOther (id : Byte)
  /-- HOST.SIDETONE (R301), byte 0x01 -/
  | hostSidetone (v : Byte)
  /-- HOST.SPEED (R302), byte 0x02 -/
  | hostSpeed (v : Byte)
  /-- HOST.SPEEDQUERY (R303), byte 0x07 -/
  | hostSpeedquery
  /-- HOST.VERSION3 (R304), byte 0x0E -/
  | hostVersion3
  /-- HOST.STATUS (R305), byte 0x15 -/
  | hostStatus
  /-- HOST.CTRL.NOP (R306): every other control byte from 0x03 to 0x1F -/
  | hostCtrlNop (b : BitVec 5)
  /-- HOST.IGNORED (R307): 0x5E to 0x60 and 0x7B to 0xFF -/
  | hostIgnored (g : Byte)
  deriving DecidableEq, Repr

end Sys2Proof
end

