-- ==== Sys2Proof/Machine/State.lean ====
section
/-! DEFINITION. The state of the block (10_state.md), of the reference host's decoder
(45_host_protocol.md R280, R309), and of what waits at their inputs; the reasons a step can stop; and
the state after reset (70_reset_and_hazards.md R370). -/

namespace Sys2Proof.Machine

/-- `S.K` (10_state.md R36), in the order of the codes 0 to 7. Code 7 is reserved and never written. -/
inductive Keyer where
  | init
  | initPause
  | idle
  | dit
  | dah
  | ditPause
  | dahPause
  | reserved
  deriving DecidableEq, Repr

/-- `S.L` (10_state.md R39): codes 0 to 2. Code 3 is never written, and no value stands for it. -/
inductive LookAhead where
  | none
  | dit
  | dah
  deriving DecidableEq, Repr

/-- `S.IND` (10_state.md R40): codes 0 to 2. Code 3 is never written, and no value stands for it. -/
inductive Indicator where
  | off
  | manual
  | queued
  deriving DecidableEq, Repr

/-- `S.APH` (10_state.md R50). -/
inductive AudioPhase where
  | awaitRead
  | awaitTick
  deriving DecidableEq, Repr

/-- `H.version` (45_host_protocol.md R309): 1, 2 or 3. -/
inductive Version where
  | v1
  | v2
  | v3
  deriving DecidableEq, Repr

/-- `S.FAULTS` (10_state.md R52): which of the five records of 60_exceptions.md R343 the set holds, in
the order of their codes 1 to 5. -/
structure FaultMarks where
  pairingRead : Bool
  pairingTick : Bool
  reservedState : Bool
  tableIndex : Bool
  wrongPort : Bool
  deriving DecidableEq, Repr

/-- What can move next (20_memory.md R80, R81; log 8). -/
inductive Agent where
  /-- the audio port takes its next word -/
  | audio
  /-- the control port takes its next word -/
  | control
  /-- an enqueue in flight takes a push step (42_queue.md R221) -/
  | push
  /-- the reference host's decoder takes its next command or chunk -/
  | host
  deriving DecidableEq, Repr

/-- A word at the audio port with the pin levels a TICK samples (30_encoding.md R113). -/
structure AudioWord where
  word : Word
  ditN : Bool
  dahN : Bool
  deriving DecidableEq, Repr

/-- The whole machine. Field names are the spec's where it has one. -/
structure State where
  /-- the construction parameters (00_scope.md R11; log 1) -/
  par : Params
  /-- R32, Hz -/
  FREQ : Nat
  /-- R32; also `H.wpm` (45_host_protocol.md R281, R303; log 11) -/
  WPM : Nat
  /-- R32, percent -/
  VOL : Nat
  /-- R32, ms -/
  RISE : Nat
  /-- R33, tone period -/
  P : Nat
  /-- R33, Tone Table: its `S.P` entries -/
  T : List Sample
  /-- R33, dit length -/
  D : Nat
  /-- R33, rise samples -/
  R : Nat
  /-- R33, Envelope Table: its `S.R + 1` entries -/
  E : List EnvVal
  /-- R36, keyer state -/
  K : Keyer
  /-- R37, progress -/
  p : Nat
  /-- R38, end index -/
  e : Nat
  /-- R39, look-ahead flag -/
  L : LookAhead
  /-- R40, indicator code -/
  IND : Indicator
  /-- R41, Transmission Queue, oldest first -/
  Q : List Symbol
  /-- R49, output buffer -/
  OUT : List Sample
  /-- R50, audio-port phase -/
  APH : AudioPhase
  /-- R51, in-flight list -/
  PEND : List Symbol
  /-- R52, fault marks -/
  FAULTS : FaultMarks
  /-- R42, the level of pin DIT_N: `false` is 0, pressed -/
  ditN : Bool
  /-- R42, the level of pin DAH_N: `false` is 0, pressed -/
  dahN : Bool
  /-- `H.version` (45_host_protocol.md R309) -/
  hVersion : Version
  /-- `buf[0..n-1]`, the chunk being scanned (R281); empty when there is none -/
  buf : List Byte
  /-- `i`, the parse cursor (R281) -/
  scanAt : Nat
  /-- `r`, the reply cursor (R281, R308) -/
  replyAt : Nat
  /-- the decoder waits for the ENQT it issued (R310) -/
  hWait : Bool
  /-- the host has entered firmware update (R296, 10_state.md R47) -/
  fwUpdate : Bool
  /-- words waiting at the audio port (log 8) -/
  audioIn : List AudioWord
  /-- words waiting at the control port (log 8) -/
  controlIn : List Word
  /-- chunks waiting for the decoder (R281; log 8) -/
  serialIn : List (List Byte)
  /-- the order of acceptance: which agent moves next (20_memory.md R80, R82; log 8) -/
  sched : List Agent
  /-- the buffers READ delivered, oldest first (R195; log 18) -/
  sink : List (List Sample)
  /-- what each decoder call returned, oldest first (45_host_protocol.md R281; log 18) -/
  replies : List (List Byte)
  /-- the unassigned words taken, oldest first (30_encoding.md R109; log 18) -/
  ignored : List Word
  deriving DecidableEq, Repr

/-- Why a step stops with a fault. Both are stuck states of 60_exceptions.md R343. -/
inductive Fault where
  /-- Raised by every step after a TICK found `S.K = 7` and recorded code 3: "the model is stuck: no
  further step is defined". Unreachable from reset. Safe. -/
  | reservedState
  /-- Raised by every step after a TICK found a table index out of range and recorded code 4: "the
  model is stuck". Unreachable from reset. Safe. -/
  | tableIndex
  deriving DecidableEq, Repr

/-- Why a step is refused. -/
inductive Refusal where
  /-- Raised by no arm of this model: the refusal of an instruction without a meaning, by its
  mnemonic. Safe. -/
  | notModelled (mnemonic : String)
  /-- Raised by every step of a state whose parameters break the constraints of 00_scope.md R11: the
  model refuses as a whole (60_exceptions.md R345; log 16). Safe. -/
  | parameters
  deriving DecidableEq, Repr

/-- The state after construction with the parameters `c` (70_reset_and_hazards.md R370). The pins'
levels are inputs the reset does not give: both released (DESIGN CHOICE, unsafe: log 10). Nothing waits
at an input (log 8). -/
def State.resetOf (c : Params) : State :=
  let freq := clamp c.DEFAULT_FREQ.toNat c.F_MIN c.F_MAX
  let wpm := clamp c.DEFAULT_WPM.toNat 10 99
  let vol := min c.DEFAULT_VOL.toNat 100
  let rise := clamp c.DEFAULT_RISE.toNat 1 50
  let t := tablesOf c freq wpm vol rise
  { par := c, FREQ := freq, WPM := wpm, VOL := vol, RISE := rise,
    P := t.P, T := t.T, D := t.D, R := t.R, E := t.E,
    K := .init, p := 0, e := 0, L := .none, IND := .off, Q := [],
    OUT := List.replicate c.B 0, APH := .awaitRead, PEND := [],
    FAULTS := { pairingRead := false, pairingTick := false, reservedState := false,
                tableIndex := false, wrongPort := false },
    ditN := true, dahN := true,
    hVersion := .v3, buf := [], scanAt := 0, replyAt := 0, hWait := false, fwUpdate := false,
    audioIn := [], controlIn := [], serialIn := [], sched := [],
    sink := [], replies := [], ignored := [] }

/-- Construction refuses parameters that break 00_scope.md R11: no state exists to run
(60_exceptions.md R345). -/
def State.build (c : Params) : Option State := if c.Ok then some (State.resetOf c) else none

/-- The machine right after reset, with the parameters of the spec's vectors (log 1). -/
def State.reset : State := State.resetOf Params.reference

end Sys2Proof.Machine
end

