-- ==== Sys2Proof/Machine/Flags.lean ====
section
/-! DEFINITION. The one status flag of the block, the look-ahead latch (10_state.md R39), the expiry
test (40_keying.md R146), and the marks of `S.FAULTS` (60_exceptions.md R343). -/

namespace Sys2Proof.Machine

/-- The look-ahead latch of a pause window (40_keying.md R150): a pressed opposite paddle writes its
symbol, a released one leaves the flag. -/
def State.latch (s : State) (pressed : Bool) (sym : LookAhead) : State :=
  if pressed then { s with L := sym } else s

/-- The expiry test (40_keying.md R146): `S.p > S.e`, or `S.p >= S.e` under `EXPIRY_CMP = ge`
(93_implementation_defined.md I4). -/
def State.expired (s : State) : Bool :=
  match s.par.EXPIRY_CMP with
  | .gt => s.e < s.p
  | .ge => s.e ≤ s.p

/-- Replace the set of fault records. -/
def State.setFaults (s : State) (f : FaultMarks) : State := { s with FAULTS := f }

/-- Record `PairingViolation(READ)`, code 1. -/
abbrev State.markPairingRead (s : State) : State :=
  s.setFaults { s.FAULTS with pairingRead := true }

/-- Record `PairingViolation(TICK)`, code 2. -/
abbrev State.markPairingTick (s : State) : State :=
  s.setFaults { s.FAULTS with pairingTick := true }

/-- Record `ReservedState`, code 3. -/
abbrev State.markReservedState (s : State) : State :=
  s.setFaults { s.FAULTS with reservedState := true }

/-- Record `TableIndex`, code 4. -/
abbrev State.markTableIndex (s : State) : State :=
  s.setFaults { s.FAULTS with tableIndex := true }

/-- Record `WrongPort`, code 5. -/
abbrev State.markWrongPort (s : State) : State :=
  s.setFaults { s.FAULTS with wrongPort := true }

/-- The pairing check of READ (41_synthesizer.md R195): the operation still runs. -/
def State.checkReadPhase (s : State) : State :=
  if s.APH = .awaitRead then s else s.markPairingRead

/-- The pairing check of TICK (40_keying.md R141): the operation still runs. -/
def State.checkTickPhase (s : State) : State :=
  if s.APH = .awaitTick then s else s.markPairingTick

end Sys2Proof.Machine
end

