-- ==== Sys2Proof/Decode.lean ====
section
/-! DEFINITION. The two decoders (30_encoding.md for command words, 45_host_protocol.md for serial
bytes), total on any input and rejecting by name; then the encoders, written from the same tables; then
the opcode table's own numbering of an instruction's bits. -/

namespace Sys2Proof

/-- The two ports of the block (10_state.md R43, R44). -/
inductive Port where
  | audio
  | control
  deriving DecidableEq, Repr

/-- Why a decoder gives no instruction. -/
inductive Reject where
  /-- an opcode 30_encoding.md R102 does not assign: the block accepts and ignores the word (R109) -/
  | unassignedOpcode
  /-- a serial command cut off by the end of its chunk (45_host_protocol.md R312) -/
  | truncatedCommand
  /-- no byte is left in the chunk (45_host_protocol.md R281) -/
  | endOfChunk
  deriving DecidableEq, Repr

/-- What a decoder answers. -/
inductive Decoded where
  | instr (i : Instr)
  | rejected (r : Reject)
  deriving DecidableEq, Repr

/-- The instruction of an answer, if it is one. -/
def Decoded.toOption : Decoded → Option Instr
  | .instr i => some i
  | .rejected _ => none

/-! ## Command words -/

/-- `op = w[31:24]` (30_encoding.md R100). -/
def opcodeOf (w : Word) : Byte := w.extractLsb' 24 8

/-- The port a word's opcode belongs to (30_encoding.md R101). -/
def portOf (w : Word) : Port := if (opcodeOf w).toNat ≤ 0x0F then .audio else .control

/-- `symOf` (42_queue.md R220): 0 Dit, 1 Dah, 2 and 3 Pause. -/
def symOf (code : BitVec 2) : Symbol :=
  if code = 0 then .dit else if code = 1 then .dah else .pause

/-- ENQT's code bits without those at `j >= n`, which decoding ignores (30_encoding.md R106, R108). -/
def keepCodes (n : BitVec 4) (codes : BitVec 20) : BitVec 20 :=
  codes &&& BitVec.ofNat 20 (4 ^ n.toNat - 1)

/-- The operation of a command word (30_encoding.md R102 to R107). Ignored operand bits never reach
the instruction (R108); every other opcode is unassigned (R109). -/
def decodeWord (w : Word) : Decoded :=
  let op := opcodeOf w
  if op = 0x01 then .instr .read
  else if op = 0x02 then .instr .tick
  else if op = 0x10 then .instr (.setf (w.extractLsb' 0 24))
  else if op = 0x11 then .instr (.setw (w.extractLsb' 0 24))
  else if op = 0x12 then .instr (.setr (w.extractLsb' 0 24))
  else if op = 0x13 then .instr (.setv (w.extractLsb' 16 8) (w.getLsbD 8) (w.extractLsb' 0 8))
  else if op = 0x20 then .instr (.enq (symOf (w.extractLsb' 0 2)))
  else if op = 0x21 then
    .instr (.enqt (w.extractLsb' 20 4) (keepCodes (w.extractLsb' 20 4) (w.extractLsb' 0 20)))
  else if op = 0x22 then .instr .clr
  else .rejected .unassignedOpcode

/-! ## Serial bytes -/

/-- Upper-casing (45_host_protocol.md R282): 0x61 to 0x7A lose 0x20. -/
def upperCase (c : Byte) : Byte := if 0x61#8 ≤ c ∧ c ≤ 0x7A#8 then c - 0x20#8 else c

/-- The 2-byte admin commands by id (45_host_protocol.md R286, R287); ids without a row are no-ops
(R300). -/
def adminOf (id : Byte) : Instr :=
  if id = 2 then .hostAdminHostopen
  else if id = 5 then .hostAdmin5
  else if id = 6 then .hostAdmin6
  else if id = 7 then .hostAdmin7
  else if id = 9 then .hostAdminMajor
  else if id = 10 then .hostAdminVersion1
  else if id = 11 then .hostAdminVersion2
  else if id = 20 then .hostAdminVersion3
  else if id = 21 then .hostAdminVoltage
  else if id = 23 then .hostAdminMinor
  else if id = 24 then .hostAdminIctype
  else if id = 25 then .hostAdminSidetonevol
  else if id = 28 then .hostAdminFwupdate
  else .hostAdminOther id

/-- A command that takes one more byte, or is cut off (`need`, 45_host_protocol.md R281, R312). -/
def withByte (f : Byte → Instr) : List Byte → Decoded
  | [] => .rejected .truncatedCommand
  | x :: _ => .instr (f x)

/-- Admin dispatch on what follows the 0x00 byte (45_host_protocol.md R286): ids 4, 26 and 27 take
one more byte. -/
def decodeAdmin : List Byte → Decoded
  | [] => .rejected .truncatedCommand
  | id :: rest =>
    if id = 4 then withByte .hostAdminEcho rest
    else if id = 26 then withByte .hostAdminRise rest
    else if id = 27 then withByte .hostAdminFreq rest
    else .instr (adminOf id)

/-- The command at the front of what is left of a chunk (the scan of 45_host_protocol.md R281). -/
def decodeHost : List Byte → Decoded
  | [] => .rejected .endOfChunk
  | b :: rest =>
    let c := upperCase b
    if 0x20#8 ≤ c ∧ c ≤ 0x5D#8 then .instr (.hostText c)
    else if c = 0x00 then decodeAdmin rest
    else if c = 0x01 then withByte .hostSidetone rest
    else if c = 0x02 then withByte .hostSpeed rest
    else if c = 0x07 then .instr .hostSpeedquery
    else if c = 0x0E then .instr .hostVersion3
    else if c = 0x15 then .instr .hostStatus
    else if c ≤ 0x1F#8 then .instr (.hostCtrlNop (c.extractLsb' 0 5))
    else .instr (.hostIgnored c)

/-! ## Encoding -/

/-- An instruction as it stands at a port or on the serial line. -/
inductive Code where
  | word (w : Word)
  | bytes (bs : List Byte)
  deriving DecidableEq, Repr

/-- Both decoders under one name. -/
def decode : Code → Decoded
  | .word w => decodeWord w
  | .bytes bs => decodeHost bs

/-- ENQ's symbol codes (30_encoding.md R105): the assembler writes Pause as 2 (R112). -/
def codeOfSymbol : Symbol → BitVec 2
  | .dit => 0
  | .dah => 1
  | .pause => 2

/-- An operand in the low bits of the operand field, the rest of it 0 (R112: an assembler emits
reserved bits as 0). -/
def commandWord (op : Byte) (operand : BitVec 24) : Word := op ++ operand

/-- The encoding of an instruction (30_encoding.md R102 to R107, R112; 45_host_protocol.md R281,
R286, R287). -/
def encode : Instr → Code
  | .read => .word (commandWord 0x01 0)
  | .tick => .word (commandWord 0x02 0)
  | .setf v => .word (commandWord 0x10 v)
  | .setw v => .word (commandWord 0x11 v)
  | .setr v => .word (commandWord 0x12 v)
  | .setv ch mute vol => .word (commandWord 0x13 (ch ++ (0#7 ++ (BitVec.ofBool mute ++ vol))))
  | .enq sym => .word (commandWord 0x20 (0#22 ++ codeOfSymbol sym))
  | .enqt n codes => .word (commandWord 0x21 (n ++ codes))
  | .clr => .word (commandWord 0x22 0)
  | .hostText c => .bytes [c]
  | .hostAdminHostopen => .bytes [0x00, 0x02]
  | .hostAdminEcho x => .bytes [0x00, 0x04, x]
  | .hostAdmin5 => .bytes [0x00, 0x05]
  | .hostAdmin6 => .bytes [0x00, 0x06]
  | .hostAdmin7 => .bytes [0x00, 0x07]
  | .hostAdminMajor => .bytes [0x00, 0x09]
  | .hostAdminVersion1 => .bytes [0x00, 0x0A]
  | .hostAdminVersion2 => .bytes [0x00, 0x0B]
  | .hostAdminVersion3 => .bytes [0x00, 0x14]
  | .hostAdminVoltage => .bytes [0x00, 0x15]
  | .hostAdminMinor => .bytes [0x00, 0x17]
  | .hostAdminIctype => .bytes [0x00, 0x18]
  | .hostAdminSidetonevol => .bytes [0x00, 0x19]
  | .hostAdminRise x => .bytes [0x00, 0x1A, x]
  | .hostAdminFreq x => .bytes [0x00, 0x1B, x]
  | .hostAdminFwupdate => .bytes [0x00, 0x1C]
  | .hostAdminOther id => .bytes [0x00, id]
  | .hostSidetone v => .bytes [0x01, v]
  | .hostSpeed v => .bytes [0x02, v]
  | .hostSpeedquery => .bytes [0x07]
  | .hostVersion3 => .bytes [0x0E]
  | .hostStatus => .bytes [0x15]
  | .hostCtrlNop b => .bytes [b.setWidth 8]
  | .hostIgnored g => .bytes [g]

/-- The bytes a serial command takes (45_host_protocol.md R281, R286); 0 for a command word. -/
def serialLength (i : Instr) : Nat :=
  match encode i with
  | .word _ => 0
  | .bytes bs => bs.length

/-! ## The opcode table's numbering -/

/-- The bytes of a serial command from the number the opcode table reads its pattern as: the first byte
of the line is the most significant one of the `nbits` (00_scope.md R14: patterns are written most
significant bit first; log 17). -/
def tableBytes (nbits w : Nat) : List Byte :=
  (List.range (nbits / 8)).map fun k => BitVec.ofNat 8 (w >>> (nbits - 8 * (k + 1)))

/-- The longest serial command (45_host_protocol.md R286). -/
def longestCommand : Nat := 3

/-- `tableBytes` with bytes of zeros after it up to the longest command. -/
def tableChunk (nbits w : Nat) : List Byte :=
  tableBytes nbits w ++ List.replicate (longestCommand - nbits / 8) 0

/-- Whether a row of the opcode table is a command word: those have 32 bits, serial commands at most
24. -/
def isTableWord (nbits : Nat) : Bool := 24 < nbits

/-- The instruction the decoders read from an instruction whose bits are `w`, as
spec/opcode_table.json numbers them. -/
def decodeTableWord (nbits w : Nat) : Option Instr :=
  if isTableWord nbits then (decodeWord (BitVec.ofNat 32 w)).toOption
  else (decodeHost (tableChunk nbits w)).toOption

end Sys2Proof
end

