-- ==== Sys2Proof/Machine/Operands.lean ====
section
/-! DEFINITION. The operand forms of the operations: symbol codes and text codes (30_encoding.md R105,
R106), and the morse strings of the reference host (45_host_protocol.md R284, R285). -/

namespace Sys2Proof.Machine

/-- The symbols of ENQT's first `n` codes, in text order (42_queue.md R222). -/
def textSymbols (n : BitVec 4) (codes : BitVec 20) : List Symbol :=
  (List.range n.toNat).map fun j => symOf (codes.extractLsb' (2 * j) 2)

/-- What an accepted ENQT has to push: its symbols, then `ICP - 1` Pauses (42_queue.md R222). -/
def enqtSymbols (c : Params) (n : BitVec 4) (codes : BitVec 20) : List Symbol :=
  textSymbols n codes ++ List.replicate (c.ICP - 1) .pause

/-- `code(s[j])` of 45_host_protocol.md R283. -/
def codeOfChar : TextChar → Nat
  | .dot => 0
  | .dash => 1
  | .other => 2

/-- The codes of a string packed as ENQT's operand has them: character `j` at bits `[2j+1:2j]`
(30_encoding.md R106). -/
def packCodes : List TextChar → Nat
  | [] => 0
  | ch :: rest => codeOfChar ch + 4 * packCodes rest

/-- ENQT's count for a string of at most 10 characters (45_host_protocol.md R283). -/
def stringCount (str : List TextChar) : BitVec 4 := BitVec.ofNat 4 str.length

/-- ENQT's codes for a string of at most 10 characters (45_host_protocol.md R283). -/
def stringCodes (str : List TextChar) : BitVec 20 := BitVec.ofNat 20 (packCodes str)

/-- International Morse of the digits (45_host_protocol.md R284; PRESUMED there, log 4). -/
def morseDigits : List (List TextChar) := [
  [.dash, .dash, .dash, .dash, .dash],
  [.dot, .dash, .dash, .dash, .dash],
  [.dot, .dot, .dash, .dash, .dash],
  [.dot, .dot, .dot, .dash, .dash],
  [.dot, .dot, .dot, .dot, .dash],
  [.dot, .dot, .dot, .dot, .dot],
  [.dash, .dot, .dot, .dot, .dot],
  [.dash, .dash, .dot, .dot, .dot],
  [.dash, .dash, .dash, .dot, .dot],
  [.dash, .dash, .dash, .dash, .dot]]

/-- International Morse of the letters (45_host_protocol.md R284; PRESUMED there, log 4). -/
def morseLetters : List (List TextChar) := [
  [.dot, .dash],
  [.dash, .dot, .dot, .dot],
  [.dash, .dot, .dash, .dot],
  [.dash, .dot, .dot],
  [.dot],
  [.dot, .dot, .dash, .dot],
  [.dash, .dash, .dot],
  [.dot, .dot, .dot, .dot],
  [.dot, .dot],
  [.dot, .dash, .dash, .dash],
  [.dash, .dot, .dash],
  [.dot, .dash, .dot, .dot],
  [.dash, .dash],
  [.dash, .dot],
  [.dash, .dash, .dash],
  [.dot, .dash, .dash, .dot],
  [.dash, .dash, .dot, .dash],
  [.dot, .dash, .dot],
  [.dot, .dot, .dot],
  [.dash],
  [.dot, .dot, .dash],
  [.dot, .dot, .dot, .dash],
  [.dot, .dash, .dash],
  [.dash, .dot, .dot, .dash],
  [.dash, .dot, .dash, .dash],
  [.dash, .dash, .dot, .dot]]

/-- The characters of `MORSE_PUNCT`, in the order 45_host_protocol.md R284 lists them. -/
def punctuation : List Byte := [
  0x22, 0x24, 0x27, 0x28, 0x29, 0x2B, 0x2C, 0x2D, 0x2E, 0x2F,
  0x3A, 0x3B, 0x3C, 0x3D, 0x3E, 0x3F, 0x40, 0x5B, 0x5C, 0x5D]

/-- `MORSE[c - 0x20]` (45_host_protocol.md R284, R285): space is the word pause; `!`, `#`, `%`, `&`
and `*` are empty; a byte outside the table has no string. -/
def morseOf (par : Params) (c : Byte) : List TextChar :=
  if c = 0x20 then par.WORD_PAUSE
  else if 0x30#8 ≤ c ∧ c ≤ 0x39#8 then morseDigits.getD (c.toNat - 0x30) []
  else if 0x41#8 ≤ c ∧ c ≤ 0x5A#8 then morseLetters.getD (c.toNat - 0x41) []
  else if c ∈ punctuation then par.MORSE_PUNCT.getD (punctuation.idxOf c) []
  else []

/-- The frequency HOST.SIDETONE asks for, if its value is in the version's range
(45_host_protocol.md R301): `oldVersion` says `H.version < 3`. -/
def sidetoneHz (par : Params) (oldVersion : Bool) (v : Byte) : Option Nat :=
  if oldVersion then
    if 1#8 ≤ v ∧ v ≤ 10#8 then some (par.SIDETONE_TABLE.getD v.toNat 0).toNat else none
  else
    if 15#8 ≤ v ∧ v ≤ 125#8 then some (62500 / v.toNat) else none

end Sys2Proof.Machine
end

