-- ==== Sys2Proof/Machine/Ops.lean ====
section
/-! DEFINITION. The operations that the meanings share: entering a keyer state (40_keying.md R147),
regeneration (43_config.md R250), the queue's push step (42_queue.md R221), the four setters
(43_config.md), the decoder's cursors (45_host_protocol.md R281, R308), and the views of the outputs.
The block takes no exception and returns from none (60_exceptions.md R340, R347). -/

namespace Sys2Proof.Machine

/-- What a meaning or a step answers. -/
abbrev Result := Host.Outcome State Fault Refusal

/-! ## Keyer states -/

/-- `S.e` after entering `k` (40_keying.md R147). Init and the reserved code are never entered. -/
def State.endIndex (s : State) : Keyer → Nat
  | .initPause => s.par.initPauseSamples
  | .dit => s.D * 1
  | .dah => s.D * 3
  | .ditPause => s.D * 1
  | .dahPause => s.D * 1
  | .idle => 0
  | .init => 0
  | .reserved => 0

/-- `Enter(k, c)` (40_keying.md R147); `none` is `keep`. -/
def State.enter (s : State) (k : Keyer) (c : Option Indicator) : State :=
  { s with K := k, p := 0, e := s.endIndex k, IND := c.getD s.IND }

/-! ## Configuration -/

/-- `Regenerate()` (43_config.md R250): writes `S.P`, `S.T`, `S.D`, `S.R` and `S.E` only (R253). -/
def State.regenerate (s : State) : State :=
  let t := tablesOf s.par s.FREQ s.WPM s.VOL s.RISE
  { s with P := t.P, T := t.T, D := t.D, R := t.R, E := t.E }

/-- SETF's effect (43_config.md R260) for a value in Hz. -/
def State.setFrequency (s : State) (hz : Nat) : State :=
  State.regenerate { s with FREQ := clamp hz s.par.F_MIN s.par.F_MAX }

/-- SETW's effect (43_config.md R262) for a value in WPM. -/
def State.setSpeed (s : State) (wpm : Nat) : State :=
  State.regenerate { s with WPM := clamp wpm 10 99 }

/-- SETR's effect (43_config.md R264) for a value in ms. -/
def State.setRise (s : State) (ms : Nat) : State :=
  State.regenerate { s with RISE := clamp ms 1 50 }

/-- SETV's effect (43_config.md R266). -/
def State.setVolume (s : State) (ch : BitVec 8) (mute : Bool) (vol : BitVec 8) : State :=
  if ch ≠ 0 then s
  else if mute ∨ vol = 0 then { s with VOL := 0 }
  else State.regenerate { s with VOL := min vol.toNat 100 }

/-! ## The Transmission Queue -/

/-- `PushStep()` (42_queue.md R221): one symbol moves when the queue has room, and the enqueue
completes with its last one; a full queue holds, and with nothing in flight there is nothing to push
(log 9). -/
def State.pushStep (s : State) : State :=
  match s.PEND with
  | [] => s
  | x :: rest =>
    if s.Q.length < s.par.QCAP then
      { s with Q := s.Q ++ [x], PEND := rest, hWait := s.hWait && !rest.isEmpty }
    else s

/-- Accept an enqueue of `syms`: it is in flight, and its first push step is part of the same atomic
step (42_queue.md R220, R222; 20_memory.md R84; log 13). -/
def State.startEnqueue (s : State) (syms : List Symbol) : State :=
  State.pushStep { s with PEND := syms }

/-- ENQT's effect (42_queue.md R222): more than 10 characters are ignored whole (R224). Such a word
leaves no event in `ignored`: 30_encoding.md R109 asks for one of an unassigned opcode, and whether it
also means a reserved ENQT is open (DESIGN CHOICE: log 28). -/
def State.enqueueText (s : State) (n : BitVec 4) (codes : BitVec 20) : State :=
  if 10 < n.toNat then s else s.startEnqueue (enqtSymbols s.par n codes)

/-! ## The decoder -/

/-- Write a reply byte at the reply cursor (45_host_protocol.md R308). -/
def State.reply (s : State) (b : Byte) : State :=
  { s with buf := s.buf.set s.replyAt b, replyAt := s.replyAt + 1 }

/-- Move the parse cursor past the `n` bytes of a command (45_host_protocol.md R281). -/
def State.consume (s : State) (n : Nat) : State := { s with scanAt := s.scanAt + n }

/-- `H.version < 3` (45_host_protocol.md R301). -/
def State.oldVersion (s : State) : Bool := s.hVersion != .v3

/-- `H.wpm`, the speed the host last set, which equals the block's (45_host_protocol.md R281, R303;
log 11). -/
def State.hWpm (s : State) : Nat := s.WPM

/-! ## Outputs -/

/-- The RGB value the block drives on the indicator (10_state.md R45). -/
def State.indicatorColor (s : State) : BitVec 24 :=
  match s.IND with
  | .off => s.par.COLOR_OFF
  | .manual => s.par.COLOR_MANUAL
  | .queued => s.par.COLOR_QUEUED

/-- A buffer as the audio transport serialises it: `OUT[0]` first, least significant byte first
(20_memory.md R72; PRESUMED there, log 20). -/
def pcmBytes (out : List Sample) : List Byte :=
  out.flatMap fun x => [x.extractLsb' 0 8, x.extractLsb' 8 8]

end Sys2Proof.Machine
end

