-- ==== Sys2Proof/Machine/HostCommands.lean ====
section
/-! DEFINITION. The commands of the reference host's serial line (45_host_protocol.md). Each moves the
parse cursor past its own bytes. The control-port operations they issue are those of
Sys2Proof/Machine/Ops.lean; the step takes a command only when the control port takes what it issues
(R280, R310; log 22). -/

namespace Sys2Proof.Machine

/-! ## Morse text -/

/-- `Text(c)` (45_host_protocol.md R283): an ENQT of the string, and the decoder waits while it is in
flight (R310); nothing for an empty string. -/
def State.sendText (s : State) (c : Byte) : State :=
  match morseOf s.par c with
  | [] => s
  | str =>
    let s' := s.enqueueText (stringCount str) (stringCodes str)
    { s' with hWait := !s'.PEND.isEmpty }

/-- HOST.TEXT (R282, R283): the byte is upper-cased in place. -/
def execHostText (c : Byte) (s : State) : Result :=
  .next (({ s with buf := s.buf.set s.scanAt c }.sendText c).consume 1)

/-! ## Admin commands -/

/-- HOST.ADMIN.HOSTOPEN, id 2 (R288): replies 31 and 3, and sets the version to 1. -/
def execHostAdminHostopen (s : State) : Result :=
  .next ({ (s.reply 31).reply 3 with hVersion := .v1 }.consume 2)

/-- HOST.ADMIN.ECHO, id 4 (R289). -/
def execHostAdminEcho (x : Byte) (s : State) : Result := .next ((s.reply x).consume 3)

/-- HOST.ADMIN.5 (R290). -/
def execHostAdmin5 (s : State) : Result := .next ((s.reply 0).consume 2)

/-- HOST.ADMIN.6 (R290). -/
def execHostAdmin6 (s : State) : Result := .next ((s.reply 0).consume 2)

/-- HOST.ADMIN.7 (R290). -/
def execHostAdmin7 (s : State) : Result := .next ((s.reply 0).consume 2)

/-- HOST.ADMIN.MAJOR, id 9 (R291). -/
def execHostAdminMajor (s : State) : Result := .next ((s.reply 31).consume 2)

/-- HOST.ADMIN.VERSION1, id 10 (R292). -/
def execHostAdminVersion1 (s : State) : Result := .next ({ s with hVersion := .v1 }.consume 2)

/-- HOST.ADMIN.VERSION2, id 11 (R292). -/
def execHostAdminVersion2 (s : State) : Result := .next ({ s with hVersion := .v2 }.consume 2)

/-- HOST.ADMIN.VERSION3, id 20 (R292). -/
def execHostAdminVersion3 (s : State) : Result := .next ({ s with hVersion := .v3 }.consume 2)

/-- HOST.ADMIN.VOLTAGE, id 21 (R293). -/
def execHostAdminVoltage (s : State) : Result := .next ((s.reply 52).consume 2)

/-- HOST.ADMIN.MINOR, id 23 (R294). -/
def execHostAdminMinor (s : State) : Result := .next ((s.reply 3).consume 2)

/-- HOST.ADMIN.ICTYPE, id 24 (R295). -/
def execHostAdminIctype (s : State) : Result := .next ((s.reply 1).consume 2)

/-- HOST.ADMIN.SIDETONEVOL, id 25 (R297): a no-op of 2 bytes. -/
def execHostAdminSidetonevol (s : State) : Result := .next (s.consume 2)

/-- HOST.ADMIN.RISE, id 26 (R298): issues `SETR x`. -/
def execHostAdminRise (x : Byte) (s : State) : Result := .next ((s.setRise x.toNat).consume 3)

/-- HOST.ADMIN.FREQ, id 27 (R299): issues `SETF 10*x`. -/
def execHostAdminFreq (x : Byte) (s : State) : Result :=
  .next ((s.setFrequency (10 * x.toNat)).consume 3)

/-- HOST.ADMIN.FWUPDATE, id 28 (R296): the call never returns, so the scan does not move on and no
reply is returned; the block receives no further operation (10_state.md R47; log 15). -/
def execHostAdminFwupdate (s : State) : Result := .next { s with fwUpdate := true }

/-- HOST.ADMIN.OTHER (R300): a no-op of 2 bytes. -/
def execHostAdminOther (_id : Byte) (s : State) : Result := .next (s.consume 2)

/-! ## Control bytes -/

/-- HOST.SIDETONE (R301): issues SETF for a value in the version's range, nothing for another. -/
def execHostSidetone (v : Byte) (s : State) : Result :=
  match sidetoneHz s.par s.oldVersion v with
  | some hz => .next ((s.setFrequency hz).consume 2)
  | none => .next (s.consume 2)

/-- HOST.SPEED (R302): issues `SETW v` for every `v`. -/
def execHostSpeed (v : Byte) (s : State) : Result := .next ((s.setSpeed v.toNat).consume 2)

/-- HOST.SPEEDQUERY (R303): replies `(H.wpm & 0x3F) | 0x80`. -/
def execHostSpeedquery (s : State) : Result :=
  .next ((s.reply ((BitVec.ofNat 8 s.hWpm &&& 0x3F#8) ||| 0x80#8)).consume 1)

/-- HOST.VERSION3 (R304). -/
def execHostVersion3 (s : State) : Result := .next ({ s with hVersion := .v3 }.consume 1)

/-- HOST.STATUS (R305). -/
def execHostStatus (s : State) : Result := .next ((s.reply 0xC0).consume 1)

/-- HOST.CTRL.NOP (R306): a no-op of 1 byte. -/
def execHostCtrlNop (_b : BitVec 5) (s : State) : Result := .next (s.consume 1)

/-- HOST.IGNORED (R307): 1 byte without effect. -/
def execHostIgnored (_g : Byte) (s : State) : Result := .next (s.consume 1)

end Sys2Proof.Machine
end

