-- ==== Sys2Proof/Machine/Synth.lean ====
section
/-! DEFINITION. The render step of a TICK and READ (41_synthesizer.md). -/

namespace Sys2Proof.Machine

/-- Whether position `q` sounds (41_synthesizer.md R190, R193). -/
def State.sounds (s : State) (q : Nat) : Bool :=
  (s.K = .dit || s.K = .dah) && 0 < s.VOL && q < s.e

/-- `S.T[q mod S.P]` (41_synthesizer.md R191); `none` is an index out of range (20_memory.md R74). -/
def State.toneAt (s : State) (q : Nat) : Option Sample :=
  if s.P = 0 then none else s.T[q % s.P]?

/-- The envelope index of position `q`: the attack first, then the release (41_synthesizer.md R190,
R192; 92_eei_decisions.md D13). 43_config.md R265 and vector V-C8 say of a Dit with `S.e = 2880` and
`S.R = 2400` that the attack alone shapes it, where R192 gives the release its positions 2400 to 2879:
the model follows R192 (DEDUCED, unsafe: log 25). -/
def State.envIndex (s : State) (q : Nat) : Option Nat :=
  if q < s.R then some q else if s.e - q ≤ s.R then some (s.e - q) else none

/-- The sample at position `q` (41_synthesizer.md R190); `none` is a table index out of range. R194
derives from R190 that the last sample of a symbol is 0, with a near-zero release factor as its ground;
R190 and R192 make that sample small but not always 0. The model follows R190, as 90_conflicts.md C9
does for another value derived from it (DEDUCED, unsafe: log 27). -/
def State.sampleAt (s : State) (q : Nat) : Option Sample :=
  if s.sounds q then
    match s.toneAt q with
    | none => none
    | some x =>
      match s.envIndex q with
      | none => some x
      | some k =>
        match s.E[k]? with
        | none => none
        | some v => some (envMul s.par x v)
  else some 0

/-- The samples at `n` positions from `q` on. -/
def State.renderFrom (s : State) : Nat → Nat → Option (List Sample)
  | 0, _ => some []
  | n + 1, q =>
    match s.sampleAt q, s.renderFrom n (q + 1) with
    | some x, some xs => some (x :: xs)
    | _, _ => none

/-- `Render()` (41_synthesizer.md R190): the `B` samples from `S.p` on. -/
def State.render (s : State) : Option (List Sample) := s.renderFrom s.par.B s.p

/-- READ (41_synthesizer.md R195): the pairing check, the buffer to the audio sink, the phase. -/
def execRead (s : State) : Result :=
  let s := s.checkReadPhase
  .next { s with sink := s.sink ++ [s.OUT], APH := .awaitTick }

end Sys2Proof.Machine
end

