-- ==== Sys2Proof/Machine/Keying.lean ====
section
/-! DEFINITION. TICK: the keying state machine (40_keying.md), then the render of
41_synthesizer.md R190. -/

namespace Sys2Proof.Machine

/-- The state a popped symbol enters (40_keying.md R156, R157). -/
def poppedState : Symbol → Keyer
  | .dit => .dit
  | .dah => .dah
  | .pause => .ditPause

/-- `IdleResolve(dit, dah)` (40_keying.md R153). -/
def State.idleResolve (s : State) (dit dah : Bool) : State :=
  match s.L with
  | .dit => State.enter { s with L := .none } .dit (some .manual)
  | .dah => State.enter { s with L := .none } .dah (some .manual)
  | .none =>
    if dit then State.enter { s with Q := [] } .dit (some .manual)
    else if dah then State.enter { s with Q := [] } .dah (some .manual)
    else
      match s.Q with
      | sym :: rest => State.enter { s with Q := rest } (poppedState sym) (some .queued)
      | [] => s.enter .idle (some .off)

/-- The end of a pause whose opposite paddle is `opposite` and starts `k` (40_keying.md R148, R149,
R151, R152). -/
def State.pauseExpiry (s : State) (opposite : Bool) (k : Keyer) (dit dah : Bool) : State :=
  if opposite then State.enter { s with L := .none } k (some .manual) else s.idleResolve dit dah

/-- The transition phase of a TICK by keyer state (40_keying.md R142 to R159). In the reserved state
there is none (R166). -/
def State.transition (s : State) (dit dah : Bool) : Option State :=
  match s.K with
  | .init => some (s.enter .initPause (some .off))
  | .initPause => some (if s.expired then s.idleResolve dit dah else s)
  | .idle => some (s.idleResolve dit dah)
  | .dit => some (if s.expired then s.enter .ditPause none else s)
  | .dah => some (if s.expired then s.enter .dahPause none else s)
  | .ditPause =>
    some (if s.expired then s.pauseExpiry dah .dah dit dah else s.latch dah .dah)
  | .dahPause =>
    some (if s.expired then s.pauseExpiry dit .dit dit dah else s.latch dit .dit)
  | .reserved => none

/-- The last phases of a TICK (40_keying.md R141, R145): the buffer, the advance outside Idle, the
phase. -/
def State.finishTick (s : State) (out : List Sample) : State :=
  { s with OUT := out, p := if s.K = .idle then s.p else s.p + s.par.B, APH := .awaitRead }

/-- `TICK()` (40_keying.md R141). A reserved state, or a table index out of range, is recorded and
leaves the model stuck (60_exceptions.md R343; log 14). A TICK in AwaitRead that finds one keeps both
records, where R346 says that at most one fault applies to one operation (DEDUCED: log 29). -/
def State.tick (s : State) : State :=
  let s := s.checkTickPhase
  match s.transition (!s.ditN) (!s.dahN) with
  | none => s.markReservedState
  | some s' =>
    match s'.render with
    | none => s'.markTableIndex
    | some out => s'.finishTick out

/-- TICK (40_keying.md R140). -/
def execTick (s : State) : Result := .next s.tick

end Sys2Proof.Machine
end

