-- ==== Sys2Proof/Machine/Queue.lean ====
section
/-! DEFINITION. The Transmission Queue operations (42_queue.md). -/

namespace Sys2Proof.Machine

/-- ENQ (42_queue.md R220). -/
def execEnq (sym : Symbol) (s : State) : Result := .next (s.startEnqueue [sym])

/-- ENQT (42_queue.md R222). -/
def execEnqt (n : BitVec 4) (codes : BitVec 20) (s : State) : Result :=
  .next (s.enqueueText n codes)

/-- CLR (42_queue.md R225). -/
def execClr (s : State) : Result := .next { s with Q := [] }

end Sys2Proof.Machine
end

