-- ==== Sys2Proof/Machine/Setters.lean ====
section
/-! DEFINITION. The configuration setters (43_config.md). -/

namespace Sys2Proof.Machine

/-- SETF (43_config.md R260). -/
def execSetf (value : BitVec 24) (s : State) : Result := .next (s.setFrequency value.toNat)

/-- SETW (43_config.md R262). -/
def execSetw (value : BitVec 24) (s : State) : Result := .next (s.setSpeed value.toNat)

/-- SETR (43_config.md R264). -/
def execSetr (value : BitVec 24) (s : State) : Result := .next (s.setRise value.toNat)

/-- SETV, the volume handler (43_config.md R266; 10_state.md R46). -/
def execSetv (ch : BitVec 8) (mute : Bool) (vol : BitVec 8) (s : State) : Result :=
  .next (s.setVolume ch mute vol)

end Sys2Proof.Machine
end

