-- ==== Sys2Proof/Machine/Dispatch.lean ====
section
/-! DEFINITION. The meaning of every operation, one arm each. -/

namespace Sys2Proof.Machine

def exec (i : Instr) (s : State) : Host.Outcome State Fault Refusal :=
  match i with
  | .read => Sys2Proof.Machine.execRead s
  | .tick => Sys2Proof.Machine.execTick s
  | .setf value => Sys2Proof.Machine.execSetf value s
  | .setw value => Sys2Proof.Machine.execSetw value s
  | .setr value => Sys2Proof.Machine.execSetr value s
  | .setv ch mute vol => Sys2Proof.Machine.execSetv ch mute vol s
  | .enq sym => Sys2Proof.Machine.execEnq sym s
  | .enqt n codes => Sys2Proof.Machine.execEnqt n codes s
  | .clr => Sys2Proof.Machine.execClr s
  | .hostText c => Sys2Proof.Machine.execHostText c s
  | .hostAdminHostopen => Sys2Proof.Machine.execHostAdminHostopen s
  | .hostAdminEcho x => Sys2Proof.Machine.execHostAdminEcho x s
  | .hostAdmin5 => Sys2Proof.Machine.execHostAdmin5 s
  | .hostAdmin6 => Sys2Proof.Machine.execHostAdmin6 s
  | .hostAdmin7 => Sys2Proof.Machine.execHostAdmin7 s
  | .hostAdminMajor => Sys2Proof.Machine.execHostAdminMajor s
  | .hostAdminVersion1 => Sys2Proof.Machine.execHostAdminVersion1 s
  | .hostAdminVersion2 => Sys2Proof.Machine.execHostAdminVersion2 s
  | .hostAdminVersion3 => Sys2Proof.Machine.execHostAdminVersion3 s
  | .hostAdminVoltage => Sys2Proof.Machine.execHostAdminVoltage s
  | .hostAdminMinor => Sys2Proof.Machine.execHostAdminMinor s
  | .hostAdminIctype => Sys2Proof.Machine.execHostAdminIctype s
  | .hostAdminSidetonevol => Sys2Proof.Machine.execHostAdminSidetonevol s
  | .hostAdminRise x => Sys2Proof.Machine.execHostAdminRise x s
  | .hostAdminFreq x => Sys2Proof.Machine.execHostAdminFreq x s
  | .hostAdminFwupdate => Sys2Proof.Machine.execHostAdminFwupdate s
  | .hostAdminOther id => Sys2Proof.Machine.execHostAdminOther id s
  | .hostSidetone v => Sys2Proof.Machine.execHostSidetone v s
  | .hostSpeed v => Sys2Proof.Machine.execHostSpeed v s
  | .hostSpeedquery => Sys2Proof.Machine.execHostSpeedquery s
  | .hostVersion3 => Sys2Proof.Machine.execHostVersion3 s
  | .hostStatus => Sys2Proof.Machine.execHostStatus s
  | .hostCtrlNop b => Sys2Proof.Machine.execHostCtrlNop b s
  | .hostIgnored g => Sys2Proof.Machine.execHostIgnored g s

end Sys2Proof.Machine
end

