-- ==== Sys2Proof/Machine/Fetch.lean ====
section
/-! DEFINITION. How operations come to run (20_memory.md R80 to R82; log 8): each port takes its words
in order, the decoder scans its chunks, an enqueue in flight pushes, and the order of acceptance says
which of them moves. A held agent does not move: what it would take stays where it is (log 9). -/

namespace Sys2Proof.Machine

/-! ## The agents -/

/-- The audio port takes its next word, with the pin levels sampled for it (10_state.md R42, R43). A
word of the other port is refused with a record (30_encoding.md R101; log 23); an unassigned one is
taken and noted (R109). -/
def State.audioTurn (s : State) : Result :=
  match s.audioIn with
  | [] => .next s
  | a :: rest =>
    let s := { s with audioIn := rest, ditN := a.ditN, dahN := a.dahN }
    match portOf a.word with
    | .control => .next s.markWrongPort
    | .audio =>
      match decodeWord a.word with
      | .instr i => exec i s
      | .rejected _ => .next { s with ignored := s.ignored ++ [a.word] }

/-- The control port takes its next word, unless an enqueue is in flight (20_memory.md R81;
10_state.md R51). -/
def State.controlTurn (s : State) : Result :=
  match s.PEND, s.controlIn with
  | _ :: _, _ => .next s
  | [], [] => .next s
  | [], w :: rest =>
    let s := { s with controlIn := rest }
    match portOf w with
    | .audio => .next s.markWrongPort
    | .control =>
      match decodeWord w with
      | .instr i => exec i s
      | .rejected _ => .next { s with ignored := s.ignored ++ [w] }

/-- Whether a serial command issues a control-port operation in `s` (45_host_protocol.md R280, R283,
R298, R299, R301, R302). -/
def State.issuesControl (s : State) : Instr → Bool
  | .hostText c => !(morseOf s.par c).isEmpty
  | .hostAdminRise _ => true
  | .hostAdminFreq _ => true
  | .hostSidetone v => (sidetoneHz s.par s.oldVersion v).isSome
  | .hostSpeed _ => true
  | _ => false

/-- The decoder's call ends: it returns the reply bytes, and the rest of the chunk is dropped
(45_host_protocol.md R281, R308, R312). -/
def State.endChunk (s : State) : State :=
  { s with replies := s.replies ++ [s.buf.take s.replyAt], buf := [], scanAt := 0, replyAt := 0 }

/-- The decoder is called with the next chunk (45_host_protocol.md R281). -/
def State.nextChunk (s : State) : State :=
  match s.serialIn with
  | [] => s
  | chunk :: rest => { s with serialIn := rest, buf := chunk, scanAt := 0, replyAt := 0 }

/-- The decoder takes its next command: it waits for its own ENQT (45_host_protocol.md R310) and for a
busy control port (20_memory.md R81; log 22), ends the call at the end of the chunk or at a cut-off
command (R312), and takes the next chunk when it has none. -/
def State.hostTurn (s : State) : Result :=
  if s.hWait then .next s
  else
    match s.buf with
    | [] => .next s.nextChunk
    | _ :: _ =>
      match decodeHost (s.buf.drop s.scanAt) with
      | .rejected _ => .next s.endChunk
      | .instr i =>
        if s.issuesControl i ∧ s.PEND ≠ [] then .next s else exec i s

/-- One agent's move. -/
def State.agentTurn (s : State) : Agent → Result
  | .audio => s.audioTurn
  | .control => s.controlTurn
  | .push => .next s.pushStep
  | .host => s.hostTurn

/-! ## The step -/

/-- The agent the order of acceptance names moves (20_memory.md R80); with none named, nothing does
(60_exceptions.md R354). Parameters outside R11 are refused as a whole (R345); a stuck model has no
further step (R343); after firmware update no operation arrives (10_state.md R47). -/
def State.turn (s : State) : Result :=
  if ¬ s.par.Ok then .refused .parameters
  else if s.FAULTS.reservedState then .fault .reservedState
  else if s.FAULTS.tableIndex then .fault .tableIndex
  else if s.fwUpdate then .next s
  else
    match s.sched with
    | [] => .next s
    | a :: rest => State.agentTurn { s with sched := rest } a

/-! ## Placing an instruction -/

/-- Clear what would keep the next step from taking an instruction: a stuck mark, firmware update, an
enqueue in flight. -/
def State.readyToTake (s : State) : State :=
  { s with FAULTS := { s.FAULTS with reservedState := false, tableIndex := false },
           fwUpdate := false, PEND := [], hWait := false }

/-- Put a command word at the front of its port and let that port move next. -/
def State.placeWord (s : State) (w : Word) : State :=
  let s := s.readyToTake
  match portOf w with
  | .audio =>
    { s with audioIn := { word := w, ditN := s.ditN, dahN := s.dahN } :: s.audioIn,
             sched := .audio :: s.sched }
  | .control => { s with controlIn := w :: s.controlIn, sched := .control :: s.sched }

/-- Make `bytes` the chunk the decoder is about to scan and let the decoder move next. -/
def State.placeBytes (s : State) (bytes : List Byte) : State :=
  { s.readyToTake with buf := bytes, scanAt := 0, replyAt := 0, sched := .host :: s.sched }

/-- Place the instruction whose bits are `w` as spec/opcode_table.json numbers them. -/
def State.placeTableWord (s : State) (nbits w : Nat) : State :=
  if isTableWord nbits then s.placeWord (BitVec.ofNat 32 w) else s.placeBytes (tableChunk nbits w)

end Sys2Proof.Machine
end

