-- ==== Sys2Proof/Machine/Step.lean ====
section
/-! DEFINITION. The step of the machine, and placing an instruction where it fetches its next one. -/

namespace Sys2Proof.Machine

/-- One step (20_memory.md R80). -/
def step (s : State) : Host.Outcome State Fault Refusal := s.turn

/-- `s` with the instruction of bits `w` where the next step takes it (log 8). -/
def State.withFetchWord (s : State) (nbits w : Nat) : State := s.placeTableWord nbits w

end Sys2Proof.Machine
end

