-- ==== Sys2Proof/Safety.lean ====
section
/-! DEFINITION. What a good state and a good run are, in the spec's own terms: the legal values of
10_state.md, the derived tables of R33 and R34, the sequencing bounds of R31 and R39, and the pairing
contract of 70_reset_and_hazards.md R380. -/

namespace Sys2Proof.Machine

/-- The parameters are admissible and GeneratorConfig holds legal values (00_scope.md R11;
10_state.md R32). -/
abbrev ConfigLegal (s : State) : Prop :=
  s.par.Ok ∧ (s.par.F_MIN ≤ s.FREQ ∧ s.FREQ ≤ s.par.F_MAX) ∧ (10 ≤ s.WPM ∧ s.WPM ≤ 99) ∧
  s.VOL ≤ 100 ∧ (1 ≤ s.RISE ∧ s.RISE ≤ 50)

/-- The derived registers and tables are those of the configuration (10_state.md R33, R34). A muted
block (VOL = 0) may keep the Tone Table of an earlier volume (43_config.md R266, R267); no entry is
-32768 (41_synthesizer.md R182). -/
abbrev TablesDerived (s : State) : Prop :=
  s.P = tonePeriod s.par s.FREQ ∧ s.D = ditLength s.par s.WPM s.P ∧
  s.R = riseSamples s.par s.RISE ∧ s.E = envTable s.par s.R ∧ s.T.length = s.P ∧
  (s.VOL ≠ 0 → s.T = toneTable s.par s.FREQ s.P s.VOL) ∧ ∀ x ∈ s.T, x ≠ 0x8000#16

/-- The keyer's registers: code 7 is never there (10_state.md R36), progress and end index keep their
bounds (R31), both are 0 in Init and Idle (R37, R38), the end index of InitPause is one second (R38),
the latch is set in a pause only and for its opposite symbol (R39), and the indicator is off exactly in
Init, InitPause and Idle (40_keying.md R158). -/
abbrev KeyerLegal (s : State) : Prop :=
  s.K ≠ .reserved ∧ s.p ≤ s.e + s.par.B ∧ s.e ≤ max s.par.SR (3 * s.par.dMax) ∧
  (s.K = .init ∨ s.K = .idle → s.p = 0 ∧ s.e = 0) ∧
  (s.K = .initPause → s.e = s.par.SR) ∧
  (s.L = .none ∨ s.K = .ditPause ∧ s.L = .dah ∨ s.K = .dahPause ∧ s.L = .dit) ∧
  (s.IND = .off ↔ s.K = .init ∨ s.K = .initPause ∨ s.K = .idle)

/-- The queue and the buffer keep their sizes (10_state.md R41, R49), and neither stuck record of
60_exceptions.md R343 is there. -/
abbrev StorageLegal (s : State) : Prop :=
  s.Q.length ≤ s.par.QCAP ∧ s.OUT.length = s.par.B ∧
  s.FAULTS.reservedState = false ∧ s.FAULTS.tableIndex = false

/-- The decoder's cursors: a reply never reaches a byte not yet scanned (45_host_protocol.md R308);
the decoder waits only while an enqueue is in flight (R310), and that enqueue is of at most one text
(42_queue.md R222). -/
abbrev DecoderLegal (s : State) : Prop :=
  s.replyAt ≤ s.scanAt ∧ s.scanAt ≤ s.buf.length ∧ (s.hWait = true → s.PEND ≠ []) ∧
  s.PEND.length ≤ 9 + s.par.ICP

/-- The invariant of the machine. -/
abbrev Inv (s : State) : Prop :=
  ConfigLegal s ∧ TablesDerived s ∧ KeyerLegal s ∧ StorageLegal s ∧ DecoderLegal s

/-- The host has kept the pairing contract so far (70_reset_and_hazards.md R380). -/
abbrev PairingKept (s : State) : Prop :=
  s.FAULTS.pairingRead = false ∧ s.FAULTS.pairingTick = false

/-- A state in which a step takes an operation: the parameters stand, the model is not stuck, and the
host has not entered firmware update (60_exceptions.md R343, R345; 10_state.md R47). -/
abbrev Running (s : State) : Prop :=
  s.par.Ok ∧ s.FAULTS.reservedState = false ∧ s.FAULTS.tableIndex = false ∧ s.fwUpdate = false

/-- Progress is past the end index, in the words of 40_keying.md R146: it exceeds it, or under
`EXPIRY_CMP = ge` reaches it. -/
abbrev PastEnd (s : State) : Prop :=
  (s.par.EXPIRY_CMP = .gt ∧ s.e < s.p) ∨ (s.par.EXPIRY_CMP = .ge ∧ s.e ≤ s.p)

/-- The sample of position `q`, in the words of 41_synthesizer.md R190. -/
def renderedSample (s : State) (q : Nat) : Sample :=
  if (s.K = .dit ∨ s.K = .dah) ∧ 0 < s.VOL ∧ q < s.e then
    if q < s.R then envMul s.par (s.T.getD (q % s.P) 0) (s.E.getD q 0)
    else if s.e - q ≤ s.R then envMul s.par (s.T.getD (q % s.P) 0) (s.E.getD (s.e - q) 0)
    else s.T.getD (q % s.P) 0
  else 0

/-- The `B` samples from `S.p` on (41_synthesizer.md R190). -/
def renderedBuffer (s : State) : List Sample :=
  (List.range s.par.B).map fun j => renderedSample s (s.p + j)

/-- What a TICK that began in `s` makes of the state `s'` its transition phase left (40_keying.md
R141): the buffer, the advance outside Idle, the phase, and the record of a broken pairing. -/
def afterTick (s s' : State) : State :=
  { s' with OUT := renderedBuffer s', p := if s'.K = .idle then s'.p else s'.p + s.par.B,
            APH := .awaitRead,
            FAULTS := { s.FAULTS with
                        pairingTick := s.FAULTS.pairingTick || s.APH == .awaitRead } }

/-- TICKs in a row, each with the pin levels (DIT_N, DAH_N) given for it (10_state.md R42). -/
def State.ticks (s : State) (pins : List (Bool × Bool)) : State :=
  pins.foldl (fun s pin => State.tick { s with ditN := pin.1, dahN := pin.2 }) s

end Sys2Proof.Machine
end

