-- ==== Sys2Proof/WellFormed.lean ====
section
/-! DEFINITION. Which terms of `Instr` an encoding stands for. Fixed-width operands are well formed by
their types; the checks here are on operands whose range is not a power of two. -/

namespace Sys2Proof

/-- ENQT's operand sets no code bit at `j >= n` (30_encoding.md R106, R108): `codes` is below `4^n`. -/
def usedCodesOnly (n : BitVec 4) (codes : BitVec 20) : Bool := codes.toNat < 4 ^ n.toNat

/-- The bytes morse text has after upper-casing (45_host_protocol.md R283). -/
def isTextByte (c : Byte) : Bool := 0x20#8 ≤ c && c ≤ 0x5D#8

/-- The admin ids with a row of their own (45_host_protocol.md R287). -/
def namedAdminIds : List Byte := [2, 4, 5, 6, 7, 9, 10, 11, 20, 21, 23, 24, 25, 26, 27, 28]

/-- The control bytes 0x00 to 0x1F with a meaning of their own (45_host_protocol.md R281, R306). -/
def namedControlBytes : List (BitVec 5) := [0x00, 0x01, 0x02, 0x07, 0x0E, 0x15]

/-- The bytes R307 ignores: 0x5E to 0x60 and 0x7B to 0xFF. -/
def isIgnoredByte (g : Byte) : Bool := (0x5E#8 ≤ g && g ≤ 0x60#8) || 0x7B#8 ≤ g

/-- Well-formed operands. Reserved counts 11 to 15 of ENQT are encodings the block accepts (R110), so
they are well formed. -/
def Instr.wellFormed : Instr → Bool
  | .enqt n codes => usedCodesOnly n codes
  | .hostText c => isTextByte c
  | .hostAdminOther id => !namedAdminIds.contains id
  | .hostCtrlNop b => !namedControlBytes.contains b
  | .hostIgnored g => isIgnoredByte g
  | .read | .tick | .setf _ | .setw _ | .setr _ | .setv _ _ _ | .enq _ | .clr
  | .hostAdminHostopen | .hostAdminEcho _ | .hostAdmin5 | .hostAdmin6 | .hostAdmin7
  | .hostAdminMajor | .hostAdminVersion1 | .hostAdminVersion2 | .hostAdminVersion3
  | .hostAdminVoltage | .hostAdminMinor | .hostAdminIctype | .hostAdminSidetonevol
  | .hostAdminRise _ | .hostAdminFreq _ | .hostAdminFwupdate | .hostSidetone _ | .hostSpeed _
  | .hostSpeedquery | .hostVersion3 | .hostStatus => true

end Sys2Proof
end

