-- ==== Sys2Proof/Certificates/Slice0/Obligations.lean ====
section
/-! DEFINITION. The statements about the model, from the numbered rules of spec/. -/

open Sys2Proof Sys2Proof.Machine

/-! ## Encoding -/

/-- Decoding an encoded well-formed instruction gives it back, for every instruction and operand
(30_encoding.md R100 to R107; 45_host_protocol.md R281 to R287). -/
def Obligations.DecodeOfEncodeIsIdentity : Prop :=
  ∀ i : Instr, i.wellFormed = true → decode (encode i) = .instr i

/-- A serial command is recognised at the front of any chunk that holds its bytes, whatever follows
(45_host_protocol.md R281, R286). -/
def Obligations.SerialCommandDecodesInContext : Prop :=
  ∀ (i : Instr) (bs rest : List Byte), i.wellFormed = true → encode i = .bytes bs →
    decodeHost (bs ++ rest) = .instr i

/-- Whatever a decoder answers is well formed (30_encoding.md R108; 45_host_protocol.md R281). -/
def Obligations.DecodersGiveWellFormed : Prop :=
  ∀ (c : Code) (i : Instr), decode c = .instr i → i.wellFormed = true

/-- R108: the reserved bits of READ, TICK, CLR, SETV, ENQ and ENQT never change what a word decodes
to. -/
def Obligations.ReservedBitsAreIgnored : Prop :=
  (∀ op : Byte, op = 0x01 ∨ op = 0x02 ∨ op = 0x22 → ∀ x : BitVec 24,
    decodeWord (op ++ x) = decodeWord (op ++ 0#24)) ∧
  (∀ (ch vol : BitVec 8) (r : BitVec 7) (mute : BitVec 1),
    decodeWord (0x13#8 ++ (ch ++ (r ++ (mute ++ vol)))) =
      decodeWord (0x13#8 ++ (ch ++ (0#7 ++ (mute ++ vol))))) ∧
  (∀ (r : BitVec 22) (sym : BitVec 2),
    decodeWord (0x20#8 ++ (r ++ sym)) = decodeWord (0x20#8 ++ (0#22 ++ sym))) ∧
  (∀ (n : BitVec 4) (codes clear : BitVec 20),
    (∀ j, j < n.toNat → codes.extractLsb' (2 * j) 2 = clear.extractLsb' (2 * j) 2) →
    decodeWord (0x21#8 ++ (n ++ codes)) = decodeWord (0x21#8 ++ (n ++ clear)))

/-- Every opcode decodes to the operation 30_encoding.md R102 assigns it, with the operand fields of
R103 to R107, and an opcode R102 does not assign decodes to none (R109). -/
def Obligations.OpcodesDecodeAsAssigned : Prop :=
  ∀ (op : Byte) (x : BitVec 24),
    decodeWord (op ++ x) =
      if op = 0x01 then .instr .read
      else if op = 0x02 then .instr .tick
      else if op = 0x10 then .instr (.setf x)
      else if op = 0x11 then .instr (.setw x)
      else if op = 0x12 then .instr (.setr x)
      else if op = 0x13 then .instr (.setv (x.extractLsb' 16 8) (x.getLsbD 8) (x.extractLsb' 0 8))
      else if op = 0x20 then
        .instr (.enq (if x.extractLsb' 0 2 = 0 then .dit
          else if x.extractLsb' 0 2 = 1 then .dah else .pause))
      else if op = 0x21 then
        .instr (.enqt (x.extractLsb' 20 4)
          (BitVec.ofNat 20 (x.toNat % 2 ^ 20 % 4 ^ (x.toNat / 2 ^ 20))))
      else if op = 0x22 then .instr .clr
      else .rejected .unassignedOpcode

/-- R114: the thirteen encoding examples. -/
def Obligations.EncodingExamplesDecode : Prop :=
  decodeWord 0x10000258 = .instr (.setf 600) ∧ decodeWord 0x11000014 = .instr (.setw 20) ∧
  decodeWord 0x11000096 = .instr (.setw 150) ∧ decodeWord 0x12000005 = .instr (.setr 5) ∧
  decodeWord 0x13000064 = .instr (.setv 0 false 100) ∧
  decodeWord 0x13000100 = .instr (.setv 0 true 0) ∧
  decodeWord 0x13010032 = .instr (.setv 1 false 50) ∧
  decodeWord 0x20000001 = .instr (.enq .dah) ∧ decodeWord 0x21200004 = .instr (.enqt 2 4) ∧
  decodeWord 0x21300011 = .instr (.enqt 3 0x11) ∧ decodeWord 0x21500000 = .instr (.enqt 5 0) ∧
  decodeWord 0x21000000 = .instr (.enqt 0 0) ∧ decodeWord 0x22000000 = .instr .clr

/-- Scanning a non-empty rest of a chunk fails only on a command that is cut off: 0x00 without an id or
an id 4, 26 or 27 without its byte, 0x01 or 0x02 without its value (45_host_protocol.md R286, R312). -/
def Obligations.OnlyCutOffCommandsStopTheScan : Prop :=
  ∀ (b : Byte) (rest : List Byte),
    (∃ r, decodeHost (b :: rest) = .rejected r) ↔
      (b = 0x00 ∧ (rest = [] ∨ rest = [4] ∨ rest = [26] ∨ rest = [27])) ∨
      ((b = 0x01 ∨ b = 0x02) ∧ rest = [])

/-- Lower-case letters are the upper-case ones before any other test: a letter 0x61 to 0x7A decodes as
the byte 0x20 below it, as morse text (45_host_protocol.md R282). -/
def Obligations.LowerCaseDecodesAsUpperCase : Prop :=
  ∀ (c : Byte) (rest : List Byte), 0x61#8 ≤ c → c ≤ 0x7A#8 →
    decodeHost (c :: rest) = .instr (.hostText (c - 0x20#8)) ∧
    decodeHost ((c - 0x20#8) :: rest) = .instr (.hostText (c - 0x20#8))

/-! ## The step -/

/-- A step runs the decoded instruction: the word at the head of the port the order of acceptance names
(a control word only while no enqueue is in flight), or the serial command at the decoder's cursor
(while the decoder does not wait and the control port is free for what it issues). Around it the step
takes the agent off the order, the word off its port, and the pin levels that came with an audio word
(20_memory.md R80, R81; 45_host_protocol.md R280, R281). The interface is the model's (log 8). -/
def Obligations.StepRunsTheDecodedInstruction : Prop :=
  ∀ (s : State) (i : Instr) (order : List Agent), Running s → i.wellFormed = true →
    (∀ (a : AudioWord) (rest : List AudioWord), s.sched = .audio :: order → s.audioIn = a :: rest →
      portOf a.word = .audio → decodeWord a.word = .instr i →
      step s = exec i { s with sched := order, audioIn := rest, ditN := a.ditN, dahN := a.dahN }) ∧
    (∀ (w : Word) (rest : List Word), s.sched = .control :: order → s.controlIn = w :: rest →
      s.PEND = [] → portOf w = .control → decodeWord w = .instr i →
      step s = exec i { s with sched := order, controlIn := rest }) ∧
    (s.sched = .host :: order → s.hWait = false → s.buf ≠ [] →
      decodeHost (s.buf.drop s.scanAt) = .instr i → (s.issuesControl i = true → s.PEND = []) →
      step s = exec i { s with sched := order })

/-- R101: opcodes 0x00 to 0x0F belong to the audio port and 0x10 to 0xFF to the control port; a word
sent to the wrong port is refused with `WrongPort`, and nothing changes but S.FAULTS (and the model's
own inputs: the word is taken). -/
def Obligations.WrongPortWordIsRefused : Prop :=
  (∀ w : Word, portOf w = if (opcodeOf w).toNat ≤ 0x0F then .audio else .control) ∧
  ∀ (s : State) (order : List Agent), Running s →
    (∀ (a : AudioWord) (rest : List AudioWord), s.sched = .audio :: order → s.audioIn = a :: rest →
      0x10 ≤ (opcodeOf a.word).toNat →
      step s = .next { s with sched := order, audioIn := rest, ditN := a.ditN, dahN := a.dahN,
                              FAULTS := { s.FAULTS with wrongPort := true } }) ∧
    (∀ (w : Word) (rest : List Word), s.sched = .control :: order → s.controlIn = w :: rest →
      s.PEND = [] → (opcodeOf w).toNat ≤ 0x0F →
      step s = .next { s with sched := order, controlIn := rest,
                              FAULTS := { s.FAULTS with wrongPort := true } })

/-- R109: an unassigned opcode at its own port is accepted and ignored: the word is taken and noted,
and no state of the block changes (S.APH among it). -/
def Obligations.UnassignedOpcodeIsIgnored : Prop :=
  ∀ (s : State) (order : List Agent), Running s →
    (∀ (a : AudioWord) (rest : List AudioWord), s.sched = .audio :: order → s.audioIn = a :: rest →
      (opcodeOf a.word).toNat ≤ 0x0F → opcodeOf a.word ≠ 0x01 → opcodeOf a.word ≠ 0x02 →
      step s = .next { s with sched := order, audioIn := rest, ditN := a.ditN, dahN := a.dahN,
                              ignored := s.ignored ++ [a.word] }) ∧
    (∀ (w : Word) (rest : List Word), s.sched = .control :: order → s.controlIn = w :: rest →
      s.PEND = [] → 0x10 ≤ (opcodeOf w).toNat →
      opcodeOf w ∉ [0x10, 0x11, 0x12, 0x13, 0x20, 0x21, 0x22] →
      step s = .next { s with sched := order, controlIn := rest, ignored := s.ignored ++ [w] })

/-- While an enqueue is in flight the control port takes nothing, a serial command that would issue a
control-port operation waits, and so does the decoder for its own ENQT; the audio port is not held: a
TICK or READ at its head still runs (20_memory.md R81; 10_state.md R51; 45_host_protocol.md R280,
R310). -/
def Obligations.EnqueueInFlightHoldsTheControlPortOnly : Prop :=
  ∀ (s : State) (order : List Agent), Running s → s.PEND ≠ [] →
    (s.sched = .control :: order → step s = .next { s with sched := order }) ∧
    (s.sched = .host :: order → s.hWait = true → step s = .next { s with sched := order }) ∧
    (∀ i, s.sched = .host :: order → s.buf ≠ [] → decodeHost (s.buf.drop s.scanAt) = .instr i →
      s.issuesControl i = true → step s = .next { s with sched := order }) ∧
    (∀ (a : AudioWord) (rest : List AudioWord) (i : Instr), s.sched = .audio :: order →
      s.audioIn = a :: rest → decodeWord a.word = .instr i → i = .read ∨ i = .tick →
      ∃ t, step s = .next t ∧
        exec i { s with sched := order, audioIn := rest, ditN := a.ditN, dahN := a.dahN } = .next t)

/-- Parameters that break the constraints of R11 are refused as a whole (60_exceptions.md R345): no state
is built; admissible ones build the reset state. That a state which holds bad parameters is refused at
every step is the model's reading (log 16): R345 says that no state exists to run. No step is refused
for any other reason. -/
def Obligations.BadParametersAreRefused : Prop :=
  (∀ c : Params,
    (¬ c.Ok → State.build c = none ∧ ∀ s : State, s.par = c → step s = .refused .parameters) ∧
    (c.Ok → State.build c = some (State.resetOf c))) ∧
  ∀ (s : State) (r : Refusal), step s = .refused r → r = .parameters ∧ ¬ s.par.Ok

/-- A TICK that finds S.K = 7 records `ReservedState` and does nothing more; a model with that record,
or with `TableIndex`, is stuck: no further step is defined (60_exceptions.md R343; 40_keying.md R166).
That the record is a next state and the fault is the later steps' is the model's reading (log 14), and
so is that a TICK in AwaitRead keeps its pairing record beside it (log 29). -/
def Obligations.ReservedStateLeavesTheModelStuck : Prop :=
  (∀ s : State, s.K = .reserved →
    exec .tick s = .next { s with FAULTS := { s.FAULTS with
      pairingTick := s.FAULTS.pairingTick || s.APH == .awaitRead, reservedState := true } }) ∧
  (∀ s : State, s.par.Ok → s.FAULTS.reservedState = true → step s = .fault .reservedState) ∧
  (∀ s : State, s.par.Ok → s.FAULTS.reservedState = false → s.FAULTS.tableIndex = true →
    step s = .fault .tableIndex)

/-- HOST.ADMIN.FWUPDATE never returns: nothing is replied, and from then on no step changes anything,
for any number of steps (45_host_protocol.md R296; 10_state.md R47). What a step is after it is the
model's reading (log 15). -/
def Obligations.FirmwareUpdateEndsAllOperations : Prop :=
  (∀ rest : List Byte, decodeHost (0x00 :: 0x1C :: rest) = .instr .hostAdminFwupdate) ∧
  ∀ s : State, Running s →
    exec .hostAdminFwupdate s = .next { s with fwUpdate := true } ∧
    ∀ k : Nat, Host.Core.run core k { s with fwUpdate := true } = .next { s with fwUpdate := true }

/-- A chunk ends when its bytes are used up or a command is cut off: what the earlier commands replied
is returned, and the rest is dropped (45_host_protocol.md R281, R308, R312). With no chunk, the decoder
is called with the next one, both cursors at 0, and with none waiting nothing changes. Where chunks and
replies stand, and that a turn with nothing to take is a step, is the model's (logs 8, 9 and 18). -/
def Obligations.ChunkEndReturnsTheReplies : Prop :=
  ∀ (s : State) (order : List Agent), Running s → s.sched = .host :: order → s.hWait = false →
    (∀ r : Reject, s.buf ≠ [] → decodeHost (s.buf.drop s.scanAt) = .rejected r →
      step s = .next { s with sched := order, replies := s.replies ++ [s.buf.take s.replyAt],
                              buf := [], scanAt := 0, replyAt := 0 }) ∧
    (s.buf = [] → ∀ (chunk : List Byte) (rest : List (List Byte)), s.serialIn = chunk :: rest →
      step s = .next { s with sched := order, serialIn := rest,
                              buf := chunk, scanAt := 0, replyAt := 0 }) ∧
    (s.buf = [] → s.serialIn = [] → step s = .next { s with sched := order })

/-! ## Whole-machine rules -/

/-- The state after reset, for every admissible set of parameters, is legal (70_reset_and_hazards.md
R370). -/
def Obligations.ResetIsLegal : Prop := ∀ c : Params, c.Ok → Inv (State.resetOf c)

/-- Every step keeps the invariant: legal configuration, derived tables, legal keyer registers with
their bounds, the latch only in a pause, the queue within its capacity, the decoder's cursors in order
(10_state.md R31 to R41, R49; 45_host_protocol.md R308). -/
def Obligations.StepKeepsInvariant : Prop :=
  ∀ s t : State, Inv s → step s = .next t → Inv t

/-- From a legal state a run of any length, over any input and any order of acceptance, never stops and
stays legal: no exception exists, and neither stuck record can happen (60_exceptions.md R340, R343). -/
def Obligations.LegalRunsNeverStop : Prop :=
  ∀ s : State, Inv s → ∀ k : Nat, ∃ t, Host.Core.run core k s = .next t ∧ Inv t

/-- In a legal state every register fits its width and every table its slots: all counters are below
2^20 (00_scope.md R13, R20; 10_state.md R32, R33, R35). -/
def Obligations.RegistersFitTheirWidths : Prop :=
  ∀ s : State, Inv s →
    s.FREQ < 2 ^ 24 ∧ s.WPM < 2 ^ 7 ∧ s.VOL < 2 ^ 7 ∧ s.RISE < 2 ^ 6 ∧
    s.P < 2 ^ 20 ∧ s.D < 2 ^ 20 ∧ s.R < 2 ^ 20 ∧ s.p < 2 ^ 20 ∧ s.e < 2 ^ 20 ∧
    s.T.length ≤ s.par.pMax ∧ s.E.length ≤ s.par.rMax + 1

/-- R370: every register after reset, for any parameters, and the rule's values for the vectors'
defaults. -/
def Obligations.ResetValues : Prop :=
  ∀ c : Params,
    let s := State.resetOf c
    s.FREQ = clamp c.DEFAULT_FREQ.toNat c.F_MIN c.F_MAX ∧ s.WPM = clamp c.DEFAULT_WPM.toNat 10 99 ∧
    s.VOL = min c.DEFAULT_VOL.toNat 100 ∧ s.RISE = clamp c.DEFAULT_RISE.toNat 1 50 ∧
    s = s.regenerate ∧
    s.K = .init ∧ s.p = 0 ∧ s.e = 0 ∧ s.L = .none ∧ s.IND = .off ∧ s.Q = [] ∧
    s.OUT = List.replicate c.B 0 ∧ s.APH = .awaitRead ∧ s.PEND = [] ∧
    s.FAULTS = { pairingRead := false, pairingTick := false, reservedState := false,
                 tableIndex := false, wrongPort := false } ∧
    s.hVersion = .v3 ∧
    (c.SR = 48000 → c.F_MIN ≤ 600 → 600 ≤ c.F_MAX → c.DIT_ARITH = .exact → c.DEFAULT_FREQ = 600 →
      c.DEFAULT_WPM = 20 → c.DEFAULT_RISE = 5 → s.P = 80 ∧ s.D = 2880 ∧ s.R = 240)

/-- R52: the fault marks are empty at reset, and no step clears one. -/
def Obligations.FaultMarksAreNeverCleared : Prop :=
  (∀ c : Params, (State.resetOf c).FAULTS =
    { pairingRead := false, pairingTick := false, reservedState := false, tableIndex := false,
      wrongPort := false }) ∧
  ∀ s t : State, step s = .next t →
    (s.FAULTS.pairingRead = true → t.FAULTS.pairingRead = true) ∧
    (s.FAULTS.pairingTick = true → t.FAULTS.pairingTick = true) ∧
    (s.FAULTS.reservedState = true → t.FAULTS.reservedState = true) ∧
    (s.FAULTS.tableIndex = true → t.FAULTS.tableIndex = true) ∧
    (s.FAULTS.wrongPort = true → t.FAULTS.wrongPort = true)

/-- Only TICK writes the keyer state, progress, end index, latch, indicator and output buffer: every
other operation, and every step that does not take a TICK at the audio port, leaves all six
(10_state.md R36 to R40, R49; 43_config.md R253). -/
def Obligations.OnlyTickMovesTheKeyer : Prop :=
  (∀ (i : Instr) (s t : State), i ≠ .tick → exec i s = .next t →
    t.K = s.K ∧ t.p = s.p ∧ t.e = s.e ∧ t.L = s.L ∧ t.IND = s.IND ∧ t.OUT = s.OUT) ∧
  ∀ s t : State, step s = .next t →
    (t.K = s.K ∧ t.p = s.p ∧ t.e = s.e ∧ t.L = s.L ∧ t.IND = s.IND ∧ t.OUT = s.OUT) ∨
    ∃ (order : List Agent) (a : AudioWord) (rest : List AudioWord), s.sched = .audio :: order ∧
      s.audioIn = a :: rest ∧ decodeWord a.word = .instr .tick

/-- Only the setters, and the serial commands that issue them, write the configuration and what is
derived from it (10_state.md R32, R33). Of the steps, only one that takes a setter at the control port
or such a command at the decoder's cursor does. -/
def Obligations.OnlySettersWriteTheConfiguration : Prop :=
  let same (s t : State) : Prop :=
    t.FREQ = s.FREQ ∧ t.WPM = s.WPM ∧ t.VOL = s.VOL ∧ t.RISE = s.RISE ∧
    t.P = s.P ∧ t.T = s.T ∧ t.D = s.D ∧ t.R = s.R ∧ t.E = s.E
  let setter (i : Instr) : Prop :=
    (∃ v, i = .setf v) ∨ (∃ v, i = .setw v) ∨ (∃ v, i = .setr v) ∨ ∃ ch m v, i = .setv ch m v
  let issuer (i : Instr) : Prop :=
    (∃ x, i = .hostAdminRise x) ∨ (∃ x, i = .hostAdminFreq x) ∨ (∃ v, i = .hostSidetone v) ∨
    ∃ v, i = .hostSpeed v
  (∀ (i : Instr) (s t : State), exec i s = .next t → ¬ setter i → ¬ issuer i → same s t) ∧
  ∀ s t : State, step s = .next t → same s t ∨
    (∃ (order : List Agent) (w : Word) (rest : List Word) (i : Instr), s.sched = .control :: order ∧
      s.PEND = [] ∧ s.controlIn = w :: rest ∧ decodeWord w = .instr i ∧ setter i) ∨
    ∃ (order : List Agent) (i : Instr), s.sched = .host :: order ∧ s.hWait = false ∧ s.PEND = [] ∧
      decodeHost (s.buf.drop s.scanAt) = .instr i ∧ issuer i

/-- The decoder's only effects on the block are SETF, SETW, SETR and ENQT: a serial command leaves the
volume, the keyer, the audio port and the fault records alone, and never shortens the queue
(45_host_protocol.md R280). -/
def Obligations.SerialCommandsLeaveTheAudioSide : Prop :=
  ∀ (i : Instr) (bs : List Byte) (s t : State), encode i = .bytes bs → exec i s = .next t →
    t.par = s.par ∧ t.VOL = s.VOL ∧ t.K = s.K ∧ t.p = s.p ∧ t.e = s.e ∧ t.L = s.L ∧ t.IND = s.IND ∧
    t.OUT = s.OUT ∧ t.APH = s.APH ∧ t.FAULTS = s.FAULTS ∧ t.sink = s.sink ∧ s.Q <+: t.Q

/-- The parameters are fixed at construction: no step changes them (00_scope.md R11, R20). -/
def Obligations.ParametersNeverChange : Prop :=
  ∀ s t : State, step s = .next t → t.par = s.par

/-! ## READ and TICK -/

/-- R195: READ delivers the output buffer, moves the phase, and records a READ in the wrong phase;
nothing else changes. The first READ after reset delivers `B` zeros. -/
def Obligations.ReadDeliversTheBuffer : Prop :=
  (∀ x : BitVec 24, decodeWord (0x01#8 ++ x) = .instr .read) ∧
  (∀ s : State,
    exec .read s = .next { s with sink := s.sink ++ [s.OUT], APH := .awaitTick,
                                  FAULTS := { s.FAULTS with
                                    pairingRead := s.FAULTS.pairingRead || s.APH == .awaitTick } }) ∧
  ∀ c : Params, ∃ t, exec .read (State.resetOf c) = .next t ∧ t.sink = [List.replicate c.B 0]

/-- READ never changes what a later TICK computes (41_synthesizer.md R196): the TICK after it leaves
the same keyer, queue, buffer, configuration and tables as the TICK without it. -/
def Obligations.ReadNeverChangesTheNextTick : Prop :=
  ∀ s r t u : State, exec .read s = .next r → exec .tick s = .next t → exec .tick r = .next u →
    u.K = t.K ∧ u.p = t.p ∧ u.e = t.e ∧ u.L = t.L ∧ u.IND = t.IND ∧ u.Q = t.Q ∧ u.OUT = t.OUT ∧
    u.T = t.T ∧ u.E = t.E ∧ u.P = t.P ∧ u.D = t.D ∧ u.R = t.R

/-- R142: a TICK in Init enters InitPause with the indicator off, for any pins and any queue. -/
def Obligations.TickFromInitEntersInitPause : Prop :=
  ∀ s : State, Inv s → s.K = .init →
    exec .tick s =
      .next (afterTick s { s with K := .initPause, p := 0, e := s.par.SR, IND := .off })

/-- From the TICK that enters InitPause on, the next `SR / B` TICKs stay in it with the indicator off,
whatever the pins and the queue, and the one after them leaves it (40_keying.md R143, R161;
70_reset_and_hazards.md R372, with the spec's comparison, EXPIRY_CMP = gt). -/
def Obligations.StartUpGuardLastsOneSecond : Prop :=
  ∀ (s : State) (pins : List (Bool × Bool)), Inv s → s.par.EXPIRY_CMP = .gt → s.K = .init →
    1 ≤ pins.length →
    (pins.length ≤ s.par.SR / s.par.B + 1 →
      (s.ticks pins).K = .initPause ∧ (s.ticks pins).IND = .off ∧ (s.ticks pins).Q = s.Q ∧
      (s.ticks pins).OUT = List.replicate s.par.B 0) ∧
    (pins.length = s.par.SR / s.par.B + 2 → (s.ticks pins).K ≠ .initPause)

/-- R144: a TICK in Dit or Dah does nothing but render and advance until the end index is passed; past
it Dit enters DitPause and Dah enters DahPause, for any pins, with the indicator as it is. A TICK in
InitPause does nothing else either until its end index is passed: its pins are not read and its queue
is not popped (R143's first and third sentences; what it does then is in
IdleResolutionFollowsThePriority). -/
def Obligations.DitAndDahEndInTheirPause : Prop :=
  ∀ s : State, Inv s →
    (s.K = .initPause ∨ s.K = .dit ∨ s.K = .dah → ¬ PastEnd s →
      exec .tick s = .next (afterTick s s)) ∧
    (s.K = .dit → PastEnd s →
      exec .tick s = .next (afterTick s { s with K := .ditPause, p := 0, e := s.D })) ∧
    (s.K = .dah → PastEnd s →
      exec .tick s = .next (afterTick s { s with K := .dahPause, p := 0, e := s.D }))

/-- R150: inside a pause window a pressed opposite paddle writes the latch, a released one leaves it;
nothing else is decided. -/
def Obligations.PauseWindowLatchesTheOppositePaddle : Prop :=
  ∀ s : State, Inv s → ¬ PastEnd s →
    (s.K = .ditPause →
      exec .tick s = .next (afterTick s { s with L := if s.dahN = false then .dah else s.L })) ∧
    (s.K = .dahPause →
      exec .tick s = .next (afterTick s { s with L := if s.ditN = false then .dit else s.L }))

/-- R151: with the opposite paddle pressed at pause expiry the TICK enters the opposite symbol as
manual, clears the latch and keeps the queue. -/
def Obligations.PauseExpiryGoesDirectlyToTheOppositeSymbol : Prop :=
  ∀ s : State, Inv s → PastEnd s →
    (s.K = .ditPause → s.dahN = false →
      exec .tick s =
        .next (afterTick s { s with K := .dah, p := 0, e := s.D * 3, L := .none, IND := .manual })) ∧
    (s.K = .dahPause → s.ditN = false →
      exec .tick s =
        .next (afterTick s { s with K := .dit, p := 0, e := s.D, L := .none, IND := .manual }))

/-- R153: Idle, an expiring InitPause, and an expiring pause whose opposite paddle is released resolve
what to transmit, by priority: the latch, the Dit paddle, the Dah paddle (both clear the queue), the
oldest queued symbol (a Pause sounds as DitPause, R157), nothing (R154 to R159). -/
def Obligations.IdleResolutionFollowsThePriority : Prop :=
  ∀ s : State, Inv s →
    s.K = .idle ∨ (s.K = .initPause ∧ PastEnd s) ∨ (s.K = .ditPause ∧ PastEnd s ∧ s.dahN = true) ∨
      (s.K = .dahPause ∧ PastEnd s ∧ s.ditN = true) →
    exec .tick s = .next (afterTick s (
      if s.L = .dit then { s with K := .dit, p := 0, e := s.D, L := .none, IND := .manual }
      else if s.L = .dah then { s with K := .dah, p := 0, e := s.D * 3, L := .none, IND := .manual }
      else if s.ditN = false then { s with K := .dit, p := 0, e := s.D, IND := .manual, Q := [] }
      else if s.dahN = false then { s with K := .dah, p := 0, e := s.D * 3, IND := .manual, Q := [] }
      else match s.Q with
        | .dit :: q => { s with K := .dit, p := 0, e := s.D, IND := .queued, Q := q }
        | .dah :: q => { s with K := .dah, p := 0, e := s.D * 3, IND := .queued, Q := q }
        | .pause :: q => { s with K := .ditPause, p := 0, e := s.D, IND := .queued, Q := q }
        | [] => { s with K := .idle, p := 0, e := 0, IND := .off }))

/-- A TICK renders zeros when the state it leaves is not Dit or Dah, when the volume is 0, and at every
position at or past the end index (41_synthesizer.md R193). -/
def Obligations.SilenceOutsideSoundingPositions : Prop :=
  ∀ s t : State, Inv s → exec .tick s = .next t →
    (t.K ≠ .dit ∧ t.K ≠ .dah → t.OUT = List.replicate s.par.B 0) ∧
    (s.VOL = 0 → t.OUT = List.replicate s.par.B 0) ∧
    (∀ j, j < s.par.B → t.K = .dit ∨ t.K = .dah → t.e ≤ t.p - s.par.B + j → t.OUT[j]? = some 0)

/-- A state with end index e that has just rendered its first buffer renders in `e / B` further TICKs,
whatever the pins, and the TICK after those leaves it: it has entered a state afresh, or Idle
(40_keying.md R162, with the spec's comparison, EXPIRY_CMP = gt). -/
def Obligations.StateLastsFloorPlusOneTicks : Prop :=
  ∀ (s : State) (pins : List (Bool × Bool)), Inv s → s.par.EXPIRY_CMP = .gt →
    s.K ≠ .init → s.K ≠ .idle → s.p = s.par.B →
    (pins.length ≤ s.e / s.par.B →
      (s.ticks pins).K = s.K ∧ (s.ticks pins).e = s.e ∧
      (s.ticks pins).p = (pins.length + 1) * s.par.B) ∧
    (pins.length = s.e / s.par.B + 1 →
      ((s.ticks pins).K = .idle ∧ (s.ticks pins).p = 0) ∨
      ((s.ticks pins).K ≠ .idle ∧ (s.ticks pins).p = s.par.B))

/-- Holding the Dit paddle alone from an Idle resolution on, the block is in Dit or DitPause after every
TICK, with the indicator manual, the queue empty and the latch clear: no TICK is spent in Idle
(40_keying.md R164). -/
def Obligations.HeldDitNeverReturnsToIdle : Prop :=
  ∀ (s : State) (n : Nat), Inv s → s.K = .idle → 1 ≤ n →
    ((s.ticks (List.replicate n (false, true))).K = .dit ∨
      (s.ticks (List.replicate n (false, true))).K = .ditPause) ∧
    (s.ticks (List.replicate n (false, true))).IND = .manual ∧
    (s.ticks (List.replicate n (false, true))).Q = [] ∧
    (s.ticks (List.replicate n (false, true))).L = .none

/-- Both paddles held from Idle alternate Dit, DitPause, Dah, DahPause and so on: the first TICK enters
Dit, every further TICK stays in its state or takes the next of that circle, and the next of the circle
is entered within `S.e / B + 1` TICKs; the indicator is manual and the queue empty (40_keying.md
R166; the exact count under EXPIRY_CMP = gt is in StateLastsFloorPlusOneTicks). -/
def Obligations.BothPaddlesHeldAlternate : Prop :=
  ∀ (s : State) (n : Nat), Inv s → s.K = .idle → 1 ≤ n →
    let a := s.ticks (List.replicate n (false, false))
    let b := s.ticks (List.replicate (n + 1) (false, false))
    (b.K = a.K ∨ (a.K = .dit ∧ b.K = .ditPause) ∨ (a.K = .ditPause ∧ b.K = .dah) ∨
      (a.K = .dah ∧ b.K = .dahPause) ∨ (a.K = .dahPause ∧ b.K = .dit)) ∧
    (a.K = .dit ∨ a.K = .ditPause ∨ a.K = .dah ∨ a.K = .dahPause) ∧
    a.IND = .manual ∧ a.Q = [] ∧ (n = 1 → a.K = .dit) ∧
    ∃ m, 1 ≤ m ∧ m ≤ a.e / a.par.B + 1 ∧
      (∀ k, k < m → (s.ticks (List.replicate (n + k) (false, false))).K = a.K) ∧
      let c := s.ticks (List.replicate (n + m) (false, false))
      (a.K = .dit ∧ c.K = .ditPause) ∨ (a.K = .ditPause ∧ c.K = .dah) ∨
      (a.K = .dah ∧ c.K = .dahPause) ∨ (a.K = .dahPause ∧ c.K = .dit)

/-- A Dit or Dah that a TICK enters ends on a whole number of tone periods, and its first sample is 0
(41_synthesizer.md R194; 10_state.md R38). Its last sample, where the symbol is longer than its rise
time, carries the release factor of index 1, which R194 calls near-zero and R190 multiplies in (log 27),
and is 0 with the tone period, rise and volume of the vectors' defaults. -/
def Obligations.SymbolsAreWholeTonePeriods : Prop :=
  ∀ s t : State, Inv s → exec .tick s = .next t → t.K = .dit ∨ t.K = .dah →
    ((t.K ≠ s.K ∨ PastEnd s) → t.P ∣ t.e ∧ 0 < t.e ∧ t.OUT.head? = some 0) ∧
    ∀ j, j < s.par.B → t.p - s.par.B + j + 1 = t.e → 0 < t.VOL → t.R < t.e →
      t.OUT[j]? = some (envMul t.par (t.T.getD ((t.e - 1) % t.P) 0) (t.E.getD 1 0)) ∧
      (t.par.NUMERICS = .reference → t.par.TONE_PHASE = .cycle → t.P = 80 → t.R = 240 →
        t.VOL = 100 → t.P ∣ t.e → t.OUT[j]? = some 0)

/-! ## Numerics -/

/-- The named properties of the numerics fields, for the reference definitions and for every build
(41_synthesizer.md R185): TONE0, TONEMAX, TONEVOL0, ENVZERO, MULZERO, MULMAG, MULSIGN. -/
def Obligations.NumericsHaveTheNamedProperties : Prop :=
  ∀ (c : Params) (freq P vol i R : Nat) (x : EnvVal) (s : Sample),
    genTone c freq P vol 0 = 0 ∧ (genTone c freq P vol i).toInt.natAbs ≤ 32767 ∧
    genTone c freq P 0 i = 0 ∧ (1 ≤ R → envMul c s (genEnv c R 0) = 0) ∧ envMul c 0 x = 0 ∧
    (envMul c s x).toInt.natAbs ≤ s.toInt.natAbs ∧
    (envMul c s x = 0 ∨ (envMul c s x).toInt.sign = s.toInt.sign)

/-- The reference tables (log 5). The Tone Table starts at 0, keeps within its amplitude, peaks at the
quarter turns, is odd about the half turn, and depends on the period and volume only; the Envelope
Table runs from 0 to 1 through 0.34 in the middle, within [0, 1] (41_synthesizer.md R182, R184). That
its entries are non-decreasing is stated for 48 and 240 rise samples only, the lengths of the vectors'
1 ms and 5 ms: for a general length it is not part of this statement. -/
def Obligations.ReferenceTablesHaveTheirShape : Prop :=
  ∀ c : Params, c.NUMERICS = .reference →
    (c.TONE_PHASE = .cycle → ∀ freq freq' P vol : Nat, 1 ≤ P → vol ≤ 100 →
      genTone c freq P vol 0 = 0 ∧
      (∀ i, (genTone c freq P vol i).toInt.natAbs ≤ vol * 32767 / 100) ∧
      (∀ i, genTone c freq P 0 i = 0) ∧
      (P % 4 = 0 → (genTone c freq P vol (P / 4)).toInt = (vol * 32767 / 100 : Nat) ∧
        (genTone c freq P vol (3 * P / 4)).toInt = -((vol * 32767 / 100 : Nat) : Int)) ∧
      (∀ i, 0 < i → i < P →
        (genTone c freq P vol (P - i)).toInt = -(genTone c freq P vol i).toInt) ∧
      (∀ i, genTone c freq P vol i = genTone c freq' P vol i)) ∧
    ∀ R : Nat, 1 ≤ R →
      genEnv c R 0 = 0 ∧ genEnv c R R = envOne ∧
      (R % 2 = 0 → 100 * genEnv c R (R / 2) = 34 * envOne) ∧ (∀ i, genEnv c R i ≤ envOne) ∧
      (R = 48 ∨ R = 240 → ∀ i j, i ≤ j → j ≤ R → genEnv c R i ≤ genEnv c R j)

/-! ## The Transmission Queue -/

/-- ENQ pushes its symbol in one step when the queue has room, and otherwise holds with the symbol in
flight; nothing else changes (42_queue.md R220, R221; log 13). -/
def Obligations.EnqPushesOrHolds : Prop :=
  (∀ (r : BitVec 22) (code : BitVec 2), decodeWord (0x20#8 ++ (r ++ code)) =
    .instr (.enq (if code = 0 then .dit else if code = 1 then .dah else .pause))) ∧
  ∀ (s : State) (x : Symbol),
    exec (.enq x) s = .next (if s.Q.length < s.par.QCAP then
        { s with Q := s.Q ++ [x], PEND := [], hWait := false }
      else { s with PEND := [x] })

/-- ENQT with more than 10 characters is ignored whole; otherwise its symbols and `ICP - 1` Pauses are
in flight, the first pushed when the queue has room (42_queue.md R222, R224; log 13). That the ignored
one leaves no event either is the model's choice (log 28). -/
def Obligations.EnqtTakesItsText : Prop :=
  ∀ (s : State) (n : BitVec 4) (codes : BitVec 20),
    (10 < n.toNat → exec (.enqt n codes) s = .next s) ∧
    (n.toNat ≤ 10 → ∀ syms : List Symbol,
      syms = (List.range n.toNat).map (fun j =>
          if codes.extractLsb' (2 * j) 2 = 0 then Symbol.dit
          else if codes.extractLsb' (2 * j) 2 = 1 then .dah else .pause) ++
        List.replicate (s.par.ICP - 1) .pause →
      exec (.enqt n codes) s = .next (match syms with
        | [] => { s with PEND := [] }
        | x :: rest =>
          if s.Q.length < s.par.QCAP then
            { s with Q := s.Q ++ [x], PEND := rest, hWait := s.hWait && !rest.isEmpty }
          else { s with PEND := x :: rest }))

/-- A push step moves the oldest symbol in flight to the end of the queue when there is room, and
otherwise changes nothing: the order of the symbols stays, and the queue is never overfilled. Several in
a row push what fits and hold with the rest; an enqueue in flight that fits is delivered whole, by as
many push steps as it has symbols, and then the control port is free (42_queue.md R221, R223, R226).
That a push turn with a full queue or with nothing in flight is a step, which changes only the order of
acceptance, is the model's choice (log 9): R221 has a push step only while S.PEND is not empty, and a
hold of 00_scope.md R16 has none. -/
def Obligations.PushStepsDeliverInOrder : Prop :=
  ∀ (s : State) (order : List Agent), Running s →
    (s.sched = .push :: order →
      (∀ (x : Symbol) (rest : List Symbol), s.PEND = x :: rest → s.Q.length < s.par.QCAP →
        step s = .next { s with sched := order, Q := s.Q ++ [x], PEND := rest,
                                hWait := s.hWait && !rest.isEmpty }) ∧
      (s.PEND = [] ∨ s.par.QCAP ≤ s.Q.length → step s = .next { s with sched := order }) ∧
      ∃ t, step s = .next t ∧ t.Q ++ t.PEND = s.Q ++ s.PEND ∧
        (s.Q.length ≤ s.par.QCAP → t.Q.length ≤ s.par.QCAP)) ∧
    (∀ n : Nat, s.PEND ≠ [] → s.sched = List.replicate n .push ++ order →
      let k := min n (s.par.QCAP - s.Q.length)
      Host.Core.run core n s =
        .next { s with sched := order, Q := s.Q ++ s.PEND.take k, PEND := s.PEND.drop k,
                       hWait := s.hWait && !(s.PEND.drop k).isEmpty }) ∧
    (s.PEND ≠ [] → s.Q.length + s.PEND.length ≤ s.par.QCAP →
      s.sched = List.replicate s.PEND.length .push ++ order →
      Host.Core.run core s.PEND.length s =
        .next { s with sched := order, Q := s.Q ++ s.PEND, PEND := [], hWait := false })

/-- While an enqueue is in flight, only a TICK at the audio port can make room in the queue, by popping
its oldest symbol or by clearing it (42_queue.md R221; 70_reset_and_hazards.md R383). -/
def Obligations.OnlyATickLiftsAHold : Prop :=
  ∀ s t : State, Inv s → s.PEND ≠ [] → step s = .next t → t.Q.length < s.Q.length →
    (∃ (order : List Agent) (a : AudioWord) (rest : List AudioWord), s.sched = .audio :: order ∧
      s.audioIn = a :: rest ∧ decodeWord a.word = .instr .tick) ∧
    (t.Q = [] ∨ ∃ x, s.Q = x :: t.Q)

/-- CLR empties the queue and changes nothing else (42_queue.md R225). -/
def Obligations.ClrEmptiesTheQueue : Prop :=
  (∀ x : BitVec 24, decodeWord (0x22#8 ++ x) = .instr .clr) ∧
  ∀ s : State, exec .clr s = .next { s with Q := [] }

/-! ## The setters -/

/-- R250: with the spec's exact dit arithmetic a regeneration recomputes the five derived pieces from
the configuration and the parameters, and writes nothing else (R253). -/
def Obligations.RegenerationRecomputesEverything : Prop :=
  ∀ s : State, s.par.DIT_ARITH = .exact →
    s.regenerate =
      { s with
        P := ceilDiv s.par.SR s.FREQ
        T := (List.range (ceilDiv s.par.SR s.FREQ)).map
          (genTone s.par s.FREQ (ceilDiv s.par.SR s.FREQ) s.VOL)
        D := ceilDiv (6 * s.par.SR) (5 * s.WPM * ceilDiv s.par.SR s.FREQ) * ceilDiv s.par.SR s.FREQ
        R := s.RISE * s.par.SR / 1000
        E := (List.range (s.RISE * s.par.SR / 1000 + 1)).map
          (genEnv s.par (s.RISE * s.par.SR / 1000)) }

/-- SETF, SETW and SETR clamp their value into the field's range and regenerate (43_config.md R260,
R262, R264). -/
def Obligations.SettersClampAndRegenerate : Prop :=
  ∀ (v : BitVec 24) (s : State),
    decodeWord (0x10#8 ++ v) = .instr (.setf v) ∧ decodeWord (0x11#8 ++ v) = .instr (.setw v) ∧
    decodeWord (0x12#8 ++ v) = .instr (.setr v) ∧
    exec (.setf v) s =
      .next (State.regenerate { s with FREQ := min (max v.toNat s.par.F_MIN) s.par.F_MAX }) ∧
    exec (.setw v) s = .next (State.regenerate { s with WPM := min (max v.toNat 10) 99 }) ∧
    exec (.setr v) s = .next (State.regenerate { s with RISE := min (max v.toNat 1) 50 })

/-- SETV honours channel 0 only; a mute or volume 0 silences and keeps the tables; another volume is
clamped to 100 and regenerates (43_config.md R266). -/
def Obligations.VolumeHandler : Prop :=
  (∀ (ch vol : BitVec 8) (r : BitVec 7) (mute : BitVec 1),
    decodeWord (0x13#8 ++ (ch ++ (r ++ (mute ++ vol)))) = .instr (.setv ch (mute = 1) vol)) ∧
  ∀ (ch vol : BitVec 8) (mute : Bool) (s : State),
    exec (.setv ch mute vol) s = .next (
      if ch ≠ 0 then s
      else if mute = true ∨ vol = 0 then { s with VOL := 0 }
      else State.regenerate { s with VOL := min vol.toNat 100 })

/-- R255: with the spec's exact arithmetic the dit length of a legal state is the formula's value
rounded up to a whole number of tone periods. -/
def Obligations.DitLengthIsRoundedUpToWholePeriods : Prop :=
  ∀ s : State, Inv s → s.par.DIT_ARITH = .exact →
    s.D = ceilDiv (6 * s.par.SR) (5 * s.WPM * s.P) * s.P ∧
    s.P ∣ s.D ∧ 0 < s.D ∧ 6 * s.par.SR ≤ 5 * s.WPM * s.D ∧
    5 * s.WPM * s.D < 6 * s.par.SR + 5 * s.WPM * s.P

/-- A setter with the value already held changes nothing the second time: its regeneration is a
function of the configuration (43_config.md R252, R261, R267). -/
def Obligations.RepeatedSetterIsBitIdentical : Prop :=
  ∀ (v : BitVec 24) (ch vol : BitVec 8) (mute : Bool) (i : Instr) (s t : State),
    i = .setf v ∨ i = .setw v ∨ i = .setr v ∨ i = .setv ch mute vol →
    exec i s = .next t → exec i t = .next t

/-- In a legal state that is not muted, SETW changes the speed and the dit length only, and SETR the
rise time, the rise samples and the Envelope Table only (43_config.md R262, R264; while muted, the Tone
Table is rebuilt as zeros: log 21). -/
def Obligations.UnmutedSettersTouchTheirOwnTablesOnly : Prop :=
  ∀ (v : BitVec 24) (s : State), Inv s → s.VOL ≠ 0 →
    (∃ d, exec (.setw v) s = .next { s with WPM := min (max v.toNat 10) 99, D := d }) ∧
    (∃ r env, exec (.setr v) s = .next { s with RISE := min (max v.toNat 1) 50, R := r, E := env })

/-! ## The reference host -/

/-- R288 to R291, R293 to R295, R305: the commands that only reply. Host Open replies 31 and 3 and sets the version to 1, Echo replies its
byte, ids 5, 6, 7 reply 0, id 9 replies 31, id 21 replies 52, id 23 replies 3, id 24 replies 1, and
0x15 replies 0xC0. A reply stands at the reply cursor, and the parse cursor moves past the command's
bytes. -/
def Obligations.SerialCommandsReply : Prop :=
  ∀ (s : State) (x : Byte) (rest : List Byte),
    decodeHost (0x00 :: 2 :: rest) = .instr .hostAdminHostopen ∧
    exec .hostAdminHostopen s =
      .next { s with buf := (s.buf.set s.replyAt 31).set (s.replyAt + 1) 3, replyAt := s.replyAt + 2,
                     scanAt := s.scanAt + 2, hVersion := .v1 } ∧
    decodeHost (0x00 :: 4 :: x :: rest) = .instr (.hostAdminEcho x) ∧
    exec (.hostAdminEcho x) s =
      .next { s with buf := s.buf.set s.replyAt x, replyAt := s.replyAt + 1,
                     scanAt := s.scanAt + 3 } ∧
    ∀ (bs : List Byte) (i : Instr) (b : Byte),
      (bs, i, b) ∈ [([(0x00 : Byte), 5], Instr.hostAdmin5, (0 : Byte)), ([0x00, 6], .hostAdmin6, 0),
        ([0x00, 7], .hostAdmin7, 0), ([0x00, 9], .hostAdminMajor, 31),
        ([0x00, 21], .hostAdminVoltage, 52), ([0x00, 23], .hostAdminMinor, 3),
        ([0x00, 24], .hostAdminIctype, 1), ([0x15], .hostStatus, 0xC0)] →
      decodeHost (bs ++ rest) = .instr i ∧
      exec i s =
        .next { s with buf := s.buf.set s.replyAt b, replyAt := s.replyAt + 1,
                       scanAt := s.scanAt + bs.length }

/-- R292, R297, R300, R304, R306, R307: the commands without a reply or a control-port operation. Ids 10,
11 and 20 set the version to 1, 2 and 3, byte 0x0E sets 3, and the no-ops (id 25, every unnamed id, the
other control bytes, the ignored bytes) change nothing; each moves the parse cursor past its bytes. -/
def Obligations.VersionAndNoOpCommands : Prop :=
  ∀ (s : State) (id g : Byte) (b : BitVec 5) (rest : List Byte),
    decodeHost (0x00 :: 10 :: rest) = .instr .hostAdminVersion1 ∧
    decodeHost (0x00 :: 11 :: rest) = .instr .hostAdminVersion2 ∧
    decodeHost (0x00 :: 20 :: rest) = .instr .hostAdminVersion3 ∧
    decodeHost (0x0E :: rest) = .instr .hostVersion3 ∧
    decodeHost (0x00 :: 25 :: rest) = .instr .hostAdminSidetonevol ∧
    (id ∉ [2, 4, 5, 6, 7, 9, 10, 11, 20, 21, 23, 24, 25, 26, 27, 28] →
      decodeHost (0x00 :: id :: rest) = .instr (.hostAdminOther id)) ∧
    (b ∉ [0x00, 0x01, 0x02, 0x07, 0x0E, 0x15] →
      decodeHost (b.setWidth 8 :: rest) = .instr (.hostCtrlNop b)) ∧
    (0x5E#8 ≤ g ∧ g ≤ 0x60#8 ∨ 0x7B#8 ≤ g → decodeHost (g :: rest) = .instr (.hostIgnored g)) ∧
    exec .hostAdminVersion1 s = .next { s with hVersion := .v1, scanAt := s.scanAt + 2 } ∧
    exec .hostAdminVersion2 s = .next { s with hVersion := .v2, scanAt := s.scanAt + 2 } ∧
    exec .hostAdminVersion3 s = .next { s with hVersion := .v3, scanAt := s.scanAt + 2 } ∧
    exec .hostVersion3 s = .next { s with hVersion := .v3, scanAt := s.scanAt + 1 } ∧
    exec .hostAdminSidetonevol s = .next { s with scanAt := s.scanAt + 2 } ∧
    exec (.hostAdminOther id) s = .next { s with scanAt := s.scanAt + 2 } ∧
    exec (.hostCtrlNop b) s = .next { s with scanAt := s.scanAt + 1 } ∧
    exec (.hostIgnored g) s = .next { s with scanAt := s.scanAt + 1 }

/-- R298, R299, R302: admin 26 issues `SETR x`, admin 27 `SETF 10x`, and byte 0x02 `SETW v`, each with
the setter's clamping and regeneration. -/
def Obligations.SerialSettersIssueTheirSetter : Prop :=
  ∀ (s : State) (x : Byte) (rest : List Byte),
    decodeHost (0x00 :: 26 :: x :: rest) = .instr (.hostAdminRise x) ∧
    decodeHost (0x00 :: 27 :: x :: rest) = .instr (.hostAdminFreq x) ∧
    decodeHost (0x02 :: x :: rest) = .instr (.hostSpeed x) ∧
    exec (.hostAdminRise x) s =
      .next ((State.regenerate { s with RISE := min (max x.toNat 1) 50 }).consume 3) ∧
    exec (.hostAdminFreq x) s =
      .next ((State.regenerate
        { s with FREQ := min (max (10 * x.toNat) s.par.F_MIN) s.par.F_MAX }).consume 3) ∧
    exec (.hostSpeed x) s =
      .next ((State.regenerate { s with WPM := min (max x.toNat 10) 99 }).consume 2)

/-- R301: at versions 1 and 2 a value from 1 to 10 issues SETF of the sidetone table's entry; at version
3 a value from 15 to 125 issues SETF of 62500 / v, rounded down; any other value only consumes its
bytes. -/
def Obligations.SidetoneByVersion : Prop :=
  ∀ (s : State) (v : Byte),
    (∀ rest : List Byte, decodeHost (0x01 :: v :: rest) = .instr (.hostSidetone v)) ∧
    (s.hVersion ≠ .v3 → 1 ≤ v.toNat → v.toNat ≤ 10 →
      exec (.hostSidetone v) s =
        .next ((State.regenerate
          { s with FREQ := min (max (s.par.SIDETONE_TABLE.getD v.toNat 0).toNat s.par.F_MIN)
                             s.par.F_MAX }).consume 2)) ∧
    (s.hVersion = .v3 → 15 ≤ v.toNat → v.toNat ≤ 125 →
      exec (.hostSidetone v) s =
        .next ((State.regenerate
          { s with FREQ := min (max (62500 / v.toNat) s.par.F_MIN) s.par.F_MAX }).consume 2)) ∧
    (s.hVersion ≠ .v3 ∧ (v.toNat < 1 ∨ 10 < v.toNat) ∨
      s.hVersion = .v3 ∧ (v.toNat < 15 ∨ 125 < v.toNat) →
      exec (.hostSidetone v) s = .next { s with scanAt := s.scanAt + 2 })

/-- R303: in a legal state the speed query replies the speed's low six bits with bit 7 set. -/
def Obligations.SpeedQueryReplies : Prop :=
  (∀ rest : List Byte, decodeHost (0x07 :: rest) = .instr .hostSpeedquery) ∧
  ∀ s : State, Inv s →
    exec .hostSpeedquery s =
      .next { s with buf := s.buf.set s.replyAt (BitVec.ofNat 8 (s.WPM % 64 + 128)),
                     replyAt := s.replyAt + 1, scanAt := s.scanAt + 1 }

/-- Morse text enqueues the symbols of its string, then `ICP - 1` Pauses, the first of them pushed at
once when the queue has room; the decoder waits while some are in flight. A byte without a string
enqueues nothing. The byte in the buffer becomes the upper-cased one (45_host_protocol.md R282, R283;
the strings are those of log 4, the first push that of log 13). -/
def Obligations.TextEnqueuesItsMorse : Prop :=
  ∀ (s : State) (c : Byte), s.par.Ok →
    (morseOf s.par c = [] →
      exec (.hostText c) s = .next { s with buf := s.buf.set s.scanAt c, scanAt := s.scanAt + 1 }) ∧
    (∀ (ch : TextChar) (str : List TextChar) (x : Symbol) (rest : List Symbol),
      morseOf s.par c = ch :: str →
      x :: rest = (ch :: str).map (fun
          | .dot => Symbol.dit
          | .dash => .dah
          | .other => .pause) ++ List.replicate (s.par.ICP - 1) .pause →
      exec (.hostText c) s = .next (if s.Q.length < s.par.QCAP then
          { s with buf := s.buf.set s.scanAt c, scanAt := s.scanAt + 1,
                   Q := s.Q ++ [x], PEND := rest, hWait := !rest.isEmpty }
        else
          { s with buf := s.buf.set s.scanAt c, scanAt := s.scanAt + 1,
                   PEND := x :: rest, hWait := true }))

/-- A serial command other than firmware update moves the cursor past exactly its bytes, and replies at
most as many bytes as it consumes (45_host_protocol.md R281, R308). -/
def Obligations.RepliesNeverOutrunTheScan : Prop :=
  ∀ (i : Instr) (bs : List Byte) (s t : State), encode i = .bytes bs → i ≠ .hostAdminFwupdate →
    exec i s = .next t →
    t.scanAt = s.scanAt + bs.length ∧ t.buf.length = s.buf.length ∧
    s.replyAt ≤ t.replyAt ∧ t.replyAt ≤ s.replyAt + bs.length

/-- R45: the indicator shows the colour parameter of the current code. -/
def Obligations.IndicatorShowsItsColour : Prop :=
  ∀ s : State,
    (s.IND = .off → s.indicatorColor = s.par.COLOR_OFF) ∧
    (s.IND = .manual → s.indicatorColor = s.par.COLOR_MANUAL) ∧
    (s.IND = .queued → s.indicatorColor = s.par.COLOR_QUEUED)
end

