-- ==== Sys2Proof/Laws/Decode.lean ====
section
/-! SUPPORT. What the serial decoder can answer (45_host_protocol.md R281, R286, R312). -/

namespace Sys2Proof

/-- The commands of the serial line: all but the operations of the ports. -/
def isSerial : Instr → Bool
  | .read | .tick | .setf _ | .setw _ | .setr _ | .setv _ _ _ | .enq _ | .enqt _ _ | .clr => false
  | _ => true

/-- The instruction is a serial command whose bytes are among the first `n`. -/
def FitsIn (n : Nat) (i : Instr) : Prop :=
  isSerial i = true ∧ 1 ≤ serialLength i ∧ serialLength i ≤ n

/-- Every instruction of an answer fits in `n` bytes. -/
def Decoded.Fits (n : Nat) : Decoded → Prop
  | .instr i => FitsIn n i
  | .rejected _ => True

theorem Decoded.fits_ite (n : Nat) (p : Prop) [Decidable p] (a b : Decoded) (ha : a.Fits n)
    (hb : b.Fits n) : (if p then a else b).Fits n := by
  split <;> assumption

theorem adminOf_fits (id : Byte) (n : Nat) (h : 2 ≤ n) : FitsIn n (adminOf id) := by
  have key (p : Prop) [Decidable p] (a b : Instr) (ha : FitsIn n a) (hb : FitsIn n b) :
      FitsIn n (if p then a else b) := by split <;> assumption
  unfold adminOf
  repeat' apply key
  all_goals exact ⟨rfl, Nat.le_succ 1, h⟩

theorem withByte_fits (f : Byte → Instr) (bs : List Byte) (n k : Nat)
    (hf : ∀ x, isSerial (f x) = true ∧ serialLength (f x) = k + 1) (hk : k + bs.length ≤ n) :
    (withByte f bs).Fits n := by
  cases bs with
  | nil => trivial
  | cons x rest =>
    obtain ⟨h1, h2⟩ := hf x
    simp only [List.length_cons] at hk
    exact ⟨h1, by omega, by omega⟩

/-- A serial command has at least one byte, and its bytes are all there (R281 `need`). -/
theorem decodeHost_fits (bs : List Byte) : (decodeHost bs).Fits bs.length := by
  cases bs with
  | nil => trivial
  | cons b rest =>
    unfold decodeHost
    have one (i : Instr) (h : isSerial i = true) (hl : serialLength i = 1) :
        (Decoded.instr i).Fits (b :: rest).length :=
      ⟨h, by omega, by simp [hl]⟩
    repeat' apply Decoded.fits_ite
    · exact one _ rfl rfl
    · cases rest with
      | nil => trivial
      | cons id rest =>
        unfold decodeAdmin
        repeat' apply Decoded.fits_ite
        · exact withByte_fits _ rest _ 2 (fun _ => ⟨rfl, rfl⟩) (by simp; omega)
        · exact withByte_fits _ rest _ 2 (fun _ => ⟨rfl, rfl⟩) (by simp; omega)
        · exact withByte_fits _ rest _ 2 (fun _ => ⟨rfl, rfl⟩) (by simp; omega)
        · exact adminOf_fits id _ (by simp)
    · exact withByte_fits _ rest _ 1 (fun _ => ⟨rfl, rfl⟩) (by simp; omega)
    · exact withByte_fits _ rest _ 1 (fun _ => ⟨rfl, rfl⟩) (by simp; omega)
    · exact one _ rfl rfl
    · exact one _ rfl rfl
    · exact one _ rfl rfl
    · exact one _ rfl rfl
    · exact one _ rfl rfl

theorem decodeHost_length (bs : List Byte) (i : Instr) (h : decodeHost bs = .instr i) :
    isSerial i = true ∧ 1 ≤ serialLength i ∧ serialLength i ≤ bs.length := by
  have := decodeHost_fits bs
  rwa [h] at this

end Sys2Proof
end

