-- ==== Sys2Proof/Laws/State.lean ====
section
/-! SUPPORT. What each named update of the state does to each field: one lemma per field and update,
true by definition. -/

namespace Sys2Proof.Machine

variable (s : State)

/-! `Enter(k, c)` (40_keying.md R147) -/

section
variable (k : Keyer) (c : Option Indicator)

@[simp] theorem State.enter_par : (s.enter k c).par = s.par := rfl
@[simp] theorem State.enter_FREQ : (s.enter k c).FREQ = s.FREQ := rfl
@[simp] theorem State.enter_WPM : (s.enter k c).WPM = s.WPM := rfl
@[simp] theorem State.enter_VOL : (s.enter k c).VOL = s.VOL := rfl
@[simp] theorem State.enter_RISE : (s.enter k c).RISE = s.RISE := rfl
@[simp] theorem State.enter_P : (s.enter k c).P = s.P := rfl
@[simp] theorem State.enter_T : (s.enter k c).T = s.T := rfl
@[simp] theorem State.enter_D : (s.enter k c).D = s.D := rfl
@[simp] theorem State.enter_R : (s.enter k c).R = s.R := rfl
@[simp] theorem State.enter_E : (s.enter k c).E = s.E := rfl
@[simp] theorem State.enter_K : (s.enter k c).K = k := rfl
@[simp] theorem State.enter_p : (s.enter k c).p = 0 := rfl
@[simp] theorem State.enter_e : (s.enter k c).e = s.endIndex k := rfl
@[simp] theorem State.enter_L : (s.enter k c).L = s.L := rfl
@[simp] theorem State.enter_IND : (s.enter k c).IND = c.getD s.IND := rfl
@[simp] theorem State.enter_Q : (s.enter k c).Q = s.Q := rfl
@[simp] theorem State.enter_OUT : (s.enter k c).OUT = s.OUT := rfl
@[simp] theorem State.enter_APH : (s.enter k c).APH = s.APH := rfl
@[simp] theorem State.enter_PEND : (s.enter k c).PEND = s.PEND := rfl
@[simp] theorem State.enter_FAULTS : (s.enter k c).FAULTS = s.FAULTS := rfl
@[simp] theorem State.enter_ditN : (s.enter k c).ditN = s.ditN := rfl
@[simp] theorem State.enter_dahN : (s.enter k c).dahN = s.dahN := rfl
@[simp] theorem State.enter_hVersion : (s.enter k c).hVersion = s.hVersion := rfl
@[simp] theorem State.enter_buf : (s.enter k c).buf = s.buf := rfl
@[simp] theorem State.enter_scanAt : (s.enter k c).scanAt = s.scanAt := rfl
@[simp] theorem State.enter_replyAt : (s.enter k c).replyAt = s.replyAt := rfl
@[simp] theorem State.enter_hWait : (s.enter k c).hWait = s.hWait := rfl
@[simp] theorem State.enter_fwUpdate : (s.enter k c).fwUpdate = s.fwUpdate := rfl
@[simp] theorem State.enter_audioIn : (s.enter k c).audioIn = s.audioIn := rfl
@[simp] theorem State.enter_controlIn : (s.enter k c).controlIn = s.controlIn := rfl
@[simp] theorem State.enter_serialIn : (s.enter k c).serialIn = s.serialIn := rfl
@[simp] theorem State.enter_sched : (s.enter k c).sched = s.sched := rfl
@[simp] theorem State.enter_sink : (s.enter k c).sink = s.sink := rfl
@[simp] theorem State.enter_replies : (s.enter k c).replies = s.replies := rfl
@[simp] theorem State.enter_ignored : (s.enter k c).ignored = s.ignored := rfl

end

/-! `Regenerate()` (43_config.md R250, R253) -/

section

@[simp] theorem State.regenerate_par : s.regenerate.par = s.par := rfl
@[simp] theorem State.regenerate_FREQ : s.regenerate.FREQ = s.FREQ := rfl
@[simp] theorem State.regenerate_WPM : s.regenerate.WPM = s.WPM := rfl
@[simp] theorem State.regenerate_VOL : s.regenerate.VOL = s.VOL := rfl
@[simp] theorem State.regenerate_RISE : s.regenerate.RISE = s.RISE := rfl
@[simp] theorem State.regenerate_P :
    s.regenerate.P = (tablesOf s.par s.FREQ s.WPM s.VOL s.RISE).P := rfl
@[simp] theorem State.regenerate_T :
    s.regenerate.T = (tablesOf s.par s.FREQ s.WPM s.VOL s.RISE).T := rfl
@[simp] theorem State.regenerate_D :
    s.regenerate.D = (tablesOf s.par s.FREQ s.WPM s.VOL s.RISE).D := rfl
@[simp] theorem State.regenerate_R :
    s.regenerate.R = (tablesOf s.par s.FREQ s.WPM s.VOL s.RISE).R := rfl
@[simp] theorem State.regenerate_E :
    s.regenerate.E = (tablesOf s.par s.FREQ s.WPM s.VOL s.RISE).E := rfl
@[simp] theorem State.regenerate_K : s.regenerate.K = s.K := rfl
@[simp] theorem State.regenerate_p : s.regenerate.p = s.p := rfl
@[simp] theorem State.regenerate_e : s.regenerate.e = s.e := rfl
@[simp] theorem State.regenerate_L : s.regenerate.L = s.L := rfl
@[simp] theorem State.regenerate_IND : s.regenerate.IND = s.IND := rfl
@[simp] theorem State.regenerate_Q : s.regenerate.Q = s.Q := rfl
@[simp] theorem State.regenerate_OUT : s.regenerate.OUT = s.OUT := rfl
@[simp] theorem State.regenerate_APH : s.regenerate.APH = s.APH := rfl
@[simp] theorem State.regenerate_PEND : s.regenerate.PEND = s.PEND := rfl
@[simp] theorem State.regenerate_FAULTS : s.regenerate.FAULTS = s.FAULTS := rfl
@[simp] theorem State.regenerate_ditN : s.regenerate.ditN = s.ditN := rfl
@[simp] theorem State.regenerate_dahN : s.regenerate.dahN = s.dahN := rfl
@[simp] theorem State.regenerate_hVersion : s.regenerate.hVersion = s.hVersion := rfl
@[simp] theorem State.regenerate_buf : s.regenerate.buf = s.buf := rfl
@[simp] theorem State.regenerate_scanAt : s.regenerate.scanAt = s.scanAt := rfl
@[simp] theorem State.regenerate_replyAt : s.regenerate.replyAt = s.replyAt := rfl
@[simp] theorem State.regenerate_hWait : s.regenerate.hWait = s.hWait := rfl
@[simp] theorem State.regenerate_fwUpdate : s.regenerate.fwUpdate = s.fwUpdate := rfl
@[simp] theorem State.regenerate_audioIn : s.regenerate.audioIn = s.audioIn := rfl
@[simp] theorem State.regenerate_controlIn : s.regenerate.controlIn = s.controlIn := rfl
@[simp] theorem State.regenerate_serialIn : s.regenerate.serialIn = s.serialIn := rfl
@[simp] theorem State.regenerate_sched : s.regenerate.sched = s.sched := rfl
@[simp] theorem State.regenerate_sink : s.regenerate.sink = s.sink := rfl
@[simp] theorem State.regenerate_replies : s.regenerate.replies = s.replies := rfl
@[simp] theorem State.regenerate_ignored : s.regenerate.ignored = s.ignored := rfl

end

/-! The last phases of a TICK (40_keying.md R141) -/

section
variable (out : List Sample)

@[simp] theorem State.finishTick_par : (s.finishTick out).par = s.par := rfl
@[simp] theorem State.finishTick_FREQ : (s.finishTick out).FREQ = s.FREQ := rfl
@[simp] theorem State.finishTick_WPM : (s.finishTick out).WPM = s.WPM := rfl
@[simp] theorem State.finishTick_VOL : (s.finishTick out).VOL = s.VOL := rfl
@[simp] theorem State.finishTick_RISE : (s.finishTick out).RISE = s.RISE := rfl
@[simp] theorem State.finishTick_P : (s.finishTick out).P = s.P := rfl
@[simp] theorem State.finishTick_T : (s.finishTick out).T = s.T := rfl
@[simp] theorem State.finishTick_D : (s.finishTick out).D = s.D := rfl
@[simp] theorem State.finishTick_R : (s.finishTick out).R = s.R := rfl
@[simp] theorem State.finishTick_E : (s.finishTick out).E = s.E := rfl
@[simp] theorem State.finishTick_K : (s.finishTick out).K = s.K := rfl
@[simp] theorem State.finishTick_p :
    (s.finishTick out).p = if s.K = .idle then s.p else s.p + s.par.B := rfl
@[simp] theorem State.finishTick_e : (s.finishTick out).e = s.e := rfl
@[simp] theorem State.finishTick_L : (s.finishTick out).L = s.L := rfl
@[simp] theorem State.finishTick_IND : (s.finishTick out).IND = s.IND := rfl
@[simp] theorem State.finishTick_Q : (s.finishTick out).Q = s.Q := rfl
@[simp] theorem State.finishTick_OUT : (s.finishTick out).OUT = out := rfl
@[simp] theorem State.finishTick_APH : (s.finishTick out).APH = .awaitRead := rfl
@[simp] theorem State.finishTick_PEND : (s.finishTick out).PEND = s.PEND := rfl
@[simp] theorem State.finishTick_FAULTS : (s.finishTick out).FAULTS = s.FAULTS := rfl
@[simp] theorem State.finishTick_ditN : (s.finishTick out).ditN = s.ditN := rfl
@[simp] theorem State.finishTick_dahN : (s.finishTick out).dahN = s.dahN := rfl
@[simp] theorem State.finishTick_hVersion : (s.finishTick out).hVersion = s.hVersion := rfl
@[simp] theorem State.finishTick_buf : (s.finishTick out).buf = s.buf := rfl
@[simp] theorem State.finishTick_scanAt : (s.finishTick out).scanAt = s.scanAt := rfl
@[simp] theorem State.finishTick_replyAt : (s.finishTick out).replyAt = s.replyAt := rfl
@[simp] theorem State.finishTick_hWait : (s.finishTick out).hWait = s.hWait := rfl
@[simp] theorem State.finishTick_fwUpdate : (s.finishTick out).fwUpdate = s.fwUpdate := rfl
@[simp] theorem State.finishTick_audioIn : (s.finishTick out).audioIn = s.audioIn := rfl
@[simp] theorem State.finishTick_controlIn : (s.finishTick out).controlIn = s.controlIn := rfl
@[simp] theorem State.finishTick_serialIn : (s.finishTick out).serialIn = s.serialIn := rfl
@[simp] theorem State.finishTick_sched : (s.finishTick out).sched = s.sched := rfl
@[simp] theorem State.finishTick_sink : (s.finishTick out).sink = s.sink := rfl
@[simp] theorem State.finishTick_replies : (s.finishTick out).replies = s.replies := rfl
@[simp] theorem State.finishTick_ignored : (s.finishTick out).ignored = s.ignored := rfl

end

/-! The fault records (60_exceptions.md R343) -/

section
variable (f : FaultMarks)

@[simp] theorem State.setFaults_par : (s.setFaults f).par = s.par := rfl
@[simp] theorem State.setFaults_FREQ : (s.setFaults f).FREQ = s.FREQ := rfl
@[simp] theorem State.setFaults_WPM : (s.setFaults f).WPM = s.WPM := rfl
@[simp] theorem State.setFaults_VOL : (s.setFaults f).VOL = s.VOL := rfl
@[simp] theorem State.setFaults_RISE : (s.setFaults f).RISE = s.RISE := rfl
@[simp] theorem State.setFaults_P : (s.setFaults f).P = s.P := rfl
@[simp] theorem State.setFaults_T : (s.setFaults f).T = s.T := rfl
@[simp] theorem State.setFaults_D : (s.setFaults f).D = s.D := rfl
@[simp] theorem State.setFaults_R : (s.setFaults f).R = s.R := rfl
@[simp] theorem State.setFaults_E : (s.setFaults f).E = s.E := rfl
@[simp] theorem State.setFaults_K : (s.setFaults f).K = s.K := rfl
@[simp] theorem State.setFaults_p : (s.setFaults f).p = s.p := rfl
@[simp] theorem State.setFaults_e : (s.setFaults f).e = s.e := rfl
@[simp] theorem State.setFaults_L : (s.setFaults f).L = s.L := rfl
@[simp] theorem State.setFaults_IND : (s.setFaults f).IND = s.IND := rfl
@[simp] theorem State.setFaults_Q : (s.setFaults f).Q = s.Q := rfl
@[simp] theorem State.setFaults_OUT : (s.setFaults f).OUT = s.OUT := rfl
@[simp] theorem State.setFaults_APH : (s.setFaults f).APH = s.APH := rfl
@[simp] theorem State.setFaults_PEND : (s.setFaults f).PEND = s.PEND := rfl
@[simp] theorem State.setFaults_FAULTS : (s.setFaults f).FAULTS = f := rfl
@[simp] theorem State.setFaults_ditN : (s.setFaults f).ditN = s.ditN := rfl
@[simp] theorem State.setFaults_dahN : (s.setFaults f).dahN = s.dahN := rfl
@[simp] theorem State.setFaults_hVersion : (s.setFaults f).hVersion = s.hVersion := rfl
@[simp] theorem State.setFaults_buf : (s.setFaults f).buf = s.buf := rfl
@[simp] theorem State.setFaults_scanAt : (s.setFaults f).scanAt = s.scanAt := rfl
@[simp] theorem State.setFaults_replyAt : (s.setFaults f).replyAt = s.replyAt := rfl
@[simp] theorem State.setFaults_hWait : (s.setFaults f).hWait = s.hWait := rfl
@[simp] theorem State.setFaults_fwUpdate : (s.setFaults f).fwUpdate = s.fwUpdate := rfl
@[simp] theorem State.setFaults_audioIn : (s.setFaults f).audioIn = s.audioIn := rfl
@[simp] theorem State.setFaults_controlIn : (s.setFaults f).controlIn = s.controlIn := rfl
@[simp] theorem State.setFaults_serialIn : (s.setFaults f).serialIn = s.serialIn := rfl
@[simp] theorem State.setFaults_sched : (s.setFaults f).sched = s.sched := rfl
@[simp] theorem State.setFaults_sink : (s.setFaults f).sink = s.sink := rfl
@[simp] theorem State.setFaults_replies : (s.setFaults f).replies = s.replies := rfl
@[simp] theorem State.setFaults_ignored : (s.setFaults f).ignored = s.ignored := rfl

end

/-! The parse cursor (45_host_protocol.md R281) -/

section
variable (n : Nat)

@[simp] theorem State.consume_par : (s.consume n).par = s.par := rfl
@[simp] theorem State.consume_FREQ : (s.consume n).FREQ = s.FREQ := rfl
@[simp] theorem State.consume_WPM : (s.consume n).WPM = s.WPM := rfl
@[simp] theorem State.consume_VOL : (s.consume n).VOL = s.VOL := rfl
@[simp] theorem State.consume_RISE : (s.consume n).RISE = s.RISE := rfl
@[simp] theorem State.consume_P : (s.consume n).P = s.P := rfl
@[simp] theorem State.consume_T : (s.consume n).T = s.T := rfl
@[simp] theorem State.consume_D : (s.consume n).D = s.D := rfl
@[simp] theorem State.consume_R : (s.consume n).R = s.R := rfl
@[simp] theorem State.consume_E : (s.consume n).E = s.E := rfl
@[simp] theorem State.consume_K : (s.consume n).K = s.K := rfl
@[simp] theorem State.consume_p : (s.consume n).p = s.p := rfl
@[simp] theorem State.consume_e : (s.consume n).e = s.e := rfl
@[simp] theorem State.consume_L : (s.consume n).L = s.L := rfl
@[simp] theorem State.consume_IND : (s.consume n).IND = s.IND := rfl
@[simp] theorem State.consume_Q : (s.consume n).Q = s.Q := rfl
@[simp] theorem State.consume_OUT : (s.consume n).OUT = s.OUT := rfl
@[simp] theorem State.consume_APH : (s.consume n).APH = s.APH := rfl
@[simp] theorem State.consume_PEND : (s.consume n).PEND = s.PEND := rfl
@[simp] theorem State.consume_FAULTS : (s.consume n).FAULTS = s.FAULTS := rfl
@[simp] theorem State.consume_ditN : (s.consume n).ditN = s.ditN := rfl
@[simp] theorem State.consume_dahN : (s.consume n).dahN = s.dahN := rfl
@[simp] theorem State.consume_hVersion : (s.consume n).hVersion = s.hVersion := rfl
@[simp] theorem State.consume_buf : (s.consume n).buf = s.buf := rfl
@[simp] theorem State.consume_scanAt : (s.consume n).scanAt = s.scanAt + n := rfl
@[simp] theorem State.consume_replyAt : (s.consume n).replyAt = s.replyAt := rfl
@[simp] theorem State.consume_hWait : (s.consume n).hWait = s.hWait := rfl
@[simp] theorem State.consume_fwUpdate : (s.consume n).fwUpdate = s.fwUpdate := rfl
@[simp] theorem State.consume_audioIn : (s.consume n).audioIn = s.audioIn := rfl
@[simp] theorem State.consume_controlIn : (s.consume n).controlIn = s.controlIn := rfl
@[simp] theorem State.consume_serialIn : (s.consume n).serialIn = s.serialIn := rfl
@[simp] theorem State.consume_sched : (s.consume n).sched = s.sched := rfl
@[simp] theorem State.consume_sink : (s.consume n).sink = s.sink := rfl
@[simp] theorem State.consume_replies : (s.consume n).replies = s.replies := rfl
@[simp] theorem State.consume_ignored : (s.consume n).ignored = s.ignored := rfl

end

/-! A reply byte (45_host_protocol.md R308) -/

section
variable (b : Byte)

@[simp] theorem State.reply_par : (s.reply b).par = s.par := rfl
@[simp] theorem State.reply_FREQ : (s.reply b).FREQ = s.FREQ := rfl
@[simp] theorem State.reply_WPM : (s.reply b).WPM = s.WPM := rfl
@[simp] theorem State.reply_VOL : (s.reply b).VOL = s.VOL := rfl
@[simp] theorem State.reply_RISE : (s.reply b).RISE = s.RISE := rfl
@[simp] theorem State.reply_P : (s.reply b).P = s.P := rfl
@[simp] theorem State.reply_T : (s.reply b).T = s.T := rfl
@[simp] theorem State.reply_D : (s.reply b).D = s.D := rfl
@[simp] theorem State.reply_R : (s.reply b).R = s.R := rfl
@[simp] theorem State.reply_E : (s.reply b).E = s.E := rfl
@[simp] theorem State.reply_K : (s.reply b).K = s.K := rfl
@[simp] theorem State.reply_p : (s.reply b).p = s.p := rfl
@[simp] theorem State.reply_e : (s.reply b).e = s.e := rfl
@[simp] theorem State.reply_L : (s.reply b).L = s.L := rfl
@[simp] theorem State.reply_IND : (s.reply b).IND = s.IND := rfl
@[simp] theorem State.reply_Q : (s.reply b).Q = s.Q := rfl
@[simp] theorem State.reply_OUT : (s.reply b).OUT = s.OUT := rfl
@[simp] theorem State.reply_APH : (s.reply b).APH = s.APH := rfl
@[simp] theorem State.reply_PEND : (s.reply b).PEND = s.PEND := rfl
@[simp] theorem State.reply_FAULTS : (s.reply b).FAULTS = s.FAULTS := rfl
@[simp] theorem State.reply_ditN : (s.reply b).ditN = s.ditN := rfl
@[simp] theorem State.reply_dahN : (s.reply b).dahN = s.dahN := rfl
@[simp] theorem State.reply_hVersion : (s.reply b).hVersion = s.hVersion := rfl
@[simp] theorem State.reply_buf : (s.reply b).buf = s.buf.set s.replyAt b := rfl
@[simp] theorem State.reply_scanAt : (s.reply b).scanAt = s.scanAt := rfl
@[simp] theorem State.reply_replyAt : (s.reply b).replyAt = s.replyAt + 1 := rfl
@[simp] theorem State.reply_hWait : (s.reply b).hWait = s.hWait := rfl
@[simp] theorem State.reply_fwUpdate : (s.reply b).fwUpdate = s.fwUpdate := rfl
@[simp] theorem State.reply_audioIn : (s.reply b).audioIn = s.audioIn := rfl
@[simp] theorem State.reply_controlIn : (s.reply b).controlIn = s.controlIn := rfl
@[simp] theorem State.reply_serialIn : (s.reply b).serialIn = s.serialIn := rfl
@[simp] theorem State.reply_sched : (s.reply b).sched = s.sched := rfl
@[simp] theorem State.reply_sink : (s.reply b).sink = s.sink := rfl
@[simp] theorem State.reply_replies : (s.reply b).replies = s.replies := rfl
@[simp] theorem State.reply_ignored : (s.reply b).ignored = s.ignored := rfl

end

/-! The end of a decoder call (45_host_protocol.md R281) -/

section

@[simp] theorem State.endChunk_par : s.endChunk.par = s.par := rfl
@[simp] theorem State.endChunk_FREQ : s.endChunk.FREQ = s.FREQ := rfl
@[simp] theorem State.endChunk_WPM : s.endChunk.WPM = s.WPM := rfl
@[simp] theorem State.endChunk_VOL : s.endChunk.VOL = s.VOL := rfl
@[simp] theorem State.endChunk_RISE : s.endChunk.RISE = s.RISE := rfl
@[simp] theorem State.endChunk_P : s.endChunk.P = s.P := rfl
@[simp] theorem State.endChunk_T : s.endChunk.T = s.T := rfl
@[simp] theorem State.endChunk_D : s.endChunk.D = s.D := rfl
@[simp] theorem State.endChunk_R : s.endChunk.R = s.R := rfl
@[simp] theorem State.endChunk_E : s.endChunk.E = s.E := rfl
@[simp] theorem State.endChunk_K : s.endChunk.K = s.K := rfl
@[simp] theorem State.endChunk_p : s.endChunk.p = s.p := rfl
@[simp] theorem State.endChunk_e : s.endChunk.e = s.e := rfl
@[simp] theorem State.endChunk_L : s.endChunk.L = s.L := rfl
@[simp] theorem State.endChunk_IND : s.endChunk.IND = s.IND := rfl
@[simp] theorem State.endChunk_Q : s.endChunk.Q = s.Q := rfl
@[simp] theorem State.endChunk_OUT : s.endChunk.OUT = s.OUT := rfl
@[simp] theorem State.endChunk_APH : s.endChunk.APH = s.APH := rfl
@[simp] theorem State.endChunk_PEND : s.endChunk.PEND = s.PEND := rfl
@[simp] theorem State.endChunk_FAULTS : s.endChunk.FAULTS = s.FAULTS := rfl
@[simp] theorem State.endChunk_ditN : s.endChunk.ditN = s.ditN := rfl
@[simp] theorem State.endChunk_dahN : s.endChunk.dahN = s.dahN := rfl
@[simp] theorem State.endChunk_hVersion : s.endChunk.hVersion = s.hVersion := rfl
@[simp] theorem State.endChunk_buf : s.endChunk.buf = [] := rfl
@[simp] theorem State.endChunk_scanAt : s.endChunk.scanAt = 0 := rfl
@[simp] theorem State.endChunk_replyAt : s.endChunk.replyAt = 0 := rfl
@[simp] theorem State.endChunk_hWait : s.endChunk.hWait = s.hWait := rfl
@[simp] theorem State.endChunk_fwUpdate : s.endChunk.fwUpdate = s.fwUpdate := rfl
@[simp] theorem State.endChunk_audioIn : s.endChunk.audioIn = s.audioIn := rfl
@[simp] theorem State.endChunk_controlIn : s.endChunk.controlIn = s.controlIn := rfl
@[simp] theorem State.endChunk_serialIn : s.endChunk.serialIn = s.serialIn := rfl
@[simp] theorem State.endChunk_sched : s.endChunk.sched = s.sched := rfl
@[simp] theorem State.endChunk_sink : s.endChunk.sink = s.sink := rfl
@[simp] theorem State.endChunk_replies :
    s.endChunk.replies = s.replies ++ [s.buf.take s.replyAt] := rfl
@[simp] theorem State.endChunk_ignored : s.endChunk.ignored = s.ignored := rfl

end

end Sys2Proof.Machine
end

