-- ==== Sys2Proof/Laws/Ops.lean ====
section
/-! SUPPORT. One lemma per shared operation that says everything it can do, so that no later proof
unfolds it. -/

namespace Sys2Proof.Machine

/-! ## The queue -/

/-- A push step moves one symbol when there is room, and otherwise changes nothing (R221). -/
theorem pushStep_cases (s : State) :
    (s.PEND = [] ∧ s.pushStep = s) ∨
    (∃ x rest, s.PEND = x :: rest ∧ s.Q.length < s.par.QCAP ∧
      s.pushStep = { s with Q := s.Q ++ [x], PEND := rest, hWait := s.hWait && !rest.isEmpty }) ∨
    (s.PEND ≠ [] ∧ s.par.QCAP ≤ s.Q.length ∧ s.pushStep = s) := by
  unfold State.pushStep
  split
  · exact .inl ⟨by assumption, rfl⟩
  · rename_i x rest h
    split
    · exact .inr (.inl ⟨x, rest, h, by assumption, rfl⟩)
    · exact .inr (.inr ⟨by simp [h], by omega, rfl⟩)

/-- A push step writes the queue, the in-flight list and the decoder's wait only. -/
theorem pushStep_frame (s : State) :
    s.pushStep = { s with Q := s.pushStep.Q, PEND := s.pushStep.PEND, hWait := s.pushStep.hWait } := by
  rcases pushStep_cases s with ⟨_, h⟩ | ⟨x, rest, _, _, h⟩ | ⟨_, _, h⟩ <;> rw [h]

/-- Accepting an enqueue: its first symbol is pushed if there is room. -/
theorem startEnqueue_cases (s : State) (syms : List Symbol) :
    (syms = [] ∧ s.startEnqueue syms = { s with PEND := [] }) ∨
    (∃ x rest, syms = x :: rest ∧ s.Q.length < s.par.QCAP ∧
      s.startEnqueue syms =
        { s with Q := s.Q ++ [x], PEND := rest, hWait := s.hWait && !rest.isEmpty }) ∨
    (syms ≠ [] ∧ s.par.QCAP ≤ s.Q.length ∧ s.startEnqueue syms = { s with PEND := syms }) := by
  rcases pushStep_cases { s with PEND := syms } with ⟨h, e⟩ | ⟨x, rest, h, hl, e⟩ | ⟨h, hl, e⟩
  · exact .inl ⟨h, by rw [State.startEnqueue, e]; simp only at h; rw [h]⟩
  · exact .inr (.inl ⟨x, rest, h, hl, e⟩)
  · exact .inr (.inr ⟨h, hl, e⟩)

/-- Accepting an enqueue writes the queue, the in-flight list and the decoder's wait only. -/
theorem startEnqueue_frame (s : State) (syms : List Symbol) :
    s.startEnqueue syms = { s with Q := (s.startEnqueue syms).Q, PEND := (s.startEnqueue syms).PEND,
                                   hWait := (s.startEnqueue syms).hWait } := by
  rcases startEnqueue_cases s syms with ⟨_, h⟩ | ⟨x, rest, _, _, h⟩ | ⟨_, _, h⟩ <;> rw [h]

/-- ENQT writes the queue, the in-flight list and the decoder's wait only. -/
theorem enqueueText_frame (s : State) (n : BitVec 4) (codes : BitVec 20) :
    s.enqueueText n codes = { s with Q := (s.enqueueText n codes).Q,
                                     PEND := (s.enqueueText n codes).PEND,
                                     hWait := (s.enqueueText n codes).hWait } := by
  unfold State.enqueueText
  split
  · rfl
  · exact startEnqueue_frame s _

/-- The decoder's text writes the queue, the in-flight list and its own wait only (R283). -/
theorem sendText_frame (s : State) (c : Byte) :
    s.sendText c = { s with Q := (s.sendText c).Q, PEND := (s.sendText c).PEND,
                            hWait := (s.sendText c).hWait } := by
  unfold State.sendText
  split
  · rfl
  · rename_i h
    dsimp only
    rw [enqueueText_frame s (stringCount (morseOf s.par c)) (stringCodes (morseOf s.par c))]

/-! ## The setters -/

/-- A regeneration writes the derived registers and tables only (R253). -/
theorem regenerate_frame (s : State) :
    s.regenerate = { s with P := s.regenerate.P, T := s.regenerate.T, D := s.regenerate.D,
                            R := s.regenerate.R, E := s.regenerate.E } := rfl

/-- SETV: another channel, a mute or zero, or a new volume (R266). -/
theorem setVolume_cases (s : State) (ch : BitVec 8) (mute : Bool) (vol : BitVec 8) :
    (ch ≠ 0 ∧ s.setVolume ch mute vol = s) ∨
    (ch = 0 ∧ (mute = true ∨ vol = 0) ∧ s.setVolume ch mute vol = { s with VOL := 0 }) ∨
    (ch = 0 ∧ mute = false ∧ vol ≠ 0 ∧
      s.setVolume ch mute vol = State.regenerate { s with VOL := min vol.toNat 100 }) := by
  unfold State.setVolume
  split
  · exact .inl ⟨by assumption, rfl⟩
  · rename_i h
    have h0 : ch = 0 := not_not.mp h
    split
    · exact .inr (.inl ⟨h0, by assumption, rfl⟩)
    · rename_i hm
      rw [not_or] at hm
      exact .inr (.inr ⟨h0, by simpa using hm.1, hm.2, rfl⟩)

/-! ## The keyer -/

/-- What `IdleResolve` picks (R153): the state entered, its indicator, and the queue it leaves. -/
def idleChoice (s : State) (dit dah : Bool) : Keyer × Indicator × List Symbol :=
  match s.L, dit, dah, s.Q with
  | .dit, _, _, q => (.dit, .manual, q)
  | .dah, _, _, q => (.dah, .manual, q)
  | .none, true, _, _ => (.dit, .manual, [])
  | .none, false, true, _ => (.dah, .manual, [])
  | .none, false, false, sym :: q => (poppedState sym, .queued, q)
  | .none, false, false, [] => (.idle, .off, [])

/-- `IdleResolve` always consumes the latch and enters its choice (R153, R154). -/
theorem idleResolve_eq (s : State) (dit dah : Bool) :
    s.idleResolve dit dah =
      State.enter { s with L := .none, Q := (idleChoice s dit dah).2.2 }
        (idleChoice s dit dah).1 (some (idleChoice s dit dah).2.1) := by
  unfold State.idleResolve idleChoice
  rcases hL : s.L with _ | _ | _
  · cases dit
    · cases dah
      · rcases hQ : s.Q with _ | ⟨x, q⟩
        · simp only [Bool.false_eq_true, if_false, ← hL, ← hQ]
        · simp only [Bool.false_eq_true, if_false, ← hL]
      · simp only [Bool.false_eq_true, if_false, if_true, ← hL]
    · simp only [if_true, ← hL]
  · rfl
  · rfl

/-- A state `IdleResolve` can choose. -/
theorem idleChoice_state (s : State) (dit dah : Bool) :
    ((idleChoice s dit dah).1 = .idle ∧ (idleChoice s dit dah).2.1 = .off) ∨
    (((idleChoice s dit dah).1 = .dit ∨ (idleChoice s dit dah).1 = .dah ∨
      (idleChoice s dit dah).1 = .ditPause) ∧ (idleChoice s dit dah).2.1 ≠ .off) := by
  have hp (x : Symbol) :
      poppedState x = .dit ∨ poppedState x = .dah ∨ poppedState x = .ditPause := by
    cases x <;> simp [poppedState]
  unfold idleChoice
  split <;> simp [hp]

/-- `IdleResolve` never lengthens the queue. -/
theorem idleChoice_queue (s : State) (dit dah : Bool) :
    (idleChoice s dit dah).2.2.length ≤ s.Q.length := by
  unfold idleChoice
  split <;> simp_all

/-- What the transition phase of a TICK can do outside the reserved state (R142 to R159): stay, set
the latch, or enter a state. -/
theorem transition_cases (s t : State) (dit dah : Bool) (h : s.transition dit dah = some t) :
    (t = s ∧ (s.K = .initPause ∨ s.K = .dit ∨ s.K = .dah) ∧ s.expired = false) ∨
    (s.K = .ditPause ∧ s.expired = false ∧ t = s.latch dah .dah) ∨
    (s.K = .dahPause ∧ s.expired = false ∧ t = s.latch dit .dit) ∨
    (s.K = .init ∧ t = s.enter .initPause (some .off)) ∨
    (s.K = .dit ∧ s.expired = true ∧ t = s.enter .ditPause none) ∨
    (s.K = .dah ∧ s.expired = true ∧ t = s.enter .dahPause none) ∨
    (s.K = .ditPause ∧ s.expired = true ∧ dah = true ∧
      t = State.enter { s with L := .none } .dah (some .manual)) ∨
    (s.K = .dahPause ∧ s.expired = true ∧ dit = true ∧
      t = State.enter { s with L := .none } .dit (some .manual)) ∨
    ((s.K = .idle ∨ (s.K = .initPause ∧ s.expired = true) ∨
        (s.K = .ditPause ∧ s.expired = true ∧ dah = false) ∨
        (s.K = .dahPause ∧ s.expired = true ∧ dit = false)) ∧ t = s.idleResolve dit dah) := by
  unfold State.transition at h
  cases hK : s.K with
  | reserved => simp [hK] at h
  | init => simp only [hK, Option.some.injEq] at h; simp [h]
  | idle => simp only [hK, Option.some.injEq] at h; simp [h]
  | initPause => cases he : s.expired <;> simp [hK, he] at h <;> simp [h]
  | dit => cases he : s.expired <;> simp [hK, he] at h <;> simp [h]
  | dah => cases he : s.expired <;> simp [hK, he] at h <;> simp [h]
  | ditPause =>
    cases he : s.expired <;> simp [hK, he, State.pauseExpiry] at h
    · simp [h]
    · cases dah <;> simp at h <;> simp [h]
  | dahPause =>
    cases he : s.expired <;> simp [hK, he, State.pauseExpiry] at h
    · simp [h]
    · cases dit <;> simp at h <;> simp [h]

/-- The transition phase is undefined only in the reserved state (R166). -/
theorem transition_isSome (s : State) (dit dah : Bool) (h : s.K ≠ .reserved) :
    ∃ t, s.transition dit dah = some t := by
  unfold State.transition
  cases hK : s.K <;> simp_all

/-- A TICK that is not stuck: the transition, then the render, then the advance (R141). -/
theorem tick_eq (s t : State) (out : List Sample)
    (h : s.checkTickPhase.transition (!s.ditN) (!s.dahN) = some t) (hr : t.render = some out) :
    s.tick = t.finishTick out := by
  have hd : s.checkTickPhase.ditN = s.ditN := by unfold State.checkTickPhase; split <;> rfl
  have ha : s.checkTickPhase.dahN = s.dahN := by unfold State.checkTickPhase; split <;> rfl
  unfold State.tick
  simp only [hd, ha, h, hr]

/-- What a TICK can do: get stuck in the reserved state or at a table index, or run through. -/
theorem tick_cases (s : State) :
    (s.K = .reserved ∧ s.tick = s.checkTickPhase.markReservedState) ∨
    (∃ t, s.checkTickPhase.transition (!s.ditN) (!s.dahN) = some t ∧ t.render = none ∧
      s.tick = t.markTableIndex) ∨
    (∃ t out, s.checkTickPhase.transition (!s.ditN) (!s.dahN) = some t ∧ t.render = some out ∧
      s.tick = t.finishTick out) := by
  have hd : s.checkTickPhase.ditN = s.ditN := by unfold State.checkTickPhase; split <;> rfl
  have ha : s.checkTickPhase.dahN = s.dahN := by unfold State.checkTickPhase; split <;> rfl
  have hk : s.checkTickPhase.K = s.K := by unfold State.checkTickPhase; split <;> rfl
  unfold State.tick
  simp only [hd, ha]
  rcases ht : s.checkTickPhase.transition (!s.ditN) (!s.dahN) with _ | t
  · refine .inl ⟨?_, rfl⟩
    by_contra hne
    obtain ⟨t, h⟩ := transition_isSome s.checkTickPhase (!s.ditN) (!s.dahN) (by rw [hk]; exact hne)
    rw [ht] at h
    cases h
  · rcases hr : t.render with _ | out
    · exact .inr (.inl ⟨t, rfl, hr, by simp only [hr]⟩)
    · exact .inr (.inr ⟨t, out, rfl, hr, by simp only [hr]⟩)

/-! ## The decoder's commands and the step -/

/-- Every meaning answers a next state. -/
theorem exec_next (i : Instr) (s : State) : ∃ t, exec i s = .next t := by
  cases i with
  | hostSidetone v =>
    simp only [exec, execHostSidetone]
    split <;> exact ⟨_, rfl⟩
  | _ => exact ⟨_, rfl⟩

/-- What a step can answer: a refusal of the parameters, a stuck model's fault, nothing to do, or one
agent's move. -/
theorem step_cases (s : State) :
    (¬ s.par.Ok ∧ step s = .refused .parameters) ∨
    (s.par.Ok ∧ s.FAULTS.reservedState = true ∧ step s = .fault .reservedState) ∨
    (s.par.Ok ∧ s.FAULTS.reservedState = false ∧ s.FAULTS.tableIndex = true ∧
      step s = .fault .tableIndex) ∨
    (s.par.Ok ∧ s.FAULTS.reservedState = false ∧ s.FAULTS.tableIndex = false ∧
      (s.fwUpdate = true ∨ s.sched = []) ∧ step s = .next s) ∨
    (∃ a rest, s.par.Ok ∧ s.FAULTS.reservedState = false ∧ s.FAULTS.tableIndex = false ∧
      s.fwUpdate = false ∧ s.sched = a :: rest ∧
      step s = State.agentTurn { s with sched := rest } a) := by
  unfold step State.turn
  by_cases hok : s.par.Ok
  · rw [if_neg (not_not.mpr hok)]
    right
    cases hr : s.FAULTS.reservedState
    · right
      cases ht : s.FAULTS.tableIndex
      · right
        cases hf : s.fwUpdate
        · rcases hs : s.sched with _ | ⟨a, rest⟩
          · exact .inl ⟨hok, rfl, rfl, .inr rfl, rfl⟩
          · exact .inr ⟨a, rest, hok, rfl, rfl, rfl, rfl, rfl⟩
        · exact .inl ⟨hok, rfl, rfl, .inl rfl, rfl⟩
      · exact .inl ⟨hok, rfl, rfl, rfl⟩
    · exact .inl ⟨hok, rfl, rfl⟩
  · exact .inl ⟨hok, if_pos hok⟩

/-- A run whose first step goes on. -/
theorem run_succ (M : Host.Core) (n : Nat) (s t : M.State) (h : M.step s = .next t) :
    M.run (n + 1) s = M.run n t := by
  simp [Host.Core.run, h]

/-- The control port takes a word only when no enqueue is in flight (20_memory.md R81). -/
theorem controlTurn_cases (s : State) :
    (s.controlTurn = .next s) ∨
    (∃ w rest, s.PEND = [] ∧ s.controlIn = w :: rest ∧ portOf w = .audio ∧
      s.controlTurn = .next (State.markWrongPort { s with controlIn := rest })) ∨
    (∃ w rest i, s.PEND = [] ∧ s.controlIn = w :: rest ∧ portOf w = .control ∧
      decodeWord w = .instr i ∧ s.controlTurn = exec i { s with controlIn := rest }) ∨
    (∃ w rest r, s.PEND = [] ∧ s.controlIn = w :: rest ∧ portOf w = .control ∧
      decodeWord w = .rejected r ∧
      s.controlTurn = .next { s with controlIn := rest, ignored := s.ignored ++ [w] }) := by
  rcases hP : s.PEND with _ | ⟨x, xs⟩
  · rcases hC : s.controlIn with _ | ⟨w, rest⟩
    · left; simp [State.controlTurn, hP, hC]
    · right
      rcases hport : portOf w
      · left; exact ⟨w, rest, rfl, rfl, hport, by simp [State.controlTurn, hP, hC, hport]⟩
      · right
        rcases hd : decodeWord w with i | r
        · left; exact ⟨w, rest, i, rfl, rfl, hport, hd, by simp [State.controlTurn, hP, hC, hport, hd]⟩
        · right; exact ⟨w, rest, r, rfl, rfl, hport, hd, by simp [State.controlTurn, hP, hC, hport, hd]⟩
  · left; simp [State.controlTurn, hP]

/-- What the audio port's move can be (10_state.md R43). -/
theorem audioTurn_cases (s : State) :
    (s.audioIn = [] ∧ s.audioTurn = .next s) ∨
    (∃ a rest, s.audioIn = a :: rest ∧ portOf a.word = .control ∧
      s.audioTurn =
        .next (State.markWrongPort { s with audioIn := rest, ditN := a.ditN, dahN := a.dahN })) ∨
    (∃ a rest i, s.audioIn = a :: rest ∧ portOf a.word = .audio ∧ decodeWord a.word = .instr i ∧
      s.audioTurn = exec i { s with audioIn := rest, ditN := a.ditN, dahN := a.dahN }) ∨
    (∃ a rest r, s.audioIn = a :: rest ∧ portOf a.word = .audio ∧
      decodeWord a.word = .rejected r ∧
      s.audioTurn = .next { s with audioIn := rest, ditN := a.ditN, dahN := a.dahN,
                                   ignored := s.ignored ++ [a.word] }) := by
  rcases hA : s.audioIn with _ | ⟨a, rest⟩
  · left; simp [State.audioTurn, hA]
  · right
    rcases hport : portOf a.word
    · right
      rcases hd : decodeWord a.word with i | r
      · left; exact ⟨a, rest, i, rfl, hport, hd, by simp [State.audioTurn, hA, hport, hd]⟩
      · right; exact ⟨a, rest, r, rfl, hport, hd, by simp [State.audioTurn, hA, hport, hd]⟩
    · left; exact ⟨a, rest, rfl, hport, by simp [State.audioTurn, hA, hport]⟩

/-- What the decoder's move can be (45_host_protocol.md R281, R310, R312). -/
theorem hostTurn_cases (s : State) :
    (s.hostTurn = .next s) ∨
    (s.hWait = false ∧ s.buf = [] ∧ s.hostTurn = .next s.nextChunk) ∨
    (∃ r, s.hWait = false ∧ s.buf ≠ [] ∧ decodeHost (s.buf.drop s.scanAt) = .rejected r ∧
      s.hostTurn = .next s.endChunk) ∨
    (∃ i, s.hWait = false ∧ s.buf ≠ [] ∧ decodeHost (s.buf.drop s.scanAt) = .instr i ∧
      (s.issuesControl i = true → s.PEND = []) ∧ s.hostTurn = exec i s) := by
  unfold State.hostTurn
  cases hw : s.hWait
  · rcases hb : s.buf with _ | ⟨b, bs⟩
    · exact .inr (.inl ⟨rfl, rfl, rfl⟩)
    · rcases hd : decodeHost ((b :: bs).drop s.scanAt) with i | r
      · by_cases hc : s.issuesControl i = true ∧ s.PEND ≠ []
        · left
          simp only [Bool.false_eq_true, if_false]
          rw [if_pos hc]
        · refine .inr (.inr (.inr ⟨i, rfl, by simp, rfl, ?_, ?_⟩))
          · intro h
            by_contra h'
            exact hc ⟨h, h'⟩
          · simp only [Bool.false_eq_true, if_false]
            rw [if_neg hc]
      · refine .inr (.inr (.inl ⟨r, rfl, by simp, rfl, ?_⟩))
        simp only [Bool.false_eq_true, if_false]
  · exact .inl rfl

end Sys2Proof.Machine
end

