-- ==== Sys2Proof/Laws/Tables.lean ====
section
/-! SUPPORT. The arithmetic of the derived registers and the range of the tables' entries
(43_config.md R255, R256; 41_synthesizer.md R180 to R185). -/

namespace Sys2Proof.Machine

/-! ## Ceiling division -/

theorem ceilDiv_mul_ge (a b : Nat) (hb : 1 ≤ b) : a ≤ ceilDiv a b * b := by
  unfold ceilDiv
  have h := Nat.div_add_mod (a + b - 1) b
  have hlt := Nat.mod_lt (a + b - 1) (by omega : b > 0)
  rw [Nat.mul_comm] at h
  omega

theorem ceilDiv_mul_lt (a b : Nat) (hb : 1 ≤ b) : ceilDiv a b * b < a + b := by
  unfold ceilDiv
  have h := Nat.div_mul_le_self (a + b - 1) b
  omega

theorem ceilDiv_pos (a b : Nat) (ha : 1 ≤ a) (hb : 1 ≤ b) : 1 ≤ ceilDiv a b := by
  unfold ceilDiv
  exact (Nat.le_div_iff_mul_le hb).mpr (by omega)

theorem ceilDiv_anti (a b b' : Nat) (hb : 1 ≤ b) (h : b ≤ b') : ceilDiv a b' ≤ ceilDiv a b := by
  have h1 := ceilDiv_mul_lt a b' (by omega)
  have h2 := ceilDiv_mul_ge a b hb
  by_contra hlt
  have hle : ceilDiv a b + 1 ≤ ceilDiv a b' := by omega
  have := Nat.mul_le_mul hle (le_refl b')
  have := Nat.mul_le_mul (le_refl (ceilDiv a b)) h
  rw [Nat.add_mul] at *
  omega

/-! ## The derived lengths -/

/-- The tone period is positive (R180). -/
theorem tonePeriod_pos (c : Params) (freq : Nat) (hc : c.Ok) (hf : c.F_MIN ≤ freq) :
    1 ≤ tonePeriod c freq :=
  ceilDiv_pos _ _ (by have := hc.1.1; omega) (by have := hc.2.2.2.1.1; omega)

/-- The tone period is at most `P_MAX` (R180). -/
theorem tonePeriod_le_pMax (c : Params) (freq : Nat) (hc : c.Ok) (hf : c.F_MIN ≤ freq) :
    tonePeriod c freq ≤ c.pMax :=
  ceilDiv_anti _ _ _ hc.2.2.2.1.1 hf

/-- The dit length is a multiple of the tone period (R255; I3). -/
theorem dvd_ditLength (c : Params) (wpm P : Nat) : P ∣ ditLength c wpm P := by
  unfold ditLength
  split <;> exact Nat.dvd_mul_left P _

/-- The dit length is positive (R255). -/
theorem ditLength_pos (c : Params) (wpm P : Nat) (hc : c.Ok) (hw : 1 ≤ wpm) (hP : 1 ≤ P) :
    1 ≤ ditLength c wpm P := by
  have hm : 1 ≤ 5 * wpm * P := Nat.mul_pos (by omega) hP
  unfold ditLength
  split
  · exact Nat.mul_pos (ceilDiv_pos _ _ (by have := hc.1.1; omega) hm) hP
  · exact Nat.mul_pos (by omega) hP

/-- The dit length is at most `D_MAX` (00_scope.md R13). -/
theorem ditLength_le_dMax (c : Params) (wpm P : Nat) (hw : 10 ≤ wpm) (hP : 1 ≤ P)
    (hPM : P ≤ c.pMax) : ditLength c wpm P ≤ c.dMax := by
  have hle : c.pMax ≤ c.dMax := Nat.le_add_left _ _
  unfold ditLength
  split
  · have hm : 1 ≤ 5 * wpm * P := Nat.mul_pos (by omega) hP
    have h := ceilDiv_mul_lt (6 * c.SR) (5 * wpm * P) hm
    generalize hk : ceilDiv (6 * c.SR) (5 * wpm * P) = k at h ⊢
    rcases k with _ | k
    · omega
    · have h1 : k * (5 * wpm * P) < 6 * c.SR := by
        rw [Nat.add_mul] at h; omega
      have h2 : k * P * 50 ≤ k * (5 * wpm * P) := by
        calc k * P * 50 ≤ k * P * (5 * wpm) := Nat.mul_le_mul_left _ (by omega)
          _ = k * (5 * wpm * P) := by ring
      have h3 : k * P ≤ 12 * c.SR / 100 := by
        rw [Nat.le_div_iff_mul_le (by omega)]; omega
      have h4 : (k + 1) * P = k * P + P := by ring
      unfold Params.dMax
      omega
  · have hd : 1 ≤ c.dMax / P := (Nat.le_div_iff_mul_le hP).mpr (by omega)
    refine Nat.le_trans (Nat.mul_le_mul_right P ?_) (Nat.div_mul_le_self c.dMax P)
    omega

/-- The rise samples are positive (R256). -/
theorem riseSamples_pos (c : Params) (rise : Nat) (hc : c.Ok) (hr : 1 ≤ rise) :
    1 ≤ riseSamples c rise := by
  unfold riseSamples
  rw [Nat.le_div_iff_mul_le (by omega)]
  have := hc.1.1
  calc 1 * 1000 ≤ 1 * c.SR := by omega
    _ ≤ rise * c.SR := Nat.mul_le_mul_right _ hr

/-- The rise samples are at most `R_MAX` (R13). -/
theorem riseSamples_le_rMax (c : Params) (rise : Nat) (hr : rise ≤ 50) :
    riseSamples c rise ≤ c.rMax :=
  Nat.div_le_div_right (Nat.mul_le_mul_right _ hr)

/-! ## The tables -/

theorem toneTable_length (c : Params) (freq P vol : Nat) : (toneTable c freq P vol).length = P := by
  simp [toneTable]

theorem envTable_length (c : Params) (R : Nat) : (envTable c R).length = R + 1 := by
  simp [envTable]

/-- No tone entry is -32768 (R182). -/
theorem genTone_ne_min (c : Params) (freq P vol i : Nat) : genTone c freq P vol i ≠ 0x8000#16 := by
  unfold genTone
  dsimp only
  split
  · decide
  · generalize (match c.NUMERICS with
      | .reference => referenceTone c freq P vol i
      | .build => Config.buildTone (buildFreq c freq) P vol i) = raw
    intro h
    have h' := congrArg BitVec.toInt h
    rw [BitVec.toInt_ofInt, show (0x8000#16 : BitVec 16).toInt = -32768 by decide,
      Int.bmod_eq_of_le (by omega) (by omega)] at h'
    omega

theorem toneTable_ne_min (c : Params) (freq P vol : Nat) :
    ∀ x ∈ toneTable c freq P vol, x ≠ 0x8000#16 := by
  intro x hx
  obtain ⟨i, _, rfl⟩ := List.mem_map.mp hx
  exact genTone_ne_min c freq P vol i

/-- A regeneration of a legal configuration gives derived tables (R33, R250). -/
theorem tablesDerived_regenerate (s : State) : TablesDerived s.regenerate :=
  ⟨rfl, rfl, rfl, rfl, toneTable_length _ _ _ _, fun _ => rfl, toneTable_ne_min _ _ _ _⟩

end Sys2Proof.Machine
end

