-- ==== Sys2Proof/Laws/Render.lean ====
section
/-! SUPPORT. The render step (41_synthesizer.md R190): it always completes on derived tables, gives
`B` samples, and is silent outside a sounding symbol. -/

namespace Sys2Proof.Machine

/-- The render of `n` positions whose samples are known. -/
theorem renderFrom_eq (s : State) (f : Nat → Sample) (n q : Nat)
    (h : ∀ j, j < n → s.sampleAt (q + j) = some (f (q + j))) :
    s.renderFrom n q = some ((List.range n).map fun j => f (q + j)) := by
  induction n generalizing q with
  | zero => rfl
  | succ n ih =>
    have h0 := h 0 (by omega)
    have hr := ih (q + 1) fun j hj => by
      have := h (j + 1) (by omega)
      rwa [show q + (j + 1) = q + 1 + j by omega] at this
    simp only [Nat.add_zero] at h0
    simp only [State.renderFrom, h0, hr, List.range_succ_eq_map, List.map_cons, List.map_map,
      Nat.add_zero]
    congr 2
    apply List.map_congr_left
    intro j _
    simp only [Function.comp_apply, Nat.succ_eq_add_one]
    congr 1
    omega

/-- A render that completes gives one sample per position. -/
theorem renderFrom_length (s : State) (n q : Nat) (out : List Sample)
    (h : s.renderFrom n q = some out) : out.length = n := by
  induction n generalizing q out with
  | zero => simp [State.renderFrom] at h; simp [← h]
  | succ n ih =>
    simp only [State.renderFrom] at h
    split at h
    · rename_i x xs _ hxs
      cases h
      simp [ih _ _ hxs]
    · cases h

/-- The buffer a render gives has `B` samples (R190). -/
theorem render_length (s : State) (out : List Sample) (h : s.render = some out) :
    out.length = s.par.B := renderFrom_length s _ _ _ h

/-- Where nothing sounds, the buffer is zeros (R193). -/
theorem render_silent (s : State) (h : ∀ q, s.sounds q = false) :
    s.render = some (List.replicate s.par.B 0) := by
  have hs : ∀ q, s.sampleAt q = some 0 := fun q => by simp [State.sampleAt, h q]
  rw [State.render, renderFrom_eq s (fun _ => 0) _ _ fun j _ => hs _]
  simp [List.map_const']

/-- Nothing sounds outside Dit and Dah (R193). -/
theorem sounds_false_of_state (s : State) (h1 : s.K ≠ .dit) (h2 : s.K ≠ .dah) (q : Nat) :
    s.sounds q = false := by simp [State.sounds, h1, h2]

/-- Nothing sounds at volume 0 (R193). -/
theorem sounds_false_of_volume (s : State) (h : s.VOL = 0) (q : Nat) : s.sounds q = false := by
  simp [State.sounds, h]

/-- On derived tables every index is in range (20_memory.md R74). -/
theorem sampleAt_isSome (s : State) (hP : 1 ≤ s.P) (hT : s.T.length = s.P)
    (hE : s.E.length = s.R + 1) (q : Nat) : ∃ x, s.sampleAt q = some x := by
  unfold State.sampleAt State.toneAt
  split
  · rw [if_neg (by omega), List.getElem?_eq_getElem (by rw [hT]; exact Nat.mod_lt _ (by omega))]
    unfold State.envIndex
    split
    · rename_i hq
      cases hq
    · rename_i x hx
      split
      · exact ⟨_, rfl⟩
      · rename_i k hk
        have hk' : k < s.E.length := by
          split at hk
          · cases hk; omega
          · split at hk
            · cases hk; omega
            · cases hk
        rw [List.getElem?_eq_getElem hk']
        exact ⟨_, rfl⟩
  · exact ⟨_, rfl⟩

/-- On derived tables the render completes (20_memory.md R74). -/
theorem render_isSome (s : State) (hP : 1 ≤ s.P) (hT : s.T.length = s.P)
    (hE : s.E.length = s.R + 1) : ∃ out, s.render = some out := by
  choose f hf using sampleAt_isSome s hP hT hE
  exact ⟨_, renderFrom_eq s f _ _ fun j _ => hf _⟩

end Sys2Proof.Machine
end

