-- ==== Sys2Proof/Laws/Invariant.lean ====
section
/-! SUPPORT. How the shared operations keep the parts of the invariant: the setters, the queue's push
step, the decoder's cursors, and the phases of a TICK. -/

namespace Sys2Proof.Machine

/-! ## What the invariant gives -/

theorem Inv.period_pos {s : State} (h : Inv s) : 1 ≤ s.P := by
  rw [h.2.1.1]; exact tonePeriod_pos _ _ h.1.1 h.1.2.1.1

theorem Inv.period_le {s : State} (h : Inv s) : s.P ≤ s.par.pMax := by
  rw [h.2.1.1]; exact tonePeriod_le_pMax _ _ h.1.1 h.1.2.1.1

theorem Inv.dit_le {s : State} (h : Inv s) : s.D ≤ s.par.dMax := by
  rw [h.2.1.2.1]; exact ditLength_le_dMax _ _ _ h.1.2.2.1.1 h.period_pos h.period_le

theorem Inv.dit_pos {s : State} (h : Inv s) : 1 ≤ s.D := by
  rw [h.2.1.2.1]
  exact ditLength_pos _ _ _ h.1.1 (by have := h.1.2.2.1.1; omega) h.period_pos

theorem Inv.env_length {s : State} (h : Inv s) : s.E.length = s.R + 1 := by
  rw [h.2.1.2.2.2.1]; exact envTable_length _ _

theorem Inv.tone_length {s : State} (h : Inv s) : s.T.length = s.P := h.2.1.2.2.2.2.1

/-- The render of a legal state completes. -/
theorem Inv.render_isSome {s : State} (h : Inv s) : ∃ out, s.render = some out :=
  Sys2Proof.Machine.render_isSome s h.period_pos h.tone_length h.env_length

/-- Every end index a state is entered with is within the bound of 10_state.md R31. -/
theorem Inv.endIndex_le {s : State} (h : Inv s) (k : Keyer) :
    s.endIndex k ≤ max s.par.SR (3 * s.par.dMax) := by
  have := h.dit_le
  cases k <;> simp only [State.endIndex, Params.initPauseSamples] <;> omega

/-! ## The setters -/

/-- A regeneration on a legal configuration gives a legal state. -/
theorem inv_regenerate (s : State) (hc : ConfigLegal s) (hk : KeyerLegal s) (hs : StorageLegal s)
    (hd : DecoderLegal s) : Inv s.regenerate :=
  ⟨hc, tablesDerived_regenerate s, hk, hs, hd⟩

theorem clamp_bounds (v lo hi : Nat) (h : lo ≤ hi) : lo ≤ clamp v lo hi ∧ clamp v lo hi ≤ hi := by
  unfold clamp; omega

theorem inv_setFrequency (s : State) (hz : Nat) (h : Inv s) : Inv (s.setFrequency hz) :=
  inv_regenerate _
    ⟨h.1.1, clamp_bounds _ _ _ h.1.1.2.2.2.1.2.1, h.1.2.2⟩ h.2.2.1 h.2.2.2.1 h.2.2.2.2

theorem inv_setSpeed (s : State) (wpm : Nat) (h : Inv s) : Inv (s.setSpeed wpm) :=
  inv_regenerate _
    ⟨h.1.1, h.1.2.1, clamp_bounds _ _ _ (by omega), h.1.2.2.2⟩ h.2.2.1 h.2.2.2.1 h.2.2.2.2

theorem inv_setRise (s : State) (ms : Nat) (h : Inv s) : Inv (s.setRise ms) :=
  inv_regenerate _
    ⟨h.1.1, h.1.2.1, h.1.2.2.1, h.1.2.2.2.1, clamp_bounds _ _ _ (by omega)⟩
    h.2.2.1 h.2.2.2.1 h.2.2.2.2

theorem inv_setVolume (s : State) (ch : BitVec 8) (mute : Bool) (vol : BitVec 8) (h : Inv s) :
    Inv (s.setVolume ch mute vol) := by
  rcases setVolume_cases s ch mute vol with ⟨_, e⟩ | ⟨_, _, e⟩ | ⟨_, _, _, e⟩ <;> rw [e]
  · exact h
  · obtain ⟨⟨h1, h2, h3, _, h5⟩, ⟨t1, t2, t3, t4, t5, _, t7⟩, hr⟩ := h
    exact ⟨⟨h1, h2, h3, Nat.zero_le _, h5⟩, ⟨t1, t2, t3, t4, t5, fun hv => absurd rfl hv, t7⟩, hr⟩
  · exact inv_regenerate _
      ⟨h.1.1, h.1.2.1, h.1.2.2.1, Nat.min_le_right _ _, h.1.2.2.2.2⟩ h.2.2.1 h.2.2.2.1 h.2.2.2.2

/-! ## The queue -/

theorem inv_pushStep (s : State) (h : Inv s) : Inv s.pushStep := by
  rcases pushStep_cases s with ⟨_, e⟩ | ⟨x, rest, hp, hl, e⟩ | ⟨_, _, e⟩ <;> rw [e]
  · exact h
  · obtain ⟨hc, ht, hk, ⟨_, s2⟩, d1, d2, _, d4⟩ := h
    refine ⟨hc, ht, hk, ⟨?_, s2⟩, d1, d2, ?_, ?_⟩
    · simp only [List.length_append, List.length_cons, List.length_nil]; omega
    · simp only [Bool.and_eq_true, Bool.not_eq_eq_eq_not, Bool.not_true, List.isEmpty_eq_false_iff]
      exact fun hw => hw.2
    · rw [hp] at d4; simp only [List.length_cons] at d4; simp only; omega
  · exact h

/-- Accepting an enqueue of at most one text while none is in flight. -/
theorem inv_startEnqueue (s : State) (syms : List Symbol) (h : Inv s) (hp : s.PEND = [])
    (hl : syms.length ≤ 9 + s.par.ICP) : Inv (s.startEnqueue syms) := by
  obtain ⟨hc, ht, hk, hs, d1, d2, d3, _⟩ := h
  have hw : s.hWait = false := by
    by_contra hne; exact d3 (by simpa using hne) hp
  refine inv_pushStep _ ⟨hc, ht, hk, hs, d1, d2, ?_, hl⟩
  simp [hw]

theorem enqtSymbols_length (c : Params) (n : BitVec 4) (codes : BitVec 20) :
    (enqtSymbols c n codes).length = n.toNat + (c.ICP - 1) := by
  simp [enqtSymbols, textSymbols]

theorem inv_enqueueText (s : State) (n : BitVec 4) (codes : BitVec 20) (h : Inv s)
    (hp : s.PEND = []) : Inv (s.enqueueText n codes) := by
  unfold State.enqueueText
  split
  · exact h
  · refine inv_startEnqueue s _ h hp ?_
    rw [enqtSymbols_length]
    have := h.1.1.2.2.2.2.1
    omega

/-- The decoder's text keeps the invariant when the control port takes its ENQT. -/
theorem inv_sendText (s : State) (c : Byte) (h : Inv s)
    (hp : morseOf s.par c ≠ [] → s.PEND = []) : Inv (s.sendText c) := by
  unfold State.sendText
  split
  · exact h
  · rename_i hm
    obtain ⟨hc, ht, hk, hs, d1, d2, _, d4⟩ :=
      inv_enqueueText s (stringCount (morseOf s.par c)) (stringCodes (morseOf s.par c)) h
        (hp (by simpa using hm))
    exact ⟨hc, ht, hk, hs, d1, d2, by simp, d4⟩

/-! ## TICK -/

/-- What the transition phase leaves, before the advance: the new state's own registers are legal, and
progress has not passed the end index (R31). -/
abbrev KeyerReady (s : State) : Prop :=
  s.K ≠ .reserved ∧ s.K ≠ .init ∧ s.p ≤ s.e ∧ s.e ≤ max s.par.SR (3 * s.par.dMax) ∧
  (s.K = .idle → s.p = 0 ∧ s.e = 0) ∧ (s.K = .initPause → s.e = s.par.SR) ∧
  (s.L = .none ∨ s.K = .ditPause ∧ s.L = .dah ∨ s.K = .dahPause ∧ s.L = .dit) ∧
  (s.IND = .off ↔ s.K = .initPause ∨ s.K = .idle)

/-- The transition phase writes the keyer's registers, the latch, the indicator and the queue only. -/
theorem transition_frame (s t : State) (dit dah : Bool) (h : s.transition dit dah = some t) :
    t = { s with K := t.K, p := t.p, e := t.e, L := t.L, IND := t.IND, Q := t.Q } := by
  have hl (b : Bool) (l : LookAhead) :
      s.latch b l = { s with L := (s.latch b l).L } := by
    unfold State.latch; split <;> rfl
  rcases transition_cases s t dit dah h with
    ⟨rfl, _⟩ | ⟨_, _, e⟩ | ⟨_, _, e⟩ | ⟨_, e⟩ | ⟨_, _, e⟩ | ⟨_, _, e⟩ | ⟨_, _, _, e⟩ | ⟨_, _, _, e⟩ | ⟨_, e⟩
  · rfl
  · rw [e, hl]
  · rw [e, hl]
  · rw [e]; rfl
  · rw [e]; rfl
  · rw [e]; rfl
  · rw [e]; rfl
  · rw [e]; rfl
  · rw [e, idleResolve_eq]; rfl

/-- The transition phase never lengthens the queue. -/
theorem transition_queue (s t : State) (dit dah : Bool) (h : s.transition dit dah = some t) :
    t.Q.length ≤ s.Q.length := by
  have hl (b : Bool) (l : LookAhead) : (s.latch b l).Q = s.Q := by
    unfold State.latch; split <;> rfl
  rcases transition_cases s t dit dah h with
    ⟨rfl, _⟩ | ⟨_, _, e⟩ | ⟨_, _, e⟩ | ⟨_, e⟩ | ⟨_, _, e⟩ | ⟨_, _, e⟩ | ⟨_, _, _, e⟩ | ⟨_, _, _, e⟩ | ⟨_, e⟩
  · exact le_refl _
  · rw [e, hl]
  · rw [e, hl]
  · rw [e]; exact le_refl _
  · rw [e]; exact le_refl _
  · rw [e]; exact le_refl _
  · rw [e]; exact le_refl _
  · rw [e]; exact le_refl _
  · rw [e, idleResolve_eq]; exact idleChoice_queue s dit dah

theorem le_of_not_expired (s : State) (h : s.expired = false) : s.p ≤ s.e := by
  unfold State.expired at h
  split at h <;> simp at h <;> omega

/-- `IdleResolve` leaves a ready keyer. -/
theorem keyerReady_idleResolve (s : State) (h : Inv s) (dit dah : Bool) :
    KeyerReady (s.idleResolve dit dah) := by
  have hend := h.endIndex_le
  rw [idleResolve_eq]
  rcases idleChoice_state s dit dah with ⟨hk, hi⟩ | ⟨hk, hi⟩
  · rw [hk, hi]
    refine ⟨by simp, by simp, by simp, ?_, ?_, by simp, by simp, by simp⟩
    · exact hend .idle
    · intro _; exact ⟨rfl, rfl⟩
  · have h1 : (idleChoice s dit dah).1 ≠ .reserved ∧ (idleChoice s dit dah).1 ≠ .init ∧
        (idleChoice s dit dah).1 ≠ .idle ∧ (idleChoice s dit dah).1 ≠ .initPause := by
      rcases hk with e | e | e <;> rw [e] <;> simp
    obtain ⟨h1, h2, h3, h4⟩ := h1
    exact ⟨h1, h2, Nat.zero_le _, hend _, fun e => absurd e h3, fun e => absurd e h4, .inl rfl,
      by simp [h3, h4, hi]⟩

/-- The transition phase of a legal state leaves a ready keyer. -/
theorem keyerReady_transition (s t : State) (h : Inv s) (dit dah : Bool)
    (ht : s.transition dit dah = some t) : KeyerReady t := by
  have hend := h.endIndex_le
  obtain ⟨k1, k2, k3, k4, k5, k6, k7⟩ := h.2.2.1
  rcases transition_cases s t dit dah ht with
    ⟨rfl, hk, he⟩ | ⟨hk, he, e⟩ | ⟨hk, he, e⟩ | ⟨hk, e⟩ | ⟨hk, _, e⟩ | ⟨hk, _, e⟩ | ⟨hk, _, _, e⟩ |
    ⟨hk, _, _, e⟩ | ⟨_, e⟩
  · refine ⟨k1, ?_, le_of_not_expired _ he, k3, fun e => k4 (.inr e), k5, k6, ?_⟩
    · rcases hk with e | e | e <;> rw [e] <;> simp
    · rw [k7]; rcases hk with e | e | e <;> rw [e] <;> simp
  · have hp := le_of_not_expired _ he
    rw [hk] at k6 k7
    rw [e]
    unfold State.latch
    split
    · exact ⟨k1, by simp [hk], hp, k3, by simp [hk], by simp [hk], by simp [hk], by
        simp only [hk]; simpa using k7⟩
    · exact ⟨k1, by simp [hk], hp, k3, by simp [hk], by simp [hk], by simpa [hk] using k6, by
        simp only [hk]; simpa using k7⟩
  · have hp := le_of_not_expired _ he
    rw [hk] at k6 k7
    rw [e]
    unfold State.latch
    split
    · exact ⟨k1, by simp [hk], hp, k3, by simp [hk], by simp [hk], by simp [hk], by
        simp only [hk]; simpa using k7⟩
    · exact ⟨k1, by simp [hk], hp, k3, by simp [hk], by simp [hk], by simpa [hk] using k6, by
        simp only [hk]; simpa using k7⟩
  · rw [e]
    exact ⟨by simp, by simp, Nat.zero_le _, hend .initPause, by simp, fun _ => rfl,
      by simpa [hk] using k6, by simp⟩
  · rw [e]
    exact ⟨by simp, by simp, Nat.zero_le _, hend .ditPause, by simp, by simp,
      .inl (by simpa [hk] using k6), by simpa [hk] using k7⟩
  · rw [e]
    exact ⟨by simp, by simp, Nat.zero_le _, hend .dahPause, by simp, by simp,
      .inl (by simpa [hk] using k6), by simpa [hk] using k7⟩
  · rw [e]
    exact ⟨by simp, by simp, Nat.zero_le _, hend .dah, by simp, by simp, by simp, by simp⟩
  · rw [e]
    exact ⟨by simp, by simp, Nat.zero_le _, hend .dit, by simp, by simp, by simp, by simp⟩
  · rw [e]; exact keyerReady_idleResolve s h dit dah

/-- The pairing check keeps the invariant: neither of its records is a stuck one. -/
theorem inv_checkTickPhase (s : State) (h : Inv s) : Inv s.checkTickPhase := by
  unfold State.checkTickPhase; split <;> exact h

/-- A TICK of a legal state runs through: its transition, its render and its advance. -/
theorem tick_runs (s : State) (h : Inv s) :
    ∃ t out, s.checkTickPhase.transition (!s.ditN) (!s.dahN) = some t ∧ t.render = some out ∧
      s.tick = t.finishTick out := by
  have h' := inv_checkTickPhase s h
  obtain ⟨t, ht⟩ := transition_isSome s.checkTickPhase (!s.ditN) (!s.dahN) h'.2.2.1.1
  have hf := transition_frame _ _ _ _ ht
  obtain ⟨out, hout⟩ := render_isSome t (by rw [hf]; exact h'.period_pos)
    (by rw [hf]; exact h'.tone_length) (by rw [hf]; exact h'.env_length)
  exact ⟨t, out, ht, hout, tick_eq s t out ht hout⟩

/-- A ready keyer and a full buffer make a legal state after the advance. -/
theorem inv_finishTick (t : State) (out : List Sample) (hc : ConfigLegal t) (ht : TablesDerived t)
    (hk : KeyerReady t) (hq : t.Q.length ≤ t.par.QCAP) (ho : out.length = t.par.B)
    (hf : t.FAULTS.reservedState = false ∧ t.FAULTS.tableIndex = false) (hd : DecoderLegal t) :
    Inv (t.finishTick out) := by
  obtain ⟨k1, k2, k3, k4, k5, k6, k7, k8⟩ := hk
  refine ⟨hc, ht, ⟨k1, ?_, k4, ?_, k6, k7, ?_⟩, ⟨hq, ho, hf⟩, hd⟩
  · simp only [State.finishTick_p, State.finishTick_e, State.finishTick_par]
    split <;> omega
  · rintro (e | e)
    · exact absurd e k2
    · have e' : t.K = .idle := e
      obtain ⟨hp, he⟩ := k5 e'
      exact ⟨by simp [e', hp], he⟩
  · simp only [State.finishTick_IND, State.finishTick_K]
    rw [k8]
    constructor
    · exact fun e => .inr e
    · rintro (e | e)
      · exact absurd e k2
      · exact e

/-- A TICK keeps the invariant. -/
theorem inv_tick (s : State) (h : Inv s) : Inv s.tick := by
  have h' := inv_checkTickPhase s h
  obtain ⟨t, out, ht, hout, e⟩ := tick_runs s h
  have hf := transition_frame _ _ _ _ ht
  have hq := transition_queue _ _ _ _ ht
  have hk := keyerReady_transition _ _ h' _ _ ht
  obtain ⟨hc, htb, _, ⟨s1, _, s3⟩, hd⟩ := h'
  have hpar : t.par = s.checkTickPhase.par := by rw [hf]
  rw [e]
  refine inv_finishTick t out ?_ ?_ hk ?_ (render_length t out hout) ?_ ?_
  · rw [hf]; exact hc
  · rw [hf]; exact htb
  · rw [hpar]; omega
  · rw [hf]; exact s3
  · rw [hf]; exact hd

end Sys2Proof.Machine
end

