-- ==== Sys2Proof/Laws/Exec.lean ====
section
/-! SUPPORT. What the decoders hand to each agent, and the invariant through every meaning. -/

namespace Sys2Proof.Machine

/-- A command word is never a serial command, and at the audio port it is READ or TICK
(30_encoding.md R101, R102). -/
theorem decodeWord_port (w : Word) (i : Instr) (h : decodeWord w = .instr i) :
    isSerial i = false ∧ (portOf w = .audio → i = .read ∨ i = .tick) := by
  have k : ∀ op : Byte, op.toNat ≤ 0x0F →
      op ≠ 16 ∧ op ≠ 17 ∧ op ≠ 18 ∧ op ≠ 19 ∧ op ≠ 32 ∧ op ≠ 33 ∧ op ≠ 34 := by decide +kernel
  refine ⟨?_, ?_⟩
  · unfold decodeWord at h
    simp only [] at h
    split_ifs at h <;> injection h with h <;> subst h <;> rfl
  · intro hp
    have hle : (opcodeOf w).toNat ≤ 0xF := by
      unfold portOf at hp
      by_contra hc
      simp [hc] at hp
    obtain ⟨a, b, c, d, e, f, g⟩ := k _ hle
    unfold decodeWord at h
    simp only [a, b, c, d, e, f, g, if_false] at h
    split_ifs at h <;> injection h with h <;> simp [← h]

/-- The control port never gets a READ or a TICK (30_encoding.md R101, R102). -/
theorem decodeWord_audio (w : Word) (i : Instr) (h : decodeWord w = .instr i)
    (hi : i = .read ∨ i = .tick) : portOf w = .audio := by
  have hop : opcodeOf w = 0x01 ∨ opcodeOf w = 0x02 := by
    unfold decodeWord at h
    simp only [] at h
    split_ifs at h with h1 h2 <;> first | exact .inl h1 | exact .inr h2 | skip
    all_goals injection h with h; subst h; simp at hi
  unfold portOf
  rcases hop with e | e <;> rw [e] <;> rfl

/-- New decoder registers within their bounds keep a legal state legal. -/
theorem inv_decoder (s : State) (b : List Byte) (r k : Nat) (v : Version) (fw w : Bool) (h : Inv s)
    (h1 : r ≤ k) (h2 : k ≤ b.length) (h3 : w = true → s.PEND ≠ []) :
    Inv { s with buf := b, replyAt := r, scanAt := k, hVersion := v, fwUpdate := fw,
                 hWait := w } := by
  obtain ⟨hc, ht, hk, hs, hd⟩ := h
  exact ⟨hc, ht, hk, hs, h1, h2, h3, hd.2.2.2⟩

/-- A serial command whose bytes are all there, taken while the decoder does not wait and the control
port is free for it, keeps the invariant (45_host_protocol.md R280, R308, R310). -/
theorem inv_exec_serial (i : Instr) (s t : State) (h : Inv s) (hs : isSerial i = true)
    (hl : s.scanAt + serialLength i ≤ s.buf.length) (hw : s.hWait = false)
    (hc : s.issuesControl i = true → s.PEND = []) (he : exec i s = .next t) : Inv t := by
  have hr : s.replyAt ≤ s.scanAt := h.2.2.2.2.1
  have hsc : s.scanAt ≤ s.buf.length := h.2.2.2.2.2.1
  have key (b : List Byte) (r k : Nat) (v : Version) (fw : Bool) (h1 : r ≤ k) (h2 : k ≤ b.length) :
    Inv { s with buf := b, replyAt := r, scanAt := k, hVersion := v, fwUpdate := fw } := by
    have := inv_decoder s b r k v fw s.hWait h h1 h2 (by simp [hw])
    exact this
  have cons (u : State) (k : Nat) (hu : Inv u) (h2 : u.scanAt + k ≤ u.buf.length) : Inv (u.consume k) := by
    have d := hu.2.2.2.2
    exact inv_decoder u u.buf u.replyAt (u.scanAt + k) u.hVersion u.fwUpdate u.hWait hu (by omega) h2
      d.2.2.1
  cases i with
  | read | tick | setf v | setw v | setr v | setv a b c | enq x | enqt a b | clr => cases hs
  | hostText c =>
    injection he with he; subst he
    have h0 : Inv { s with buf := s.buf.set s.scanAt c } :=
      key _ s.replyAt s.scanAt s.hVersion s.fwUpdate hr (by simp; omega)
    have h1 := inv_sendText _ c h0 (by intro hm; exact hc (by simp [State.issuesControl]; exact hm))
    have hl' : s.scanAt + 1 ≤ s.buf.length := hl
    refine cons _ 1 h1 ?_
    rw [sendText_frame]; simp; exact hl'
  | hostSidetone v =>
    have hl' : s.scanAt + 2 ≤ s.buf.length := hl
    simp only [exec, execHostSidetone] at he
    split at he
    · injection he with he; subst he
      exact cons _ 2 (inv_setFrequency s _ h) hl'
    · injection he with he; subst he
      exact cons _ 2 h hl'
  | hostAdminRise x => injection he with he; subst he; exact cons _ 3 (inv_setRise s _ h) hl
  | hostAdminFreq x => injection he with he; subst he; exact cons _ 3 (inv_setFrequency s _ h) hl
  | hostSpeed x => injection he with he; subst he; exact cons _ 2 (inv_setSpeed s _ h) hl
  | hostAdminFwupdate =>
    injection he with he; subst he
    exact key s.buf s.replyAt s.scanAt s.hVersion true hr hsc
  | hostAdminHostopen =>
    have hl' : s.scanAt + 2 ≤ s.buf.length := hl
    injection he with he; subst he
    exact key _ (s.replyAt + 1 + 1) (s.scanAt + 2) .v1 s.fwUpdate (by omega)
      (by simp; omega)
  | hostAdminEcho x =>
    have hl' : s.scanAt + 3 ≤ s.buf.length := hl
    injection he with he; subst he
    exact key _ (s.replyAt + 1) (s.scanAt + 3) s.hVersion s.fwUpdate (by omega) (by simp; omega)
  | hostAdmin5 | hostAdmin6 | hostAdmin7 | hostAdminMajor | hostAdminVoltage | hostAdminMinor
  | hostAdminIctype =>
    have hl' : s.scanAt + 2 ≤ s.buf.length := hl
    injection he with he; subst he
    exact key _ (s.replyAt + 1) (s.scanAt + 2) s.hVersion s.fwUpdate (by omega) (by simp; omega)
  | hostSpeedquery | hostStatus =>
    have hl' : s.scanAt + 1 ≤ s.buf.length := hl
    injection he with he; subst he
    exact key _ (s.replyAt + 1) (s.scanAt + 1) s.hVersion s.fwUpdate (by omega) (by simp; omega)
  | hostAdminVersion1 | hostAdminVersion2 | hostAdminVersion3 =>
    have hl' : s.scanAt + 2 ≤ s.buf.length := hl
    injection he with he; subst he
    exact key s.buf s.replyAt (s.scanAt + 2) _ s.fwUpdate (by omega) (by omega)
  | hostVersion3 =>
    have hl' : s.scanAt + 1 ≤ s.buf.length := hl
    injection he with he; subst he
    exact key s.buf s.replyAt (s.scanAt + 1) _ s.fwUpdate (by omega) (by omega)
  | hostAdminSidetonevol | hostAdminOther x => injection he with he; subst he; exact cons s 2 h hl
  | hostCtrlNop x | hostIgnored x => injection he with he; subst he; exact cons s 1 h hl

/-- A port's operation keeps the invariant; ENQ and ENQT are taken only while no enqueue is in flight
(20_memory.md R81). -/
theorem inv_exec_port (i : Instr) (s t : State) (h : Inv s) (hs : isSerial i = false)
    (hp : (∀ x, i = .enq x → s.PEND = []) ∧ (∀ n c, i = .enqt n c → s.PEND = []))
    (he : exec i s = .next t) : Inv t := by
  cases i with
  | read =>
    injection he with he; subst he
    have : Inv s.checkReadPhase := by unfold State.checkReadPhase; split <;> exact h
    exact this
  | tick => injection he with he; subst he; exact inv_tick s h
  | setf v => injection he with he; subst he; exact inv_setFrequency s _ h
  | setw v => injection he with he; subst he; exact inv_setSpeed s _ h
  | setr v => injection he with he; subst he; exact inv_setRise s _ h
  | setv a b c => injection he with he; subst he; exact inv_setVolume s a b c h
  | enq x => injection he with he; subst he; exact inv_startEnqueue s _ h (hp.1 x rfl) (by simp; omega)
  | enqt a b => injection he with he; subst he; exact inv_enqueueText s a b h (hp.2 a b rfl)
  | clr =>
    injection he with he; subst he
    obtain ⟨a, b, c, d, e⟩ := h
    exact ⟨a, b, c, ⟨Nat.zero_le _, d.2⟩, e⟩
  | _ => cases hs

end Sys2Proof.Machine
end

