-- ==== Sys2Proof/Laws/Words.lean ====
section
/-! SUPPORT. Fields of command words (30_encoding.md R100 to R108), and ENQT's operand against the
strings it stands for (45_host_protocol.md R283). -/

namespace Sys2Proof

/-- The upper part of a concatenation. -/
theorem extract_hi {a b : Nat} (x : BitVec a) (y : BitVec b) : (x ++ y).extractLsb' b a = x := by
  ext i hi
  simp [BitVec.getLsbD_append, BitVec.getLsbD_eq_getElem, hi]

/-- The lower part of a concatenation. -/
theorem extract_lo {a b : Nat} (x : BitVec a) (y : BitVec b) : (x ++ y).extractLsb' 0 b = y := by
  ext i hi
  simp [BitVec.getLsbD_append, BitVec.getLsbD_eq_getElem, hi]

/-- The opcode of a word written as opcode and operand. -/
theorem opcodeOf_append (op : Byte) (x : BitVec 24) : opcodeOf (op ++ x) = op := extract_hi op x

/-- A field inside the operand. -/
theorem extract_operand (op : Byte) (x : BitVec 24) (k n : Nat) (h : k + n ≤ 24) :
    BitVec.extractLsb' k n (op ++ x : BitVec 32) = x.extractLsb' k n := by
  ext i hi
  simp
  grind

/-- ENQT keeps its used codes: the operand modulo `4^n` (30_encoding.md R106, R108). -/
theorem keepCodes_eq (n : BitVec 4) (c : BitVec 20) :
    keepCodes n c = BitVec.ofNat 20 (c.toNat % 4 ^ n.toNat) := by
  unfold keepCodes
  apply BitVec.eq_of_toNat_eq
  have h4 : 4 ^ n.toNat = 2 ^ (2 * n.toNat) := by rw [pow_mul]; norm_num
  have hc := c.isLt
  simp only [BitVec.toNat_and, BitVec.toNat_ofNat]
  rw [h4]
  by_cases hn : 2 * n.toNat ≤ 20
  · have hle : 2 ^ (2 * n.toNat) ≤ 2 ^ 20 := Nat.pow_le_pow_right (by norm_num) hn
    have hp : 0 < 2 ^ (2 * n.toNat) := by positivity
    have hm := Nat.mod_lt c.toNat hp
    rw [Nat.mod_eq_of_lt (a := 2 ^ (2 * n.toNat) - 1) (by omega), Nat.and_two_pow_sub_one_eq_mod,
      Nat.mod_eq_of_lt (b := 2 ^ 20) (by omega)]
  · obtain ⟨k, hk⟩ : (2 : Nat) ^ 20 ∣ 2 ^ (2 * n.toNat) := Nat.pow_dvd_pow 2 (by omega)
    have hk0 : 0 < k := by
      rcases Nat.eq_zero_or_pos k with h | h
      · subst h; simp at hk
      · exact h
    have e : (2 ^ (2 * n.toNat) - 1) % 2 ^ 20 = 2 ^ 20 - 1 := by
      obtain ⟨m, rfl⟩ : ∃ m, k = m + 1 := ⟨k - 1, by omega⟩
      have hs : 2 ^ 20 * (m + 1) - 1 = 2 ^ 20 * m + (2 ^ 20 - 1) := by omega
      rw [hk, hs, Nat.mul_add_mod]
      rfl
    have hlt : c.toNat < 2 ^ (2 * n.toNat) :=
      lt_of_lt_of_le hc (Nat.pow_le_pow_right (by norm_num) (by omega))
    rw [e, Nat.and_two_pow_sub_one_eq_mod, Nat.mod_eq_of_lt hlt]

/-- What a word written as opcode and operand decodes to, by its fields (30_encoding.md R102). -/
theorem decodeWord_append (op : Byte) (x : BitVec 24) :
    decodeWord (op ++ x) =
      if op = 0x01 then .instr .read
      else if op = 0x02 then .instr .tick
      else if op = 0x10 then .instr (.setf x)
      else if op = 0x11 then .instr (.setw x)
      else if op = 0x12 then .instr (.setr x)
      else if op = 0x13 then
        .instr (.setv (x.extractLsb' 16 8) (x.getLsbD 8) (x.extractLsb' 0 8))
      else if op = 0x20 then .instr (.enq (symOf (x.extractLsb' 0 2)))
      else if op = 0x21 then
        .instr (.enqt (x.extractLsb' 20 4) (keepCodes (x.extractLsb' 20 4) (x.extractLsb' 0 20)))
      else if op = 0x22 then .instr .clr
      else .rejected .unassignedOpcode := by
  have e : x.extractLsb' 0 24 = x := by simp
  have m : (op ++ x : BitVec 32).getLsbD 8 = x.getLsbD 8 := by rw [BitVec.getLsbD_append]; simp
  have f := extract_operand op x
  unfold decodeWord
  simp only [opcodeOf_append, m, f 0 24 (by decide), f 16 8 (by decide), f 0 8 (by decide),
    f 0 2 (by decide), f 20 4 (by decide), f 0 20 (by decide), e]

/-! ## Text -/

namespace Machine

theorem codeOfChar_lt (ch : TextChar) : codeOfChar ch < 4 := by cases ch <;> decide

theorem packCodes_lt (str : List TextChar) : packCodes str < 4 ^ str.length := by
  induction str with
  | nil => simp [packCodes]
  | cons c r ih =>
    have := codeOfChar_lt c
    simp only [packCodes, List.length_cons, pow_succ]
    omega

/-- Character `j` stands at bits `[2j+1:2j]` (30_encoding.md R106). -/
theorem packCodes_get (str : List TextChar) (j : Nat) (hj : j < str.length) :
    packCodes str / 4 ^ j % 4 = codeOfChar str[j] := by
  induction str generalizing j with
  | nil => simp at hj
  | cons c r ih =>
    have hc := codeOfChar_lt c
    cases j with
    | zero => simp [packCodes]; omega
    | succ j =>
      simp only [packCodes, pow_succ]
      rw [Nat.mul_comm (4 ^ j) 4, ← Nat.div_div_eq_div_mul,
        show (codeOfChar c + 4 * packCodes r) / 4 = packCodes r by omega]
      simpa using ih j (by simpa using hj)

/-- ENQT's symbols for the operand of a string of at most 10 characters are those of its characters
(42_queue.md R222). -/
theorem textSymbols_string (str : List TextChar) (h : str.length ≤ 10) :
    textSymbols (stringCount str) (stringCodes str) =
      str.map fun ch => symOf (BitVec.ofNat 2 (codeOfChar ch)) := by
  have hn : (stringCount str).toNat = str.length := by
    simp only [stringCount, BitVec.toNat_ofNat]; omega
  unfold textSymbols
  rw [hn]
  apply List.ext_getElem
  · simp
  · intro j h1 h2
    simp only [List.length_map, List.length_range] at h1
    simp only [List.getElem_map, List.getElem_range]
    congr 1
    apply BitVec.eq_of_toNat_eq
    have h20 : packCodes str < 2 ^ 20 := lt_of_lt_of_le (packCodes_lt str) (by
      calc 4 ^ str.length ≤ 4 ^ 10 := Nat.pow_le_pow_right (by norm_num) h
        _ = 2 ^ 20 := by norm_num)
    have hc := codeOfChar_lt str[j]
    have hg := packCodes_get str j h1
    rw [BitVec.extractLsb'_toNat, stringCodes, BitVec.toNat_ofNat, Nat.mod_eq_of_lt h20,
      Nat.shiftRight_eq_div_pow, pow_mul, BitVec.toNat_ofNat]
    norm_num at hg ⊢
    rw [hg]
    omega

/-- Every string of the morse table has at most 10 characters (45_host_protocol.md R283). -/
theorem morseOf_length (c : Params) (hc : c.Ok) (b : Byte) : (morseOf c b).length ≤ 10 := by
  have hd : ∀ x ∈ morseDigits, x.length ≤ 10 := by decide
  have hl : ∀ x ∈ morseLetters, x.length ≤ 10 := by decide
  have hg (l : List (List TextChar)) (i : Nat) (h : ∀ x ∈ l, x.length ≤ 10) :
      (l.getD i []).length ≤ 10 := by
    rw [List.getD_eq_getElem?_getD]
    rcases hx : l[i]? with _ | x
    · simp
    · simpa using h x (List.mem_of_getElem? hx)
  unfold morseOf
  split_ifs
  · exact hc.2.2.2.2.2.2.2.2.1
  · exact hg _ _ hd
  · exact hg _ _ hl
  · exact hg _ _ hc.2.2.2.2.2.1.2
  · simp

end Machine

end Sys2Proof
end

