-- ==== Sys2Proof/Laws/PerInstr.lean ====
section
/-! SUPPORT. A statement about the encoding of each instruction, one lemma per constructor. -/

namespace Sys2Proof.Laws

/-- An operation of a port is one word of that port (30_encoding.md R100 to R102), and a command of the
serial line is 1 to 3 bytes, two or more of them exactly after 0x00, 0x01 and 0x02
(45_host_protocol.md R281, R286), provided its operands are well formed. -/
def EncodeShape.Statement (i : Instr) : Prop :=
  i.wellFormed = true →
    match encode i with
    | .word w => isSerial i = false ∧ (portOf w = .audio ↔ i = .read ∨ i = .tick)
    | .bytes bs => isSerial i = true ∧ 1 ≤ bs.length ∧ bs.length ≤ longestCommand ∧
        (2 ≤ bs.length ↔ bs.head? = some 0x00 ∨ bs.head? = some 0x01 ∨ bs.head? = some 0x02)

/-- A control word is not at the audio port. -/
theorem portOf_control (op : Byte) (x : BitVec 24) (h : ¬ op.toNat ≤ 0x0F) :
    portOf (op ++ x) = .control := by
  unfold portOf
  rw [opcodeOf_append, if_neg h]

theorem EncodeShape.read : EncodeShape.Statement .read :=
  fun _ => ⟨rfl, by decide⟩

theorem EncodeShape.tick : EncodeShape.Statement .tick :=
  fun _ => ⟨rfl, by decide⟩

theorem EncodeShape.setf (value : BitVec 24) : EncodeShape.Statement (.setf value) :=
  fun _ => ⟨rfl, by
    rw [commandWord, portOf_control _ _ (by decide)]
    simp⟩

theorem EncodeShape.setw (value : BitVec 24) : EncodeShape.Statement (.setw value) :=
  fun _ => ⟨rfl, by
    rw [commandWord, portOf_control _ _ (by decide)]
    simp⟩

theorem EncodeShape.setr (value : BitVec 24) : EncodeShape.Statement (.setr value) :=
  fun _ => ⟨rfl, by
    rw [commandWord, portOf_control _ _ (by decide)]
    simp⟩

theorem EncodeShape.setv (ch : BitVec 8) (mute : Bool) (vol : BitVec 8) : EncodeShape.Statement (.setv ch mute vol) :=
  fun _ => ⟨rfl, by
    rw [commandWord, portOf_control _ _ (by decide)]
    simp⟩

theorem EncodeShape.enq (sym : Symbol) : EncodeShape.Statement (.enq sym) :=
  fun _ => ⟨rfl, by
    rw [commandWord, portOf_control _ _ (by decide)]
    simp⟩

theorem EncodeShape.enqt (n : BitVec 4) (codes : BitVec 20) : EncodeShape.Statement (.enqt n codes) :=
  fun _ => ⟨rfl, by
    rw [commandWord, portOf_control _ _ (by decide)]
    simp⟩

theorem EncodeShape.clr : EncodeShape.Statement .clr :=
  fun _ => ⟨rfl, by
    rw [commandWord, portOf_control _ _ (by decide)]
    simp⟩

theorem EncodeShape.hostText (c : Byte) : EncodeShape.Statement (.hostText c) := by
  have k : ∀ c : Byte, isTextByte c = true → c ≠ 0x00#8 ∧ c ≠ 0x01#8 ∧ c ≠ 0x02#8 := by decide +kernel
  intro h
  obtain ⟨h0, h1, h2⟩ := k c h
  exact ⟨rfl, by simp, by simp [longestCommand], by simp [h0, h1, h2]⟩

theorem EncodeShape.hostAdminHostopen : EncodeShape.Statement .hostAdminHostopen :=
  fun _ => ⟨rfl, by decide⟩

theorem EncodeShape.hostAdminEcho (x : Byte) : EncodeShape.Statement (.hostAdminEcho x) :=
  fun _ =>
  ⟨rfl, by simp, by simp [longestCommand], by simp⟩

theorem EncodeShape.hostAdmin5 : EncodeShape.Statement .hostAdmin5 :=
  fun _ => ⟨rfl, by decide⟩

theorem EncodeShape.hostAdmin6 : EncodeShape.Statement .hostAdmin6 :=
  fun _ => ⟨rfl, by decide⟩

theorem EncodeShape.hostAdmin7 : EncodeShape.Statement .hostAdmin7 :=
  fun _ => ⟨rfl, by decide⟩

theorem EncodeShape.hostAdminMajor : EncodeShape.Statement .hostAdminMajor :=
  fun _ => ⟨rfl, by decide⟩

theorem EncodeShape.hostAdminVersion1 : EncodeShape.Statement .hostAdminVersion1 :=
  fun _ => ⟨rfl, by decide⟩

theorem EncodeShape.hostAdminVersion2 : EncodeShape.Statement .hostAdminVersion2 :=
  fun _ => ⟨rfl, by decide⟩

theorem EncodeShape.hostAdminVersion3 : EncodeShape.Statement .hostAdminVersion3 :=
  fun _ => ⟨rfl, by decide⟩

theorem EncodeShape.hostAdminVoltage : EncodeShape.Statement .hostAdminVoltage :=
  fun _ => ⟨rfl, by decide⟩

theorem EncodeShape.hostAdminMinor : EncodeShape.Statement .hostAdminMinor :=
  fun _ => ⟨rfl, by decide⟩

theorem EncodeShape.hostAdminIctype : EncodeShape.Statement .hostAdminIctype :=
  fun _ => ⟨rfl, by decide⟩

theorem EncodeShape.hostAdminSidetonevol : EncodeShape.Statement .hostAdminSidetonevol :=
  fun _ => ⟨rfl, by decide⟩

theorem EncodeShape.hostAdminRise (x : Byte) : EncodeShape.Statement (.hostAdminRise x) :=
  fun _ =>
  ⟨rfl, by simp, by simp [longestCommand], by simp⟩

theorem EncodeShape.hostAdminFreq (x : Byte) : EncodeShape.Statement (.hostAdminFreq x) :=
  fun _ =>
  ⟨rfl, by simp, by simp [longestCommand], by simp⟩

theorem EncodeShape.hostAdminFwupdate : EncodeShape.Statement .hostAdminFwupdate :=
  fun _ => ⟨rfl, by decide⟩

theorem EncodeShape.hostAdminOther (id : Byte) : EncodeShape.Statement (.hostAdminOther id) :=
  fun _ =>
  ⟨rfl, by simp, by simp [longestCommand], by simp⟩

theorem EncodeShape.hostSidetone (v : Byte) : EncodeShape.Statement (.hostSidetone v) :=
  fun _ =>
  ⟨rfl, by simp, by simp [longestCommand], by simp⟩

theorem EncodeShape.hostSpeed (v : Byte) : EncodeShape.Statement (.hostSpeed v) :=
  fun _ =>
  ⟨rfl, by simp, by simp [longestCommand], by simp⟩

theorem EncodeShape.hostSpeedquery : EncodeShape.Statement .hostSpeedquery :=
  fun _ => ⟨rfl, by decide⟩

theorem EncodeShape.hostVersion3 : EncodeShape.Statement .hostVersion3 :=
  fun _ => ⟨rfl, by decide⟩

theorem EncodeShape.hostStatus : EncodeShape.Statement .hostStatus :=
  fun _ => ⟨rfl, by decide⟩

theorem EncodeShape.hostCtrlNop (b : BitVec 5) : EncodeShape.Statement (.hostCtrlNop b) := by
  have k : ∀ b : BitVec 5, (!namedControlBytes.contains b) = true →
      b.setWidth 8 ≠ 0x00#8 ∧ b.setWidth 8 ≠ 0x01#8 ∧ b.setWidth 8 ≠ 0x02#8 := by decide +kernel
  intro h
  obtain ⟨h0, h1, h2⟩ := k b h
  exact ⟨rfl, by simp, by simp [longestCommand], by simp [h0, h1, h2]⟩

theorem EncodeShape.hostIgnored (g : Byte) : EncodeShape.Statement (.hostIgnored g) := by
  have k : ∀ g : Byte, isIgnoredByte g = true → g ≠ 0x00#8 ∧ g ≠ 0x01#8 ∧ g ≠ 0x02#8 := by
    decide +kernel
  intro h
  obtain ⟨h0, h1, h2⟩ := k g h
  exact ⟨rfl, by simp, by simp [longestCommand], by simp [h0, h1, h2]⟩

end Sys2Proof.Laws
end

