-- ==== Sys2Proof/Laws/Tick.lean ====
section
/-! SUPPORT. What a TICK of a legal state does, in one equation over its transition phase
(40_keying.md R141), and the expiry test in the spec's words (R146). -/

namespace Sys2Proof.Machine

/-- The expiry test is R146's. -/
theorem expired_iff (s : State) : s.expired = true ↔ PastEnd s := by
  unfold State.expired PastEnd
  cases s.par.EXPIRY_CMP <;> simp

theorem expired_eq_false (s : State) (h : ¬ PastEnd s) : s.expired = false := by
  rw [← expired_iff] at h
  simpa using h

/-- The pairing check writes one mark. -/
theorem checkTickPhase_eq (s : State) :
    s.checkTickPhase =
      { s with FAULTS := { s.FAULTS with
                           pairingTick := s.FAULTS.pairingTick || s.APH == .awaitRead } } := by
  unfold State.checkTickPhase
  obtain ⟨par, FREQ, WPM, VOL, RISE, P, T, D, R, E, K, p, e, L, IND, Q, OUT, APH, PEND,
    ⟨f1, f2, f3, f4, f5⟩, rest⟩ := s
  cases APH <;> simp [State.setFaults]

/-- The transition phase does not look at the fault marks. -/
theorem transition_faults (s : State) (f : FaultMarks) (dit dah : Bool) :
    State.transition { s with FAULTS := f } dit dah =
      (s.transition dit dah).map fun t => { t with FAULTS := f } := by
  cases hE : s.expired <;>
  · have hE' : State.expired { s with FAULTS := f } = s.expired := rfl
    rw [hE] at hE'
    unfold State.transition
    obtain ⟨par, FREQ, WPM, VOL, RISE, P, T, D, R, E, K, p, e, L, IND, Q, OUT, APH, PEND, f', a1, a2,
      a3, a4, a5, a6, a7, a8, a9, a10, a11, a12, a13, a14, a15⟩ := s
    cases K <;> simp only [hE, hE'] <;> cases dit <;> cases dah <;> cases L <;> cases Q <;> rfl

/-- The render does not look at the fault marks. -/
theorem render_faults (s : State) (f : FaultMarks) :
    State.render { s with FAULTS := f } = s.render := by
  have h : ∀ n q, State.renderFrom { s with FAULTS := f } n q = s.renderFrom n q := by
    intro n
    induction n with
    | zero => intro q; rfl
    | succ n ih => intro q; simp only [State.renderFrom, ih]; rfl
  exact h _ _

/-- A sample that exists is R190's. -/
theorem renderedSample_of_sampleAt (s : State) (q : Nat) (x : Sample)
    (h : s.sampleAt q = some x) : renderedSample s q = x := by
  unfold State.sampleAt State.sounds at h
  unfold renderedSample
  by_cases hc : (s.K = .dit ∨ s.K = .dah) ∧ 0 < s.VOL ∧ q < s.e
  · rw [if_pos (by simpa [and_assoc] using hc)] at h
    rw [if_pos hc]
    unfold State.toneAt at h
    by_cases hP : s.P = 0
    · simp [hP] at h
    · rw [if_neg hP] at h
      cases hT : s.T[q % s.P]? with
      | none => simp [hT] at h
      | some v =>
        have hTd : s.T.getD (q % s.P) 0 = v := by simp [List.getD, hT]
        rw [hTd]
        simp only [hT] at h
        unfold State.envIndex at h
        split_ifs at h ⊢
        · cases hE : s.E[q]? with
          | none => simp [hE] at h
          | some w => simp [hE] at h; simp [List.getD, hE, h]
        · cases hE : s.E[s.e - q]? with
          | none => simp [hE] at h
          | some w => simp [hE] at h; simp [List.getD, hE, h]
        · simpa using h
  · rw [if_neg (by simpa [and_assoc] using hc)] at h
    rw [if_neg hc]
    simpa using h

/-- A render that completes gives R190's buffer. -/
theorem renderedBuffer_of_render (s : State) (out : List Sample) (h : s.render = some out) :
    renderedBuffer s = out := by
  have hr : ∀ n q out, s.renderFrom n q = some out →
      out = (List.range n).map fun j => renderedSample s (q + j) := by
    intro n
    induction n with
    | zero => intro q out h; simp [State.renderFrom] at h; simp [h]
    | succ n ih =>
      intro q out h
      simp only [State.renderFrom] at h
      cases h1 : s.sampleAt q with
      | none => simp [h1] at h
      | some x =>
        cases h2 : s.renderFrom n (q + 1) with
        | none => simp [h1, h2] at h
        | some xs =>
          simp [h1, h2] at h
          rw [← h, List.range_succ_eq_map, List.map_cons, List.map_map, ih _ _ h2,
            ← renderedSample_of_sampleAt s q x h1]
          simp only [Nat.add_zero]
          congr 1
          apply List.map_congr_left
          intro j _
          simp only [Function.comp]
          congr 1
          omega
  exact (hr _ _ _ h).symm

/-- A TICK of a legal state is its transition, then `afterTick` (R141). -/
theorem tick_afterTick (s t : State) (h : Inv s)
    (ht : s.transition (!s.ditN) (!s.dahN) = some t) : s.tick = afterTick s t := by
  obtain ⟨u, out, h1, h2, h3⟩ := tick_runs s h
  have hpar : t.par = s.par := by rw [transition_frame _ _ _ _ ht]
  rw [checkTickPhase_eq, transition_faults, ht] at h1
  simp only [Option.map, Option.some.injEq] at h1
  subst h1
  rw [render_faults] at h2
  rw [h3, ← renderedBuffer_of_render t out h2]
  unfold State.finishTick afterTick
  rw [hpar]

/-- Every next state of a TICK of a legal state comes from its transition. -/
theorem exec_tick_data (s t : State) (h : Inv s) (he : exec .tick s = .next t) :
    ∃ u, s.transition (!s.ditN) (!s.dahN) = some u ∧ t = afterTick s u := by
  obtain ⟨u, hu⟩ := transition_isSome s (!s.ditN) (!s.dahN) h.2.2.1.1
  refine ⟨u, hu, ?_⟩
  injection he with he
  rw [← he, tick_afterTick s u h hu]

/-- New pin levels keep a legal state legal. -/
theorem inv_pins (s : State) (h : Inv s) (ditN dahN : Bool) :
    Inv { s with ditN := ditN, dahN := dahN } := h

/-- One more TICK at the end of a row of TICKs. -/
theorem ticks_append (s : State) (pins : List (Bool × Bool)) (x : Bool × Bool) :
    s.ticks (pins ++ [x]) = State.tick { s.ticks pins with ditN := x.1, dahN := x.2 } := by
  simp [State.ticks, List.foldl_append]

/-- A row of TICKs keeps a legal state legal. -/
theorem inv_ticks (s : State) (h : Inv s) (pins : List (Bool × Bool)) : Inv (s.ticks pins) := by
  induction pins using List.reverseRecOn with
  | nil => exact h
  | append_singleton l x ih => rw [ticks_append]; exact inv_tick _ (inv_pins _ ih _ _)

end Sys2Proof.Machine
end

