-- ==== Sys2Proof/Machine/Assembler.lean ====
section
/-! DEFINITION. The assembler's textual syntax and pseudo-operations (30_encoding.md R112, R113), and
loading a program: its words go to the ports in the order written (95_test_vectors.md Part 3). -/

namespace Sys2Proof.Machine

/-- What a line of a program puts at a port. -/
inductive ProgramItem where
  | audio (a : AudioWord)
  | control (w : Word)
  deriving DecidableEq, Repr

/-- A token: bare, or the text between quotes. -/
inductive Token where
  | bare (cs : List Char)
  | quoted (cs : List Char)
  deriving DecidableEq, Repr

/-- The double quote. -/
def quoteChar : Char := Char.ofNat 34

/-- The tokens of a line and its comment (R112: `;` starts a comment, outside quotes). Blanks, tabs and
commas separate tokens (DESIGN CHOICE: log 26). The last argument is the
token being read, reversed, and the flag says it is quoted; a quote that is never closed gives a token
that no operation takes. -/
def lexLine : List Char → Bool → List Char → List Token × List Char
  | [], true, cur => ([.bare (quoteChar :: cur.reverse)], [])
  | [], false, cur => (if cur.isEmpty then [] else [.bare cur.reverse], [])
  | ch :: rest, true, cur =>
    if ch = quoteChar then
      let (ts, cmt) := lexLine rest false []
      (.quoted cur.reverse :: ts, cmt)
    else lexLine rest true (ch :: cur)
  | ch :: rest, false, cur =>
    let done : List Token := if cur.isEmpty then [] else [.bare cur.reverse]
    if ch = ';' then (done, rest)
    else if ch = quoteChar then
      let (ts, cmt) := lexLine rest true []
      (done ++ ts, cmt)
    else if ch = ' ' ∨ ch = ',' ∨ ch = '\t' then
      let (ts, cmt) := lexLine rest false []
      (done ++ ts, cmt)
    else lexLine rest false (ch :: cur)

/-- The value of a digit below `base`. -/
def digitOf (base : Nat) (ch : Char) : Option Nat :=
  let v :=
    if '0' ≤ ch ∧ ch ≤ '9' then ch.toNat - '0'.toNat
    else if 'a' ≤ ch ∧ ch ≤ 'f' then ch.toNat - 'a'.toNat + 10
    else if 'A' ≤ ch ∧ ch ≤ 'F' then ch.toNat - 'A'.toNat + 10
    else base
  if v < base then some v else none

/-- The number some digits stand for, after `acc`. -/
def digitsOf (base : Nat) : List Char → Nat → Option Nat
  | [], acc => some acc
  | ch :: rest, acc =>
    match digitOf base ch with
    | some d => digitsOf base rest (acc * base + d)
    | none => none

/-- A decimal number, or a hexadecimal one with `0x` (R112). -/
def numberOf : List Char → Option Nat
  | '0' :: 'x' :: ds => if ds.isEmpty then none else digitsOf 16 ds 0
  | ds => if ds.isEmpty then none else digitsOf 10 ds 0

/-- A number that fits its field (R112). -/
def numberUpTo (limit : Nat) (cs : List Char) : Option Nat :=
  (numberOf cs).filter (· ≤ limit)

/-- A text character of ENQT's operand (R106, R112). -/
def textCharOf (ch : Char) : TextChar :=
  if ch = '.' then .dot else if ch = '-' then .dash else .other

/-- The pin levels a line's comment gives (R113: `pins DIT_N=<0|1> DAH_N=<0|1>`); released when it
gives none. A comment of `pins` and two tokens that are not of that form rejects nothing: a token other
than `DIT_N=0` in the first place, or `DAH_N=0` in the second, is read as level 1 (DESIGN CHOICE:
log 26). -/
def pinsOf (comment : List Char) : Bool × Bool :=
  match (lexLine comment false []).1 with
  | [.bare w, .bare d, .bare a] =>
    if w = "pins".toList then (d ≠ "DIT_N=0".toList, a ≠ "DAH_N=0".toList) else (true, true)
  | _ => (true, true)

/-- The command word of an instruction that has one. -/
def wordOf (i : Instr) : Word :=
  match encode i with
  | .word w => w
  | .bytes _ => 0

/-- READ then TICK (R113, FRAME). -/
def frameItems (pins : Bool × Bool) : List ProgramItem :=
  [.audio { word := wordOf .read, ditN := pins.1, dahN := pins.2 },
   .audio { word := wordOf .tick, ditN := pins.1, dahN := pins.2 }]

/-- One control-port instruction. -/
def controlItem (i : Instr) : List ProgramItem := [.control (wordOf i)]

/-- A setter with a 24-bit value (R112). -/
def setterItem (f : BitVec 24 → Instr) (num : List Char) : Option (List ProgramItem) :=
  (numberUpTo 16777215 num).map fun v => controlItem (f (BitVec.ofNat 24 v))

/-- SETV's operands (R112). -/
def volumeItem (ch vol : List Char) (mute : Bool) : Option (List ProgramItem) :=
  match numberUpTo 255 ch, numberUpTo 255 vol with
  | some ch, some vol => some (controlItem (.setv (BitVec.ofNat 8 ch) mute (BitVec.ofNat 8 vol)))
  | _, _ => none

/-- The symbol a name stands for (R112, R113). -/
def symbolNamed (cs : List Char) : Option Symbol :=
  if cs = "DIT".toList ∨ cs = "DOT".toList then some .dit
  else if cs = "DAH".toList ∨ cs = "DASH".toList then some .dah
  else if cs = "PAUSE".toList then some .pause
  else none

/-- ENQT of a text of at most 10 characters (R106, R112). -/
def textItem (cs : List Char) : Option (List ProgramItem) :=
  if cs.length ≤ 10 then
    let str := cs.map textCharOf
    some (controlItem (.enqt (stringCount str) (stringCodes str)))
  else none

/-- The items of a line's tokens (R112, R113); `none` rejects the line. The count of FRAMES stands in no
field, so every number is accepted: neither R112's list of rejected values nor R113 bounds it. -/
def itemsOf (pins : Bool × Bool) : List Token → Option (List ProgramItem)
  | [] => some []
  | [.bare m] =>
    if m = "READ".toList then
      some [.audio { word := wordOf .read, ditN := pins.1, dahN := pins.2 }]
    else if m = "TICK".toList then
      some [.audio { word := wordOf .tick, ditN := pins.1, dahN := pins.2 }]
    else if m = "CLR".toList then some (controlItem .clr)
    else if m = "FRAME".toList then some (frameItems pins)
    else if m = "MUTE".toList then some (controlItem (.setv 0 true 0))
    else none
  | [.bare m, .quoted text] => if m = "ENQT".toList then textItem text else none
  | [.bare m, .bare x] =>
    if m = "SETF".toList then setterItem .setf x
    else if m = "SETW".toList then setterItem .setw x
    else if m = "SETR".toList then setterItem .setr x
    else if m = "ENQ".toList then (symbolNamed x).map fun sym => controlItem (.enq sym)
    else if m = "FRAMES".toList then
      (numberOf x).map fun k => (List.replicate k (frameItems pins)).flatten
    else none
  | [.bare m, .bare ch, .bare vol] =>
    if m = "SETV".toList then volumeItem ch vol false else none
  | [.bare m, .bare ch, .bare vol, .bare flag] =>
    if m = "SETV".toList ∧ flag = "MUTE".toList then volumeItem ch vol true else none
  | _ => none

/-- Assemble one line (R112). -/
def assembleLine (line : String) : Option (List ProgramItem) :=
  let (tokens, comment) := lexLine line.toList false []
  itemsOf (pinsOf comment) tokens

/-- Assemble a program, one operation per line; one bad line rejects it. -/
def assemble : List String → Option (List ProgramItem)
  | [] => some []
  | line :: rest =>
    match assembleLine line, assemble rest with
    | some xs, some ys => some (xs ++ ys)
    | _, _ => none

/-- Put one item at its port and in the order of acceptance. A control operation gets the push steps
that complete it when the queue has room. -/
def State.load (s : State) : ProgramItem → State
  | .audio a => { s with audioIn := s.audioIn ++ [a], sched := s.sched ++ [.audio] }
  | .control w =>
    { s with controlIn := s.controlIn ++ [w],
             sched := s.sched ++ .control :: List.replicate (10 + s.par.ICP) .push }

/-- Put a program's items at the ports in the order written. -/
def State.loadProgram (s : State) (items : List ProgramItem) : State := items.foldl State.load s

end Sys2Proof.Machine
end

