-- ==== Sys2Proof/Tests/Slice0.lean ====
section
/-! SUPPORT. Tests. Expected values come from the spec: the words and chunks of 30_encoding.md R114 and
45_host_protocol.md R313, and the vectors of 95_test_vectors.md (V-…), named in each comment. The
witnesses at the end meet the hypotheses of the statements. -/

namespace Sys2Proof.Tests

open Sys2Proof.Machine

/-! ## WellFormed refuses an ill-formed term, for each check -/

/-- A code bit at `j >= n`. -/
theorem test_wf_refuses_unused_codes : Instr.wellFormed (.enqt 1 0x00004) = false := by decide
/-- The bytes beside the text range. -/
theorem test_wf_refuses_text_bytes :
    Instr.wellFormed (.hostText 0x1F) = false ∧ Instr.wellFormed (.hostText 0x5E) = false := by decide
/-- An id with a row of its own. -/
theorem test_wf_refuses_named_id : Instr.wellFormed (.hostAdminOther 28) = false := by decide
/-- A control byte with a row of its own. -/
theorem test_wf_refuses_named_control : Instr.wellFormed (.hostCtrlNop 0x15) = false := by decide
/-- A lower-case letter is text. -/
theorem test_wf_refuses_letter : Instr.wellFormed (.hostIgnored 0x61) = false := by decide

/-! ## Every constructor's decoding, from words written out by the spec's encoding -/

/-- Opcode 0x01; V-E2. -/
theorem test_decode_read : decode (.word 0x01FFFFFF) = .instr .read := by decide
/-- Opcode 0x02; V-E3. -/
theorem test_decode_tick : decode (.word 0x02000000) = .instr .tick := by decide
/-- 600 = 0x258; R114. -/
theorem test_decode_setf : decode (.word 0x10000258) = .instr (.setf 600) := by decide
/-- R114. -/
theorem test_decode_setw : decode (.word 0x11000096) = .instr (.setw 150) := by decide
/-- R114. -/
theorem test_decode_setr : decode (.word 0x12000005) = .instr (.setr 5) := by decide
/-- V-E9 with channel 1: reserved bits 15 to 9 set, mute clear. -/
theorem test_decode_setv : decode (.word 0x1301FE64) = .instr (.setv 1 false 100) := by decide
/-- V-E12: code 3 is a Pause. -/
theorem test_decode_enq : decode (.word 0x20000003) = .instr (.enq .pause) := by decide
/-- V-E13: n = 1, codes beyond the first dropped. -/
theorem test_decode_enqt : decode (.word 0x211FFFFC) = .instr (.enqt 1 0) := by decide
/-- V-E15. -/
theorem test_decode_clr : decode (.word 0x22ABCDEF) = .instr .clr := by decide
/-- V-E4, V-E16, V-E17. -/
theorem test_decode_unassigned :
    decode (.word 0x03000000) = .rejected .unassignedOpcode ∧
    decode (.word 0xFF000000) = .rejected .unassignedOpcode ∧
    decode (.word 0x14000000) = .rejected .unassignedOpcode := by decide
/-- R313: `61` is handled as `41`. -/
theorem test_decode_text : decode (.bytes [0x61]) = .instr (.hostText 0x41) := by decide
/-- R313: `00 02`. -/
theorem test_decode_hostopen : decode (.bytes [0x00, 0x02]) = .instr .hostAdminHostopen := by decide
/-- R313: `00 04 42`. -/
theorem test_decode_echo : decode (.bytes [0x00, 0x04, 0x42]) = .instr (.hostAdminEcho 0x42) := by
  decide
/-- R287: ids 5, 6, 7 and 9. -/
theorem test_decode_admin_zero_and_major :
    decode (.bytes [0x00, 0x05]) = .instr .hostAdmin5 ∧
    decode (.bytes [0x00, 0x06]) = .instr .hostAdmin6 ∧
    decode (.bytes [0x00, 0x07]) = .instr .hostAdmin7 ∧
    decode (.bytes [0x00, 0x09]) = .instr .hostAdminMajor := by decide
/-- R287: ids 10, 11 and 20. -/
theorem test_decode_admin_versions :
    decode (.bytes [0x00, 0x0A]) = .instr .hostAdminVersion1 ∧
    decode (.bytes [0x00, 0x0B]) = .instr .hostAdminVersion2 ∧
    decode (.bytes [0x00, 0x14]) = .instr .hostAdminVersion3 := by decide
/-- R287: ids 21, 23, 24, 25 and 28. -/
theorem test_decode_admin_fixed :
    decode (.bytes [0x00, 0x15]) = .instr .hostAdminVoltage ∧
    decode (.bytes [0x00, 0x17]) = .instr .hostAdminMinor ∧
    decode (.bytes [0x00, 0x18]) = .instr .hostAdminIctype ∧
    decode (.bytes [0x00, 0x19]) = .instr .hostAdminSidetonevol ∧
    decode (.bytes [0x00, 0x1C]) = .instr .hostAdminFwupdate := by decide
/-- V-H12 and R313: `00 1A 14`, `00 1B 3C`. -/
theorem test_decode_admin_setters :
    decode (.bytes [0x00, 0x1A, 0x14]) = .instr (.hostAdminRise 20) ∧
    decode (.bytes [0x00, 0x1B, 0x3C]) = .instr (.hostAdminFreq 60) := by decide
/-- R300: id 0 is one of the others. -/
theorem test_decode_admin_other : decode (.bytes [0x00, 0x00]) = .instr (.hostAdminOther 0) := by
  decide
/-- R313: `01 50`, `02 96`. -/
theorem test_decode_sidetone_speed :
    decode (.bytes [0x01, 0x50]) = .instr (.hostSidetone 80) ∧
    decode (.bytes [0x02, 0x96]) = .instr (.hostSpeed 150) := by decide
/-- R281: `07`, `0E`, `15`. -/
theorem test_decode_single_bytes :
    decode (.bytes [0x07]) = .instr .hostSpeedquery ∧
    decode (.bytes [0x0E]) = .instr .hostVersion3 ∧
    decode (.bytes [0x15]) = .instr .hostStatus := by decide
/-- V-H11: `03`, `5E`, `7F`; and 0xFF. -/
theorem test_decode_nop_ignored :
    decode (.bytes [0x03]) = .instr (.hostCtrlNop 3) ∧
    decode (.bytes [0x1F]) = .instr (.hostCtrlNop 31) ∧
    decode (.bytes [0x5E]) = .instr (.hostIgnored 0x5E) ∧
    decode (.bytes [0x7F]) = .instr (.hostIgnored 0x7F) ∧
    decode (.bytes [0xFF]) = .instr (.hostIgnored 0xFF) := by decide
/-- R312: a cut-off command. -/
theorem test_decode_truncated :
    decode (.bytes [0x00]) = .rejected .truncatedCommand ∧
    decode (.bytes [0x00, 0x04]) = .rejected .truncatedCommand ∧
    decode (.bytes [0x01]) = .rejected .truncatedCommand ∧
    decode (.bytes []) = .rejected .endOfChunk := by decide
/-- The opcode table's own numbers (log 17): a word, one, two and three bytes. -/
theorem test_decode_table :
    decodeTableWord 32 0x21200004 = some (.enqt 2 4) ∧
    decodeTableWord 8 0x15 = some .hostStatus ∧
    decodeTableWord 16 0x0002 = some .hostAdminHostopen ∧
    decodeTableWord 16 0x0296 = some (.hostSpeed 150) ∧
    decodeTableWord 24 0x000442 = some (.hostAdminEcho 0x42) ∧
    decodeTableWord 32 0x03000000 = none := by decide

/-! ## Steps -/

/-- The next state of an answer. -/
def after (r : Result) : State :=
  match r with
  | .next t => t
  | _ => State.reset

/-- The state one step after placing an instruction in the reset state. -/
def placed (nbits w : Nat) : State := after (step (State.reset.withFetchWord nbits w))

/-- Reset in Idle, as after V-T3. -/
def idle : State := { State.reset with K := .idle }

/-- A Dit at progress `p`, end index 2880 (V-T8). -/
def inDit (p : Nat) : State := { State.reset with K := .dit, p := p, e := 2880, IND := .manual }

/-- A Dah at progress `p`, end index 8640. -/
def inDah (p : Nat) : State := { State.reset with K := .dah, p := p, e := 8640, IND := .manual }

/-- A DitPause at progress `p`, end index 2880. -/
def inDitPause (p : Nat) : State :=
  { State.reset with K := .ditPause, p := p, e := 2880, IND := .manual }

/-- A DahPause at progress `p`, end index 2880. -/
def inDahPause (p : Nat) : State :=
  { State.reset with K := .dahPause, p := p, e := 2880, IND := .manual }

/-- V-S25. -/
theorem test_read : (placed 32 0x01000000).sink = [List.replicate 48 0] ∧
    (placed 32 0x01000000).APH = .awaitTick := by decide
/-- V-S26: the second READ in a row. -/
theorem test_read_pairing :
    (after (exec .read (placed 32 0x01000000))).FAULTS.pairingRead = true := by decide
/-- V-T1 and V-S28. -/
theorem test_tick : (placed 32 0x02000000).K = .initPause ∧ (placed 32 0x02000000).e = 48000 ∧
    (placed 32 0x02000000).p = 48 ∧ (placed 32 0x02000000).FAULTS.pairingTick = true := by
  decide
/-- V-T4: both paddles and a queued symbol. -/
theorem test_tick_paddles :
    let t := after (exec .tick { idle with ditN := false, dahN := false, Q := [.dah] })
    (t.K, t.Q, t.IND, t.e, t.p) = (.dit, [], .manual, 2880, 48) := by decide
/-- V-C1. -/
theorem test_setf : (placed 32 0x100002BC).FREQ = 700 ∧ (placed 32 0x100002BC).P = 69 ∧
    (placed 32 0x100002BC).D = 2898 := by decide
/-- V-C5. -/
theorem test_setw : (placed 32 0x11000000).WPM = 10 ∧ (placed 32 0x11000000).D = 5760 := by
  decide
/-- V-C8. -/
theorem test_setr : (placed 32 0x12000033).RISE = 50 ∧ (placed 32 0x12000033).R = 2400 := by
  decide
/-- V-C9. -/
theorem test_setv : (placed 32 0x13000032).VOL = 50 ∧
    (placed 32 0x13000032).T[20]? = some 16383 := by decide
/-- V-C11 and V-C12: a mute keeps the table, channel 1 changes nothing. -/
theorem test_setv_mute : (placed 32 0x13000000).VOL = 0 ∧
    (placed 32 0x13000000).T[20]? = some 32767 ∧ (placed 32 0x13010100).VOL = 100 := by
  decide
/-- V-Q2. -/
theorem test_enq : (placed 32 0x20000002).Q = [.pause] ∧ (placed 32 0x20000002).PEND = [] := by
  decide
/-- V-Q10: a full queue holds. -/
theorem test_enq_holds :
    let t := after (exec (.enq .dit) { idle with Q := List.replicate 16 .dah })
    t.PEND = [.dit] ∧ t.Q.length = 16 := by decide
/-- V-Q3: the first push, and what is in flight. -/
theorem test_enqt : (placed 32 0x21200004).Q = [.dit] ∧
    (placed 32 0x21200004).PEND = [.dah, .pause, .pause] := by decide
/-- V-Q6: n = 11 is ignored whole. -/
theorem test_enqt_reserved : (placed 32 0x21B00000).Q = [] ∧ (placed 32 0x21B00000).PEND = [] := by
  decide
/-- V-Q12. -/
theorem test_clr : (after (exec .clr { idle with Q := [.dah, .pause, .pause] })).Q = [] := by
  decide
/-- W4: `41`. -/
theorem test_text : (placed 8 0x41).Q = [.dit] ∧ (placed 8 0x41).PEND = [.dah, .pause, .pause] ∧
    (placed 8 0x41).hWait = true := by decide
/-- R313: `21` enqueues nothing. -/
theorem test_text_empty : (placed 8 0x21).PEND = [] ∧ (placed 8 0x21).scanAt = 1 := by decide
/-- W8. -/
theorem test_hostopen : (placed 16 0x0002).buf.take (placed 16 0x0002).replyAt = [0x1F, 0x03] ∧
    (placed 16 0x0002).hVersion = .v1 := by decide
/-- W7. -/
theorem test_echo : (placed 24 0x000442).buf.take (placed 24 0x000442).replyAt = [0x42] := by
  decide
/-- V-H4, V-H5: the fixed replies of ids 5, 6, 7, 9, 21, 23, 24. -/
theorem test_fixed_replies :
    [5, 6, 7, 9, 21, 23, 24].map (fun id => (placed 16 id).buf.take (placed 16 id).replyAt) =
      [[0x00], [0x00], [0x00], [0x1F], [0x34], [0x03], [0x01]] := by decide
/-- R292: ids 10, 11 and 20. -/
theorem test_versions : [10, 11, 20].map (fun id => (placed 16 id).hVersion) = [.v1, .v2, .v3] := by
  decide
/-- V-H10, R300: no-ops of 2 bytes. -/
theorem test_admin_nops : (placed 16 0x0019).scanAt = 2 ∧ (placed 16 0x0019).replyAt = 0 ∧
    (placed 16 0x0001).scanAt = 2 ∧ (placed 16 0x0001).replyAt = 0 := by decide
/-- R313: `00 1A 00`. -/
theorem test_rise : (placed 24 0x001A00).RISE = 1 ∧ (placed 24 0x001A00).scanAt = 3 := by
  decide
/-- R299: 255 sets 2550 Hz. -/
theorem test_freq : (placed 24 0x001BFF).FREQ = 2550 := by decide
/-- R296: the call never returns. -/
theorem test_fwupdate : (placed 16 0x001C).fwUpdate = true ∧ (placed 16 0x001C).scanAt = 0 := by
  decide
/-- R313: `01 50`, and `01 0E` is out of range. -/
theorem test_sidetone : (placed 16 0x0150).FREQ = 781 ∧ (placed 16 0x010E).FREQ = 600 ∧
    (placed 16 0x010E).scanAt = 2 := by decide
/-- R313: an old version takes the table's entry 5 (log 3: 800 Hz). -/
theorem test_sidetone_old :
    (after (exec (.hostSidetone 5) { idle with hVersion := .v1 })).FREQ = 800 := by decide
/-- R313: `02 96`. -/
theorem test_speed : (placed 16 0x0296).WPM = 99 := by decide
/-- R313: `07` replies 0x94. -/
theorem test_speedquery : (placed 8 0x07).buf.take (placed 8 0x07).replyAt = [0x94] := by
  decide
/-- R303: at 99 WPM the reply is 0xA3. -/
theorem test_speedquery_mask :
    (after (exec .hostSpeedquery { idle with WPM := 99, buf := [0x07] })).buf = [0xA3] := by
  decide
/-- R304. -/
theorem test_version3 : (after (exec .hostVersion3 { idle with hVersion := .v1 })).hVersion = .v3 := by
  decide
/-- R313: `15`. -/
theorem test_status : (placed 8 0x15).buf.take (placed 8 0x15).replyAt = [0xC0] := by decide
/-- V-H11. -/
theorem test_nop_ignored : (placed 8 0x03).scanAt = 1 ∧ (placed 8 0x7F).scanAt = 1 := by
  decide

/-! ## The tables and the render -/

/-- V-S1. -/
theorem test_tone_table :
    [0, 1, 10, 20, 40, 60, 79].map (fun i => (genTone .reference 600 80 100 i).toInt) =
      [0, 2570, 23169, 32767, 0, -32767, -2570] := by decide
/-- V-S14, V-S15, V-S17, V-S18, from R197. -/
theorem test_render :
    [10, 20, 100, 180, 239, 240, 1060, 2660, 2700, 2860, 2879, 2880].map
        (fun q => ((inDit 0).sampleAt q).map BitVec.toInt) =
      [some 35, some 207, some 7251, some 25347, some (-2569), some 0, some 32767, some 31857,
        some (-25347), some (-207), some 0, some 0] := by decide
/-- V-T8: the extra buffer past the end index is silent. -/
theorem test_tick_past_end :
    let t := after (exec .tick (inDit 2880))
    (t.K, t.p, t.OUT) = (.dit, 2928, List.replicate 48 0) := by decide
/-- V-S12 and R184: 0.34 at the middle, 1 at the end. -/
theorem test_env_table : 100 * genEnv .reference 48 24 = 34 * envOne ∧
    genEnv .reference 48 48 = envOne ∧ genEnv .reference 48 0 = 0 := by decide

/-! ## Decoder runs, stuck states, the assembler -/

/-- R313: `15 00 04` replies `C0` and drops the cut-off echo. -/
theorem test_chunk_reply :
    (after (Host.Core.run core 3
      { State.reset with serialIn := [[0x15, 0x00, 0x04]],
                         sched := [.host, .host, .host] })).replies = [[0xC0]] := by decide
/-- V-F4 and V-F5. -/
theorem test_wrong_port :
    (after (step { State.reset with sched := [.audio], audioIn := [⟨0x20000000, true, true⟩] })).FAULTS.wrongPort
      = true ∧
    (after (step { State.reset with sched := [.control], controlIn := [0x02000000] })).FAULTS.wrongPort
      = true := by decide
/-- V-F3: the record, then the stuck model. -/
theorem test_reserved_state :
    (after (exec .tick { idle with K := .reserved })).FAULTS.reservedState = true ∧
    step { idle with FAULTS := { idle.FAULTS with reservedState := true } } =
      .fault .reservedState := ⟨by decide, rfl⟩
/-- R114: texts to words. -/
theorem test_assemble :
    assemble ["SETF 600", "SETV 0, 0, MUTE ; silence", "ENQ DAH", "ENQT \"-.-\"", "CLR"] =
      some [.control 0x10000258, .control 0x13000100, .control 0x20000001, .control 0x21300011,
        .control 0x22000000] := by decide
/-- R112: a value that does not fit its field is rejected. -/
theorem test_assemble_rejects : assembleLine "SETF 16777216" = none ∧
    assembleLine "SETV 256, 1" = none ∧ assembleLine "ENQT \"...........\"" = none := by
  decide
/-- R113: FRAMES repeats FRAME, and its count may be 0. -/
theorem test_assemble_frames :
    assembleLine "FRAMES 2" = some (frameItems (true, true) ++ frameItems (true, true)) ∧
    assembleLine "FRAMES 0" = some [] := by decide
/-- R113: a FRAME with pins, and hexadecimal. -/
theorem test_assemble_frame :
    assemble ["FRAME ; pins DIT_N=0 DAH_N=1", "SETW 0x14"] =
      some [.audio ⟨0x01000000, false, true⟩, .audio ⟨0x02000000, false, true⟩,
        .control 0x11000014] := by decide
/-- R72 (log 20): -2 as bytes FE FF. -/
theorem test_pcm_bytes : pcmBytes [0xFFFE, 0x0102] = [0xFE, 0xFF, 0x02, 0x01] := by decide

/-! ## Witnesses: concrete states and operands that meet the hypotheses of the statements -/

theorem witness_params_ok : Params.reference.Ok := by decide

/-- ResetIsLegal, StepKeepsInvariant, LegalRunsNeverStop, RegistersFitTheirWidths. -/
theorem witness_inv_reset : Inv State.reset :=
  inv_regenerate State.reset
    ⟨witness_params_ok, by decide, by decide, by decide, by decide⟩
    (by decide) (by decide) (by decide)

theorem witness_step_reset : ∃ t, step State.reset = .next t ∧ Inv t :=
  ⟨State.reset, rfl, witness_inv_reset⟩

/-- A state that differs from reset in the keyer, the queue, the pins and the enqueue in flight is legal
when those are. -/
theorem inv_of_parts (s : State) (hc : ConfigLegal s = ConfigLegal State.reset)
    (ht : TablesDerived s = TablesDerived State.reset) (hk : KeyerLegal s) (hs : StorageLegal s)
    (hd : DecoderLegal s) : Inv s :=
  ⟨hc.mpr witness_inv_reset.1, ht.mpr witness_inv_reset.2.1, hk, hs, hd⟩

theorem witness_inv_idle : Inv idle :=
  inv_of_parts idle rfl rfl (by decide) (by decide) (by decide)

/-- DecodeOfEncodeIsIdentity, SerialCommandDecodesInContext, DecodersGiveWellFormed: operands at the end of
their ranges. -/
theorem witness_well_formed :
    Instr.wellFormed (.enqt 10 0xFFFFF) = true ∧ Instr.wellFormed (.enqt 15 0) = true ∧
    Instr.wellFormed (.hostText 0x20) = true ∧ Instr.wellFormed (.hostText 0x5D) = true ∧
    Instr.wellFormed (.hostAdminOther 255) = true ∧ Instr.wellFormed (.hostCtrlNop 3) = true ∧
    Instr.wellFormed (.hostIgnored 0x60) = true ∧
    encode (.hostAdminEcho 0x42) = .bytes [0x00, 0x04, 0x42] ∧
    decode (.bytes [0x5D]) = .instr (.hostText 0x5D) := by decide

/-- ReservedBitsAreIgnored: codes that agree below `n` and differ above. -/
theorem witness_reserved_codes :
    (∀ j, j < (2#4).toNat →
      (0x00014#20).extractLsb' (2 * j) 2 = (0x00004#20).extractLsb' (2 * j) 2) ∧
    (0x00014#20) ≠ 0x00004#20 := by decide

/-- OnlyCutOffCommandsStopTheScan (its left side), LowerCaseDecodesAsUpperCase. -/
theorem witness_letters : 0x61#8 ≤ (0x61#8 : Byte) ∧ (0x61#8 : Byte) ≤ 0x7A#8 ∧
    0x61#8 ≤ (0x7A#8 : Byte) ∧ (0x7A#8 : Byte) ≤ 0x7A#8 := by decide

theorem witness_running : Running State.reset := ⟨witness_params_ok, rfl, rfl, rfl⟩

/-- StepRunsTheDecodedInstruction, each clause. -/
theorem witness_step_audio :
    let s := { State.reset with sched := [.audio], audioIn := [⟨0x02000000, false, true⟩] }
    Running s ∧ s.sched = [.audio] ∧ portOf 0x02000000 = .audio ∧
      decodeWord 0x02000000 = .instr .tick := ⟨witness_running, rfl, by decide, by decide⟩
theorem witness_step_control :
    let s := { State.reset with sched := [.control], controlIn := [0x22000000] }
    Running s ∧ s.PEND = [] ∧ portOf 0x22000000 = .control ∧ decodeWord 0x22000000 = .instr .clr :=
  ⟨witness_running, rfl, by decide, by decide⟩
theorem witness_step_host :
    let s := { State.reset with sched := [.host], buf := [0x15, 0x07], scanAt := 1 }
    Running s ∧ s.hWait = false ∧ s.buf ≠ [] ∧
      decodeHost (s.buf.drop s.scanAt) = .instr .hostSpeedquery ∧
      (s.issuesControl .hostSpeedquery = true → s.PEND = []) :=
  ⟨witness_running, rfl, by decide, by decide, fun _ => rfl⟩

/-- WrongPortWordIsRefused, UnassignedOpcodeIsIgnored: opcodes at the ends of the two ranges. -/
theorem witness_opcodes :
    0x10 ≤ (opcodeOf 0x10000000).toNat ∧ (opcodeOf 0x0F000000).toNat ≤ 0x0F ∧
    opcodeOf 0x0F000000 ≠ 0x01 ∧ opcodeOf 0x0F000000 ≠ 0x02 ∧ opcodeOf 0x00000000 ≠ 0x01 ∧
    0x10 ≤ (opcodeOf 0x14000000).toNat ∧
    opcodeOf 0x14000000 ∉ ([0x10, 0x11, 0x12, 0x13, 0x20, 0x21, 0x22] : List Byte) ∧
    opcodeOf 0xFF000000 ∉ ([0x10, 0x11, 0x12, 0x13, 0x20, 0x21, 0x22] : List Byte) := by decide

/-- The same clauses with whole states. -/
theorem witness_ports :
    (let s := { State.reset with sched := [.audio], audioIn := [⟨0x10000000, true, true⟩] }
     Running s ∧ s.sched = .audio :: [] ∧ s.audioIn = ⟨0x10000000, true, true⟩ :: []) ∧
    (let s := { State.reset with sched := [.control], controlIn := [0x0F000000] }
     Running s ∧ s.sched = .control :: [] ∧ s.controlIn = 0x0F000000 :: [] ∧ s.PEND = []) ∧
    (let s := { State.reset with sched := [.audio], audioIn := [⟨0x0F000000, true, true⟩] }
     Running s ∧ s.sched = .audio :: [] ∧ s.audioIn = ⟨0x0F000000, true, true⟩ :: []) ∧
    (let s := { State.reset with sched := [.control], controlIn := [0xFF000000] }
     Running s ∧ s.sched = .control :: [] ∧ s.controlIn = 0xFF000000 :: [] ∧ s.PEND = []) :=
  ⟨⟨witness_running, rfl, rfl⟩, ⟨witness_running, rfl, rfl, rfl⟩, ⟨witness_running, rfl, rfl⟩,
    witness_running, rfl, rfl, rfl⟩

/-- A full queue with an enqueue in flight, in Idle. -/
def held : State := { idle with Q := List.replicate 16 .dit, PEND := [.dah], ditN := true, dahN := true }

theorem witness_inv_held : Inv held :=
  inv_of_parts held rfl rfl (by decide) (by decide) (by decide)

/-- EnqueueInFlightHoldsTheControlPortOnly, each clause. -/
theorem witness_in_flight :
    Running held ∧ held.PEND ≠ [] ∧
    (let s := { held with sched := [.control], controlIn := [0x22000000] }
     Running s ∧ s.PEND ≠ [] ∧ s.sched = .control :: []) ∧
    (let s := { held with sched := [.host], hWait := true }
     Running s ∧ s.PEND ≠ [] ∧ s.sched = .host :: [] ∧ s.hWait = true) ∧
    (let s := { held with sched := [.host], buf := [0x02, 0x14] }
     s.buf ≠ [] ∧ decodeHost (s.buf.drop s.scanAt) = .instr (.hostSpeed 0x14) ∧
       s.issuesControl (.hostSpeed 0x14) = true) ∧
    (let s := { held with sched := [.audio], audioIn := [⟨0x01000000, true, true⟩] }
     s.sched = [.audio] ∧ decodeWord 0x01000000 = .instr .read) :=
  ⟨witness_running, by decide, ⟨witness_running, by decide, rfl⟩,
    ⟨witness_running, by decide, rfl, rfl⟩, ⟨by decide, by decide, rfl⟩, rfl, by decide⟩

/-- BadParametersAreRefused: `B = 0`, and a state that holds it. -/
theorem witness_bad_params :
    ¬ Params.Ok { Params.reference with B := 0 } ∧
    step { State.reset with par := { Params.reference with B := 0 } } = .refused .parameters :=
  ⟨by decide, rfl⟩

/-- ReservedStateLeavesTheModelStuck, each clause. -/
theorem witness_stuck :
    ({ idle with K := .reserved } : State).K = .reserved ∧
    (let s := { idle with FAULTS := { idle.FAULTS with reservedState := true } }
     s.par.Ok ∧ s.FAULTS.reservedState = true) ∧
    (let s := { idle with FAULTS := { idle.FAULTS with tableIndex := true } }
     s.par.Ok ∧ s.FAULTS.reservedState = false ∧ s.FAULTS.tableIndex = true) :=
  ⟨rfl, ⟨witness_params_ok, rfl⟩, witness_params_ok, rfl, rfl⟩

/-- ChunkEndReturnsTheReplies: at the end of the chunk, at a cut-off command, with a chunk waiting, and
with none. -/
theorem witness_chunk_end :
    (let s := { State.reset with sched := [.host], buf := [0xC0], scanAt := 1, replyAt := 1 }
     Running s ∧ s.hWait = false ∧ s.buf ≠ [] ∧
       decodeHost (s.buf.drop s.scanAt) = .rejected .endOfChunk) ∧
    (let s := { State.reset with sched := [.host], buf := [0x01] }
     Running s ∧ s.hWait = false ∧ s.buf ≠ [] ∧
       decodeHost (s.buf.drop s.scanAt) = .rejected .truncatedCommand) ∧
    (let s := { State.reset with sched := [.host], serialIn := [[0x15], [0x07]] }
     Running s ∧ s.hWait = false ∧ s.buf = [] ∧ s.serialIn = [0x15] :: [[0x07]]) ∧
    (let s := { State.reset with sched := [.host] }
     Running s ∧ s.hWait = false ∧ s.buf = [] ∧ s.serialIn = []) :=
  ⟨⟨witness_running, rfl, by decide, by decide⟩, ⟨witness_running, rfl, by decide, by decide⟩,
    ⟨witness_running, rfl, rfl, rfl⟩, witness_running, rfl, rfl, rfl⟩

/-- ResetValues: the premises of its last clause. -/
theorem witness_reset_defaults :
    let c := Params.reference
    c.SR = 48000 ∧ c.F_MIN ≤ 600 ∧ 600 ≤ c.F_MAX ∧ c.DIT_ARITH = .exact ∧ c.DEFAULT_FREQ = 600 ∧
      c.DEFAULT_WPM = 20 ∧ c.DEFAULT_RISE = 5 := by decide

/-- FaultMarksAreNeverCleared, ParametersNeverChange: a step of a state with a record. -/
theorem witness_fault_step :
    let s := { State.reset with FAULTS := { State.reset.FAULTS with wrongPort := true } }
    s.FAULTS.wrongPort = true ∧ ∃ t, step s = .next t := ⟨rfl, _, rfl⟩

/-- OnlyTickMovesTheKeyer, OnlySettersWriteTheConfiguration, SerialCommandsLeaveTheAudioSide,
RepliesNeverOutrunTheScan, ReadNeverChangesTheNextTick. -/
theorem witness_exec :
    (∃ t, exec .clr idle = .next t) ∧ (∃ t, exec .read idle = .next t) ∧
    (∃ t, exec .hostAdminHostopen idle = .next t) ∧
    encode .hostAdminHostopen = .bytes [0x00, 0x02] ∧
    ∃ r t u, exec .read idle = .next r ∧ exec .tick idle = .next t ∧ exec .tick r = .next u :=
  ⟨⟨_, rfl⟩, ⟨_, rfl⟩, ⟨_, rfl⟩, rfl, _, _, _, rfl, rfl, rfl⟩

/-- OnlyTickMovesTheKeyer, OnlySettersWriteTheConfiguration: a step of each exempted kind, and one of
neither. -/
theorem witness_exempt_steps :
    (let s := { idle with sched := [.audio], audioIn := [⟨0x02000000, false, true⟩] }
     decodeWord 0x02000000 = .instr .tick ∧ ∃ t, step s = .next t ∧ t.K ≠ s.K) ∧
    (let s := { idle with sched := [.control], controlIn := [0x110000FF] }
     decodeWord 0x110000FF = .instr (.setw 255) ∧ ∃ t, step s = .next t ∧ t.WPM ≠ s.WPM) ∧
    (let s := { idle with sched := [.host], buf := [0x02, 0x63] }
     decodeHost (s.buf.drop s.scanAt) = .instr (.hostSpeed 99) ∧
       ∃ t, step s = .next t ∧ t.WPM ≠ s.WPM) ∧
    (let s := { idle with sched := [.push], PEND := [.dit] }
     ∃ t, step s = .next t ∧ t.Q ≠ s.Q) :=
  ⟨⟨by decide, _, rfl, by decide⟩, ⟨by decide, _, rfl, by decide⟩,
    ⟨by decide, _, rfl, by decide⟩, _, rfl, by decide⟩

/-- The end indices of the states below keep their bound. -/
theorem witness_bound : 8640 ≤ max State.reset.par.SR (3 * State.reset.par.dMax) := by decide

theorem witness_inv_dit (p : Nat) (h : p ≤ 2928) : Inv (inDit p) :=
  inv_of_parts (inDit p) rfl rfl
    ⟨by simp [inDit], h, (by decide : 2880 ≤ 8640).trans witness_bound, by simp [inDit], by simp [inDit],
      .inl rfl, by simp [inDit]⟩ witness_inv_idle.2.2.2.1 witness_inv_idle.2.2.2.2

theorem witness_inv_dah (p : Nat) (h : p ≤ 8688) : Inv (inDah p) :=
  inv_of_parts (inDah p) rfl rfl
    ⟨by simp [inDah], h, witness_bound, by simp [inDah], by simp [inDah],
      .inl rfl, by simp [inDah]⟩ witness_inv_idle.2.2.2.1 witness_inv_idle.2.2.2.2

theorem witness_inv_ditPause (p : Nat) (h : p ≤ 2928) : Inv (inDitPause p) :=
  inv_of_parts (inDitPause p) rfl rfl
    ⟨by simp [inDitPause], h, (by decide : 2880 ≤ 8640).trans witness_bound, by simp [inDitPause], by simp [inDitPause],
      .inl rfl, by simp [inDitPause]⟩ witness_inv_idle.2.2.2.1 witness_inv_idle.2.2.2.2

theorem witness_inv_dahPause (p : Nat) (h : p ≤ 2928) : Inv (inDahPause p) :=
  inv_of_parts (inDahPause p) rfl rfl
    ⟨by simp [inDahPause], h, (by decide : 2880 ≤ 8640).trans witness_bound, by simp [inDahPause], by simp [inDahPause],
      .inl rfl, by simp [inDahPause]⟩ witness_inv_idle.2.2.2.1 witness_inv_idle.2.2.2.2

/-- An InitPause past its end, as before TICK 1002 (V-T3). -/
def endOfInitPause : State := { State.reset with K := .initPause, p := 48048, e := 48000 }

theorem witness_inv_initPause : Inv endOfInitPause :=
  inv_of_parts endOfInitPause rfl rfl (by decide) (by decide) (by decide)

/-- TickFromInitEntersInitPause, StartUpGuardLastsOneSecond with 1001 and with 1002 TICKs. -/
theorem witness_init : Inv State.reset ∧ State.reset.K = .init ∧ State.reset.par.EXPIRY_CMP = .gt ∧
    (List.replicate 1001 (false, true)).length ≤ State.reset.par.SR / State.reset.par.B + 1 ∧
    (List.replicate 1002 (false, true)).length = State.reset.par.SR / State.reset.par.B + 2 :=
  ⟨witness_inv_reset, rfl, rfl, by rw [List.length_replicate]; decide,
    by rw [List.length_replicate]; decide⟩

/-- An InitPause at its end index, one TICK before endOfInitPause. -/
def lastOfInitPause : State := { State.reset with K := .initPause, p := 48000, e := 48000 }

/-- DitAndDahEndInTheirPause: an InitPause at its end index, a paddle pressed and a symbol queued. -/
theorem witness_initPause_window :
    Inv { lastOfInitPause with ditN := false, Q := [.dah] } ∧
    ¬ PastEnd { lastOfInitPause with ditN := false, Q := [.dah] } :=
  ⟨inv_of_parts _ rfl rfl (by decide) (by decide) (by decide), by decide⟩

/-- DitAndDahEndInTheirPause at the end index and one buffer past it. -/
theorem witness_dit_dah :
    Inv (inDit 2880) ∧ ¬ PastEnd (inDit 2880) ∧ Inv (inDit 2928) ∧ PastEnd (inDit 2928) ∧
    Inv (inDah 8640) ∧ ¬ PastEnd (inDah 8640) ∧ Inv (inDah 8688) ∧ PastEnd (inDah 8688) :=
  ⟨witness_inv_dit 2880 (by decide), by decide, witness_inv_dit 2928 (by decide),
    by decide, witness_inv_dah 8640 (by decide), by decide,
    witness_inv_dah 8688 (by decide), by decide⟩

/-- PauseWindowLatchesTheOppositePaddle, PauseExpiryGoesDirectlyToTheOppositeSymbol, and
IdleResolutionFollowsThePriority, each case at its boundary. -/
theorem witness_pauses :
    Inv (inDitPause 2880) ∧ ¬ PastEnd (inDitPause 2880) ∧ Inv (inDitPause 2928) ∧
    PastEnd (inDitPause 2928) ∧ (inDitPause 2928).dahN = true ∧
    PastEnd { inDitPause 2928 with dahN := false } ∧
    Inv (inDahPause 2880) ∧ ¬ PastEnd (inDahPause 2880) ∧ Inv (inDahPause 2928) ∧
    PastEnd (inDahPause 2928) ∧ (inDahPause 2928).ditN = true ∧
    Inv endOfInitPause ∧ PastEnd endOfInitPause ∧ Inv idle ∧ idle.K = .idle :=
  ⟨witness_inv_ditPause 2880 (by decide), by decide, witness_inv_ditPause 2928 (by decide),
    by decide, rfl, by decide, witness_inv_dahPause 2880 (by decide),
    by decide, witness_inv_dahPause 2928 (by decide), by decide, rfl,
    witness_inv_initPause, by decide, witness_inv_idle, rfl⟩

/-- The paddle pressed at those boundaries is legal too: pins are inputs. -/
theorem witness_pause_pressed :
    Inv { inDitPause 2928 with dahN := false } ∧ Inv { inDahPause 2928 with ditN := false } :=
  ⟨inv_pins _ (witness_inv_ditPause 2928 (by decide)) _ _,
    inv_pins _ (witness_inv_dahPause 2928 (by decide)) _ _⟩

/-- SilenceOutsideSoundingPositions: a state that is not sounding, and the buffer past a Dit's end. -/
theorem witness_silence :
    (∃ t, exec .tick endOfInitPause = .next t ∧ t.K ≠ .dit ∧ t.K ≠ .dah) ∧
    ∃ t, exec .tick (inDit 2880) = .next t ∧ (0 < (inDit 2880).par.B ∧ t.K = .dit ∧
      t.e ≤ t.p - (inDit 2880).par.B + 0) :=
  ⟨⟨_, rfl, by decide, by decide⟩,
    _, rfl, by decide, by decide, by decide⟩

/-- SilenceOutsideSoundingPositions with the volume 0: a muted Dit is a legal state. -/
theorem witness_muted : Inv { inDit 48 with VOL := 0 } ∧
    ({ inDit 48 with VOL := 0 } : State).VOL = 0 ∧
    ∃ t, exec .tick { inDit 48 with VOL := 0 } = .next t :=
  ⟨inv_setVolume (inDit 48) 0 true 0 (witness_inv_dit 48 (by decide)), rfl, _, rfl⟩

/-- StateLastsFloorPlusOneTicks with 60 and with 61 TICKs. -/
theorem witness_lasts :
    Inv (inDit 48) ∧ (inDit 48).par.EXPIRY_CMP = .gt ∧ (inDit 48).K ≠ .init ∧ (inDit 48).K ≠ .idle ∧
    (inDit 48).p = (inDit 48).par.B ∧
    (List.replicate 60 (true, true)).length ≤ (inDit 48).e / (inDit 48).par.B ∧
    (List.replicate 61 (true, true)).length = (inDit 48).e / (inDit 48).par.B + 1 :=
  ⟨witness_inv_dit 48 (by decide), rfl, by decide, by decide, rfl, by decide, by decide⟩

/-- HeldDitNeverReturnsToIdle, BothPaddlesHeldAlternate. -/
theorem witness_held : Inv idle ∧ idle.K = .idle ∧ 1 ≤ 1 := ⟨witness_inv_idle, rfl, le_refl 1⟩

/-- SymbolsAreWholeTonePeriods: a Dit entered from Idle. -/
theorem witness_symbol :
    let s := { idle with ditN := false, dahN := true }
    Inv s ∧ ∃ t, exec .tick s = .next t ∧ t.K = .dit ∧ t.K ≠ s.K :=
  ⟨inv_pins _ witness_inv_idle _ _, _, rfl, by decide, by decide⟩

/-- SymbolsAreWholeTonePeriods: the TICK that renders the last position of a Dit (V-S17) and of a Dah
(V-S20), with the period, rise and volume of its last clause. -/
theorem witness_last_sample :
    (let s := inDit 2832
     Inv s ∧ 47 < s.par.B ∧ ∃ t, exec .tick s = .next t ∧ t.K = .dit ∧
       t.p - s.par.B + 47 + 1 = t.e ∧ 0 < t.VOL ∧ t.R < t.e ∧ t.P = 80 ∧ t.R = 240 ∧ t.VOL = 100 ∧
       t.P ∣ t.e) ∧
    (let s := inDah 8592
     Inv s ∧ ∃ t, exec .tick s = .next t ∧ t.K = .dah ∧ t.p - s.par.B + 47 + 1 = t.e) :=
  ⟨⟨witness_inv_dit 2832 (by decide), by decide, _, rfl, by decide, by decide, by decide, by decide,
    by decide, by decide, by decide, by decide⟩,
    witness_inv_dah 8592 (by decide), _, rfl, by decide, by decide⟩

/-- NumericsHaveTheNamedProperties, ReferenceTablesHaveTheirShape. -/
theorem witness_numerics :
    Params.reference.NUMERICS = .reference ∧ Params.reference.TONE_PHASE = .cycle ∧ 1 ≤ 80 ∧
      100 ≤ 100 ∧ 80 % 4 = 0 ∧ 1 ≤ 48 ∧ 48 % 2 = 0 ∧ 0 < 1 ∧ 1 < 80 ∧ 79 < 80 ∧
      (240 = 48 ∨ 240 = 240) ∧ 239 ≤ 240 ∧ 240 ≤ 240 := by decide

/-- PushStepsDeliverInOrder: V-Q11, an enqueue that does not fit (two free slots, four symbols, three
push steps); room for one; a full queue; nothing in flight. -/
theorem witness_push :
    (let s := { idle with Q := List.replicate 14 .dit, PEND := [.dit, .dah, .pause, .pause],
                          sched := [.push, .push, .push] }
     Running s ∧ s.PEND ≠ [] ∧ s.sched = List.replicate 3 .push ++ [] ∧
       (after (Host.Core.run core 3 s)).PEND = [.pause, .pause]) ∧
    (let s := { idle with Q := List.replicate 15 .dit, PEND := [.dah], sched := [.push] }
     Running s ∧ s.sched = .push :: [] ∧ s.PEND = .dah :: [] ∧ s.Q.length < s.par.QCAP) ∧
    (let s := { held with sched := [.push] }
     Running s ∧ s.sched = .push :: [] ∧ s.par.QCAP ≤ s.Q.length) ∧
    (let s := { idle with sched := [.push] }
     Running s ∧ s.sched = .push :: [] ∧ s.PEND = []) :=
  ⟨⟨witness_running, by decide, rfl, by decide⟩, ⟨witness_running, rfl, rfl, by decide⟩,
    ⟨witness_running, rfl, by decide⟩, witness_running, rfl, rfl⟩

/-- EnqtTakesItsText: the counts 10 and 11; PushStepsDeliverInOrder: an enqueue that just fits. -/
theorem witness_enqueue :
    10 < (11#4).toNat ∧ (10#4).toNat ≤ 10 ∧
    (let s := { idle with Q := List.replicate 14 .dit, PEND := [.pause, .pause],
                          sched := [.push, .push] }
     Running s ∧ s.PEND ≠ [] ∧ s.Q.length + s.PEND.length ≤ s.par.QCAP ∧
       s.sched = List.replicate s.PEND.length .push ++ []) :=
  ⟨by decide, by decide, witness_running, by decide, by decide, rfl⟩

/-- OnlyATickLiftsAHold: a TICK that pops. -/
theorem witness_lift :
    let s := { held with sched := [.audio], audioIn := [⟨0x02000000, true, true⟩] }
    Inv s ∧ s.PEND ≠ [] ∧ ∃ t, step s = .next t ∧ t.Q.length < s.Q.length :=
  ⟨witness_inv_held, by decide, _, rfl, by decide⟩

/-- RegenerationRecomputesEverything, DitLengthIsRoundedUpToWholePeriods,
UnmutedSettersTouchTheirOwnTablesOnly, SpeedQueryReplies. -/
theorem witness_regeneration : Inv State.reset ∧ State.reset.par.DIT_ARITH = .exact ∧
    State.reset.VOL ≠ 0 := ⟨witness_inv_reset, rfl, by decide⟩

/-- RepeatedSetterIsBitIdentical. -/
theorem witness_setter : ∃ t, exec (.setf 700) State.reset = .next t := ⟨_, rfl⟩

/-- VersionAndNoOpCommands: operands at the ends of the ranges. -/
theorem witness_nops :
    (255 : Byte) ∉ ([2, 4, 5, 6, 7, 9, 10, 11, 20, 21, 23, 24, 25, 26, 27, 28] : List Byte) ∧
    (3 : BitVec 5) ∉ ([0x00, 0x01, 0x02, 0x07, 0x0E, 0x15] : List (BitVec 5)) ∧
    (0x5E#8 ≤ (0x5E : Byte) ∧ (0x5E : Byte) ≤ 0x60#8) ∧ 0x7B#8 ≤ (0x7B : Byte) := by decide

/-- SidetoneByVersion, each clause at the ends of its range. -/
theorem witness_sidetone :
    ({ idle with hVersion := .v1 } : State).hVersion ≠ .v3 ∧
    ({ idle with hVersion := .v2 } : State).hVersion ≠ .v3 ∧ idle.hVersion = .v3 ∧
    1 ≤ (1 : Byte).toNat ∧ (10 : Byte).toNat ≤ 10 ∧ 10 < (11 : Byte).toNat ∧ (0 : Byte).toNat < 1 ∧
    15 ≤ (15 : Byte).toNat ∧ (125 : Byte).toNat ≤ 125 ∧ 125 < (126 : Byte).toNat ∧
    (14 : Byte).toNat < 15 := by decide

/-- TextEnqueuesItsMorse: a byte without a string, and E, whose three symbols are those of the rule. -/
theorem witness_text :
    idle.par.Ok ∧ morseOf idle.par 0x21 = [] ∧ morseOf idle.par 0x45 = [.dot] ∧
    Symbol.dit :: [.pause, .pause] =
      ([TextChar.dot].map fun
          | .dot => Symbol.dit
          | .dash => .dah
          | .other => .pause) ++ List.replicate (idle.par.ICP - 1) .pause :=
  ⟨witness_params_ok, by decide, by decide, rfl⟩

/-- IndicatorShowsItsColour: each code. -/
theorem witness_indicator :
    idle.IND = .off ∧ (inDit 0).IND = .manual ∧
    ({ inDit 0 with IND := .queued } : State).IND = .queued := ⟨rfl, rfl, rfl⟩

end Sys2Proof.Tests
end

section
/-! The register widths of 00_scope.md R13: the parameter bounds of R11 carried through the derived
sizes `P_MAX`, `R_MAX` and `D_MAX`, and then through the invariant. -/

namespace Sys2Proof.Machine

/-! ## The derived sizes of admissible parameters -/

/-- `P_MAX` is at most the sample rate: the lowest frequency is at least 1 Hz (R11). -/
theorem pMax_le_sampleRate {c : Params} (h : c.Ok) : c.pMax ≤ c.SR := by
  obtain ⟨_, _, _, ⟨hmin, _⟩, _⟩ := h
  calc c.pMax ≤ ceilDiv c.SR 1 := ceilDiv_anti _ _ _ (le_refl 1) hmin
    _ = c.SR := by simp [ceilDiv]

/-- `R_MAX` at the highest sample rate is 9600. -/
theorem rMax_le_of_ok {c : Params} (h : c.Ok) : c.rMax ≤ 9600 := by
  obtain ⟨⟨_, hSR⟩, _⟩ := h
  unfold Params.rMax
  omega

/-- `D_MAX` at the highest sample rate and the lowest frequency is 215040. -/
theorem dMax_le_of_ok {c : Params} (h : c.Ok) : c.dMax ≤ 215040 := by
  have hP := pMax_le_sampleRate h
  obtain ⟨⟨_, hSR⟩, _⟩ := h
  unfold Params.dMax
  omega

/-! ## The registers of a legal state -/

theorem Inv.rise_le {s : State} (h : Inv s) : s.R ≤ s.par.rMax := by
  obtain ⟨⟨_, _, _, _, _, hRise⟩, ⟨_, _, hR, _⟩, _⟩ := h
  rw [hR]
  exact riseSamples_le_rMax _ _ hRise

/-- The largest end index is that of a Dah of `D_MAX` (10_state.md R31). -/
theorem Inv.endIndex_register_le {s : State} (h : Inv s) : s.e ≤ 645120 := by
  obtain ⟨⟨hOk, _⟩, _, ⟨_, _, he, _⟩, _⟩ := h
  have hD := dMax_le_of_ok hOk
  obtain ⟨⟨_, hSR⟩, _⟩ := hOk
  omega

/-- Progress runs past the end index by at most one buffer (10_state.md R31). -/
theorem Inv.progress_le {s : State} (h : Inv s) : s.p ≤ 649216 := by
  have he := h.endIndex_register_le
  obtain ⟨⟨⟨_, ⟨_, hB⟩, _⟩, _⟩, _, ⟨_, hp, _⟩, _⟩ := h
  omega

/-- Settles O20: the configuration by its own limits, the derived registers by `P_MAX`, `D_MAX` and
`R_MAX`, and the keyer's counters by their bounds. -/
theorem registersFitTheirWidths : Obligations.RegistersFitTheirWidths := by
  intro s h
  have hp := h.progress_le
  have he := h.endIndex_register_le
  have hP := h.period_le
  have hD := h.dit_le
  have hR := h.rise_le
  have hT := h.tone_length
  have hE := h.env_length
  obtain ⟨⟨hOk, ⟨_, hFREQ⟩, ⟨_, hWPM⟩, hVOL, ⟨_, hRISE⟩⟩, _⟩ := h
  have hPM := pMax_le_sampleRate hOk
  have hDM := dMax_le_of_ok hOk
  have hRM := rMax_le_of_ok hOk
  obtain ⟨⟨_, hSR⟩, _, _, ⟨_, _, hFMAX⟩, _⟩ := hOk
  omega

end Sys2Proof.Machine
end

section
/-! The construction parameters through the shared operations, the meanings and the step: nothing
writes them (00_scope.md R11). -/

namespace Sys2Proof.Machine

/-! ## The operations -/

@[simp] theorem State.pushStep_par (s : State) : s.pushStep.par = s.par := by
  rw [pushStep_frame]

@[simp] theorem State.startEnqueue_par (s : State) (syms : List Symbol) :
    (s.startEnqueue syms).par = s.par := by
  rw [startEnqueue_frame]

@[simp] theorem State.enqueueText_par (s : State) (n : BitVec 4) (codes : BitVec 20) :
    (s.enqueueText n codes).par = s.par := by
  rw [enqueueText_frame]

@[simp] theorem State.sendText_par (s : State) (c : Byte) : (s.sendText c).par = s.par := by
  rw [sendText_frame]

@[simp] theorem State.setFrequency_par (s : State) (hz : Nat) :
    (s.setFrequency hz).par = s.par := rfl

@[simp] theorem State.setVolume_par (s : State) (ch : BitVec 8) (mute : Bool) (vol : BitVec 8) :
    (s.setVolume ch mute vol).par = s.par := by
  rcases setVolume_cases s ch mute vol with ⟨_, e⟩ | ⟨_, _, e⟩ | ⟨_, _, _, e⟩
  · rw [e]
  · rw [e]
  · rw [e, State.regenerate_par]

@[simp] theorem State.checkReadPhase_par (s : State) : s.checkReadPhase.par = s.par := by
  unfold State.checkReadPhase
  split <;> rfl

@[simp] theorem State.checkTickPhase_par (s : State) : s.checkTickPhase.par = s.par := by
  rw [checkTickPhase_eq]

theorem transition_par (s t : State) (dit dah : Bool) (h : s.transition dit dah = some t) :
    t.par = s.par := by
  rw [transition_frame s t dit dah h]

@[simp] theorem State.tick_par (s : State) : s.tick.par = s.par := by
  rcases tick_cases s with ⟨_, e⟩ | ⟨t, ht, _, e⟩ | ⟨t, out, ht, _, e⟩
  · rw [e, State.setFaults_par, State.checkTickPhase_par]
  · rw [e, State.setFaults_par, transition_par _ _ _ _ ht, State.checkTickPhase_par]
  · rw [e, State.finishTick_par, transition_par _ _ _ _ ht, State.checkTickPhase_par]

@[simp] theorem State.nextChunk_par (s : State) : s.nextChunk.par = s.par := by
  unfold State.nextChunk
  split <;> rfl

/-! ## The meanings and the agents -/

/-- No meaning writes the parameters. The operations above are the only ones with a branch of their
own; every other meaning writes named fields. -/
theorem exec_par (i : Instr) (s t : State) (h : exec i s = .next t) : t.par = s.par := by
  cases i with
  | read => injection h with h; rw [← h]; exact s.checkReadPhase_par
  | tick => injection h with h; rw [← h, State.tick_par]
  | setv ch mute vol => injection h with h; rw [← h, State.setVolume_par]
  | enq sym => injection h with h; rw [← h, State.startEnqueue_par]
  | enqt n codes => injection h with h; rw [← h, State.enqueueText_par]
  | hostText c => injection h with h; rw [← h, State.consume_par, State.sendText_par]
  | hostSidetone v =>
    simp only [exec, execHostSidetone] at h
    split at h
    · injection h with h; rw [← h, State.consume_par, State.setFrequency_par]
    · injection h with h; rw [← h, State.consume_par]
  | _ => injection h with h; subst h; rfl

theorem audioTurn_par (s t : State) (h : s.audioTurn = .next t) : t.par = s.par := by
  rcases audioTurn_cases s with
    ⟨_, e⟩ | ⟨a, rest, _, _, e⟩ | ⟨a, rest, i, _, _, _, e⟩ | ⟨a, rest, r, _, _, _, e⟩ <;> rw [e] at h
  · injection h with h; rw [← h]
  · injection h with h; rw [← h, State.setFaults_par]
  · exact (exec_par i _ t h :)
  · injection h with h; rw [← h]

theorem controlTurn_par (s t : State) (h : s.controlTurn = .next t) : t.par = s.par := by
  rcases controlTurn_cases s with
    e | ⟨w, rest, _, _, _, e⟩ | ⟨w, rest, i, _, _, _, _, e⟩ | ⟨w, rest, r, _, _, _, _, e⟩ <;>
    rw [e] at h
  · injection h with h; rw [← h]
  · injection h with h; rw [← h, State.setFaults_par]
  · exact (exec_par i _ t h :)
  · injection h with h; rw [← h]

theorem hostTurn_par (s t : State) (h : s.hostTurn = .next t) : t.par = s.par := by
  rcases hostTurn_cases s with
    e | ⟨_, _, e⟩ | ⟨r, _, _, _, e⟩ | ⟨i, _, _, _, _, e⟩ <;> rw [e] at h
  · injection h with h; rw [← h]
  · injection h with h; rw [← h, State.nextChunk_par]
  · injection h with h; rw [← h, State.endChunk_par]
  · exact exec_par i s t h

theorem agentTurn_par (s t : State) (a : Agent) (h : s.agentTurn a = .next t) : t.par = s.par := by
  cases a with
  | audio => exact audioTurn_par s t h
  | control => exact controlTurn_par s t h
  | push => injection h with h; rw [← h, State.pushStep_par]
  | host => exact hostTurn_par s t h

/-! ## The step -/

/-- A step that goes on changes nothing, or is the move of the agent the order of acceptance names. -/
theorem step_next_cases (s t : State) (h : step s = .next t) :
    t = s ∨ ∃ a rest, s.sched = a :: rest ∧ State.agentTurn { s with sched := rest } a = .next t := by
  rcases step_cases s with
    ⟨_, e⟩ | ⟨_, _, e⟩ | ⟨_, _, _, e⟩ | ⟨_, _, _, _, e⟩ | ⟨a, rest, _, _, _, _, hs, e⟩ <;> rw [e] at h
  · cases h
  · cases h
  · cases h
  · injection h with h; exact .inl h.symm
  · exact .inr ⟨a, rest, hs, h⟩

/-- Settles O26: a step is an agent's move, and no agent's move writes the parameters. -/
theorem parametersNeverChange : Obligations.ParametersNeverChange := by
  intro s t h
  rcases step_next_cases s t h with rfl | ⟨a, rest, _, hmove⟩
  · rfl
  · exact (agentTurn_par _ t a hmove :)

end Sys2Proof.Machine
end

section
/-! One step, inverted once: what a step takes, and what it does when it takes nothing
(20_memory.md R80 to R82; 45_host_protocol.md R281). -/

namespace Sys2Proof.Machine

/-- A step of `s` takes the instruction `i` and runs it in `u`: at the audio port, at the control port
while no enqueue is in flight, or at the decoder's cursor (R80, R81; 45_host_protocol.md R280, R310). -/
inductive Takes (s : State) (i : Instr) : State → Prop where
  | audio (order : List Agent) (a : AudioWord) (rest : List AudioWord)
      (hsched : s.sched = .audio :: order) (hin : s.audioIn = a :: rest)
      (hport : portOf a.word = .audio) (hdec : decodeWord a.word = .instr i) :
      Takes s i { s with sched := order, audioIn := rest, ditN := a.ditN, dahN := a.dahN }
  | control (order : List Agent) (w : Word) (rest : List Word)
      (hsched : s.sched = .control :: order) (hfree : s.PEND = []) (hin : s.controlIn = w :: rest)
      (hport : portOf w = .control) (hdec : decodeWord w = .instr i) :
      Takes s i { s with sched := order, controlIn := rest }
  | host (order : List Agent) (hsched : s.sched = .host :: order) (hwait : s.hWait = false)
      (hdec : decodeHost (s.buf.drop s.scanAt) = .instr i)
      (hfree : s.issuesControl i = true → s.PEND = []) :
      Takes s i { s with sched := order }

/-- Only the two ports, the pins and the order of acceptance differ, and a `WrongPort` record may be
new (30_encoding.md R101, R109). -/
def PortsOnly (s t : State) : Prop :=
  (s.FAULTS.wrongPort = true → t.FAULTS.wrongPort = true) ∧
  t = { s with FAULTS := { s.FAULTS with wrongPort := t.FAULTS.wrongPort },
               ditN := t.ditN, dahN := t.dahN, audioIn := t.audioIn, controlIn := t.controlIn,
               sched := t.sched, ignored := t.ignored }

/-- What one step can do: touch its inputs only, push, start or end a chunk, or run what it takes. -/
theorem step_effect_cases {s t : State} (h : step s = .next t) :
    PortsOnly s t ∨ (∃ order, t = State.pushStep { s with sched := order }) ∨
    (∃ order, t = State.nextChunk { s with sched := order }) ∨
    (∃ order, t = State.endChunk { s with sched := order }) ∨
    ∃ i u, Takes s i u ∧ exec i u = .next t := by
  rcases step_next_cases s t h with rfl | ⟨a, order, hsched, hmove⟩
  · exact .inl ⟨id, rfl⟩
  cases a with
  | audio =>
    replace hmove : State.audioTurn { s with sched := order } = .next t := hmove
    rcases audioTurn_cases { s with sched := order } with
      ⟨_, e⟩ | ⟨a, rest, _, _, e⟩ | ⟨a, rest, i, hin, hport, hdec, e⟩ | ⟨a, rest, r, _, _, _, e⟩ <;>
      rw [e] at hmove
    · injection hmove with e; subst e; exact .inl ⟨id, rfl⟩
    · injection hmove with e; subst e; exact .inl ⟨fun _ => rfl, rfl⟩
    · exact .inr (.inr (.inr (.inr ⟨i, _, .audio order a rest hsched hin hport hdec, hmove⟩)))
    · injection hmove with e; subst e; exact .inl ⟨id, rfl⟩
  | control =>
    replace hmove : State.controlTurn { s with sched := order } = .next t := hmove
    rcases controlTurn_cases { s with sched := order } with
      e | ⟨w, rest, _, _, _, e⟩ | ⟨w, rest, i, hfree, hin, hport, hdec, e⟩ |
      ⟨w, rest, r, _, _, _, _, e⟩ <;> rw [e] at hmove
    · injection hmove with e; subst e; exact .inl ⟨id, rfl⟩
    · injection hmove with e; subst e; exact .inl ⟨fun _ => rfl, rfl⟩
    · exact .inr (.inr (.inr (.inr ⟨i, _, .control order w rest hsched hfree hin hport hdec, hmove⟩)))
    · injection hmove with e; subst e; exact .inl ⟨id, rfl⟩
  | push => injection hmove with e; exact .inr (.inl ⟨order, e.symm⟩)
  | host =>
    replace hmove : State.hostTurn { s with sched := order } = .next t := hmove
    rcases hostTurn_cases { s with sched := order } with
      e | ⟨_, _, e⟩ | ⟨r, _, _, _, e⟩ | ⟨i, hwait, _, hdec, hfree, e⟩ <;> rw [e] at hmove
    · injection hmove with e; subst e; exact .inl ⟨id, rfl⟩
    · injection hmove with e; exact .inr (.inr (.inl ⟨order, e.symm⟩))
    · injection hmove with e; exact .inr (.inr (.inr (.inl ⟨order, e.symm⟩)))
    · exact .inr (.inr (.inr (.inr ⟨i, _, .host order hsched hwait hdec hfree, hmove⟩)))

/-! ## What is taken where -/

/-- The audio port gives READ and TICK, the control port the other operations, and the serial line its
commands (30_encoding.md R101, R102; 45_host_protocol.md R281). -/
theorem Takes.agent_cases {s u : State} {i : Instr} (h : Takes s i u) :
    (isSerial i = false ∧
      ((∃ order a rest, s.sched = .audio :: order ∧ s.audioIn = a :: rest ∧
          decodeWord a.word = .instr i ∧ (i = .read ∨ i = .tick)) ∨
        ∃ order w rest, s.sched = .control :: order ∧ s.PEND = [] ∧ s.controlIn = w :: rest ∧
          decodeWord w = .instr i ∧ i ≠ .read ∧ i ≠ .tick)) ∨
    (isSerial i = true ∧ ∃ order, s.sched = .host :: order ∧ s.hWait = false ∧
      decodeHost (s.buf.drop s.scanAt) = .instr i ∧ (s.issuesControl i = true → s.PEND = [])) := by
  cases h with
  | audio order a rest hsched hin hport hdec =>
    obtain ⟨hser, hi⟩ := decodeWord_port a.word i hdec
    exact .inl ⟨hser, .inl ⟨order, a, rest, hsched, hin, hdec, hi hport⟩⟩
  | control order w rest hsched hfree hin hport hdec =>
    have hne : ¬ (i = .read ∨ i = .tick) := fun hi => by
      rw [decodeWord_audio w i hdec hi] at hport; cases hport
    rw [not_or] at hne
    exact .inl ⟨(decodeWord_port w i hdec).1,
      .inr ⟨order, w, rest, hsched, hfree, hin, hdec, hne⟩⟩
  | host order hsched hwait hdec hfree =>
    exact .inr ⟨(decodeHost_length _ i hdec).1, order, hsched, hwait, hdec, hfree⟩

/-- Taking an instruction changes the ports, the pins and the order of acceptance only. -/
theorem Takes.frame {s u : State} {i : Instr} (h : Takes s i u) :
    u = { s with ditN := u.ditN, dahN := u.dahN, audioIn := u.audioIn, controlIn := u.controlIn,
                 sched := u.sched } := by
  cases h <;> rfl

end Sys2Proof.Machine
end

section
/-! The invariant through the step (10_state.md R31 to R41, R49; 45_host_protocol.md R308). -/

namespace Sys2Proof.Machine

theorem inv_portsOnly {s t : State} (h : Inv s) (hp : PortsOnly s t) : Inv t := by
  obtain ⟨_, e⟩ := hp
  rw [e]
  exact h

/-- A new chunk starts with both cursors at 0 (45_host_protocol.md R281). -/
theorem inv_nextChunk {s : State} (h : Inv s) : Inv s.nextChunk := by
  unfold State.nextChunk
  split
  · exact h
  · obtain ⟨hc, ht, hk, hs, _, _, hwait, hpend⟩ := h
    exact ⟨hc, ht, hk, hs, le_refl 0, Nat.zero_le _, hwait, hpend⟩

theorem inv_endChunk {s : State} (h : Inv s) : Inv s.endChunk := by
  obtain ⟨hc, ht, hk, hs, _, _, hwait, hpend⟩ := h
  exact ⟨hc, ht, hk, hs, le_refl 0, Nat.zero_le _, hwait, hpend⟩

/-- The bytes of a serial command found at the cursor are all in the chunk (R281 `need`). -/
theorem scanAt_add_serialLength_le {s : State} {i : Instr} (h : s.scanAt ≤ s.buf.length)
    (hdec : decodeHost (s.buf.drop s.scanAt) = .instr i) :
    s.scanAt + serialLength i ≤ s.buf.length := by
  obtain ⟨_, _, hlen⟩ := decodeHost_length _ i hdec
  rw [List.length_drop] at hlen
  omega

/-- What each agent takes meets the conditions of its meaning: ENQ and ENQT are taken only while no
enqueue is in flight, a serial command only with its bytes there and the decoder not waiting. -/
theorem inv_exec_taken {s u t : State} {i : Instr} (h : Inv s) (hu : Takes s i u)
    (he : exec i u = .next t) : Inv t := by
  have hInv : Inv u := by rw [hu.frame]; exact h
  cases hu with
  | audio _ a _ _ _ hport hdec =>
    obtain ⟨hser, hi⟩ := decodeWord_port a.word i hdec
    refine inv_exec_port i _ t hInv hser ?_ he
    rcases hi hport with rfl | rfl <;> simp
  | control _ w _ _ hfree _ _ hdec =>
    exact inv_exec_port i _ t hInv (decodeWord_port w i hdec).1
      ⟨fun _ _ => hfree, fun _ _ _ => hfree⟩ he
  | host _ _ hwait hdec hfree =>
    obtain ⟨_, _, _, _, _, hscan, _⟩ := h
    exact inv_exec_serial i _ t hInv (decodeHost_length _ i hdec).1
      (scanAt_add_serialLength_le hscan hdec) hwait hfree he

/-- Settles O18: what a step does to its inputs, a push, a chunk's start or end, and every taken
instruction keep the invariant. -/
theorem stepKeepsInvariant : Obligations.StepKeepsInvariant := by
  intro s t h hstep
  rcases step_effect_cases hstep with
    hp | ⟨order, rfl⟩ | ⟨order, rfl⟩ | ⟨order, rfl⟩ | ⟨i, u, hu, he⟩
  · exact inv_portsOnly h hp
  · exact inv_pushStep { s with sched := order } h
  · exact inv_nextChunk (s := { s with sched := order }) h
  · exact inv_endChunk (s := { s with sched := order }) h
  · exact inv_exec_taken h hu he

end Sys2Proof.Machine
end

section
/-! What each meaning writes, said once for all instructions, and the three frames that follow of the
step: the fault marks, the keyer, the configuration (10_state.md R32 to R40, R49, R52). -/

namespace Sys2Proof.Machine

/-- The setters of the control port (43_config.md R260 to R266). -/
def IsSetter (i : Instr) : Prop :=
  (∃ v, i = .setf v) ∨ (∃ v, i = .setw v) ∨ (∃ v, i = .setr v) ∨ ∃ ch m v, i = .setv ch m v

/-- The serial commands that issue a setter (45_host_protocol.md R298, R299, R301, R302). -/
def IsIssuer (i : Instr) : Prop :=
  (∃ x, i = .hostAdminRise x) ∨ (∃ x, i = .hostAdminFreq x) ∨ (∃ v, i = .hostSidetone v) ∨
  ∃ v, i = .hostSpeed v

theorem IsSetter.not_serial {i : Instr} (h : IsSetter i) : isSerial i = false := by
  rcases h with ⟨v, rfl⟩ | ⟨v, rfl⟩ | ⟨v, rfl⟩ | ⟨ch, m, v, rfl⟩ <;> rfl

theorem IsSetter.not_audio {i : Instr} (h : IsSetter i) : ¬ (i = .read ∨ i = .tick) := by
  rcases h with ⟨v, rfl⟩ | ⟨v, rfl⟩ | ⟨v, rfl⟩ | ⟨ch, m, v, rfl⟩ <;> simp

theorem IsIssuer.serial {i : Instr} (h : IsIssuer i) : isSerial i = true := by
  rcases h with ⟨x, rfl⟩ | ⟨x, rfl⟩ | ⟨v, rfl⟩ | ⟨v, rfl⟩ <;> rfl

/-- `t` differs from `s` only in GeneratorConfig, what is derived from it, and the parse cursor. -/
def ConfigOnly (s t : State) : Prop :=
  t = { s with FREQ := t.FREQ, WPM := t.WPM, VOL := t.VOL, RISE := t.RISE, P := t.P, T := t.T,
               D := t.D, R := t.R, E := t.E, scanAt := t.scanAt }

/-- `t` differs from `s` only in the queue, the in-flight list and the decoder's own registers. -/
def QueueAndDecoderOnly (s t : State) : Prop :=
  t = { s with Q := t.Q, PEND := t.PEND, hVersion := t.hVersion, buf := t.buf, scanAt := t.scanAt,
               replyAt := t.replyAt, hWait := t.hWait, fwUpdate := t.fwUpdate }

theorem configOnly_setVolume (s : State) (ch : BitVec 8) (mute : Bool) (vol : BitVec 8) :
    ConfigOnly s (s.setVolume ch mute vol) := by
  rcases setVolume_cases s ch mute vol with ⟨_, e⟩ | ⟨_, _, e⟩ | ⟨_, _, _, e⟩ <;> rw [e] <;> rfl

theorem queueOnly_startEnqueue (s : State) (syms : List Symbol) :
    QueueAndDecoderOnly s (s.startEnqueue syms) := by
  rw [startEnqueue_frame]; rfl

theorem queueOnly_enqueueText (s : State) (n : BitVec 4) (codes : BitVec 20) :
    QueueAndDecoderOnly s (s.enqueueText n codes) := by
  rw [enqueueText_frame]; rfl

theorem queueOnly_hostText (s : State) (c : Byte) :
    QueueAndDecoderOnly s
      ((State.sendText { s with buf := s.buf.set s.scanAt c } c).consume 1) := by
  rw [sendText_frame]; rfl

/-- What a meaning can write: READ and TICK their own registers, a setter or a command that issues one
the configuration, and every other instruction the queue and the decoder. -/
theorem exec_effect_cases {i : Instr} {s t : State} (h : exec i s = .next t) :
    (i = .read ∧ t = { s.checkReadPhase with sink := t.sink, APH := .awaitTick }) ∨
    (i = .tick ∧ t = s.tick) ∨
    ((IsSetter i ∨ IsIssuer i ∧ s.issuesControl i = true) ∧ ConfigOnly s t) ∨
    QueueAndDecoderOnly s t := by
  cases i with
  | read => injection h with h; subst h; exact .inl ⟨rfl, rfl⟩
  | tick => injection h with h; exact .inr (.inl ⟨rfl, h.symm⟩)
  | setf v => injection h with h; subst h; exact .inr (.inr (.inl ⟨.inl (.inl ⟨v, rfl⟩), rfl⟩))
  | setw v =>
    injection h with h; subst h
    exact .inr (.inr (.inl ⟨.inl (.inr (.inl ⟨v, rfl⟩)), rfl⟩))
  | setr v =>
    injection h with h; subst h
    exact .inr (.inr (.inl ⟨.inl (.inr (.inr (.inl ⟨v, rfl⟩))), rfl⟩))
  | setv ch m v =>
    injection h with h; subst h
    exact .inr (.inr (.inl ⟨.inl (.inr (.inr (.inr ⟨ch, m, v, rfl⟩))),
      configOnly_setVolume s ch m v⟩))
  | hostAdminRise x =>
    injection h with h; subst h
    exact .inr (.inr (.inl ⟨.inr ⟨.inl ⟨x, rfl⟩, rfl⟩, rfl⟩))
  | hostAdminFreq x =>
    injection h with h; subst h
    exact .inr (.inr (.inl ⟨.inr ⟨.inr (.inl ⟨x, rfl⟩), rfl⟩, rfl⟩))
  | hostSpeed v =>
    injection h with h; subst h
    exact .inr (.inr (.inl ⟨.inr ⟨.inr (.inr (.inr ⟨v, rfl⟩)), rfl⟩, rfl⟩))
  | hostSidetone v =>
    simp only [exec, execHostSidetone] at h
    split at h
    next hz hsome =>
      injection h with h; subst h
      refine .inr (.inr (.inl ⟨.inr ⟨.inr (.inr (.inl ⟨v, rfl⟩)), ?_⟩, rfl⟩))
      simp [State.issuesControl, hsome]
    next => injection h with h; subst h; exact .inr (.inr (.inr rfl))
  | enq sym =>
    injection h with h; subst h
    exact .inr (.inr (.inr (queueOnly_startEnqueue s [sym])))
  | enqt n codes =>
    injection h with h; subst h
    exact .inr (.inr (.inr (queueOnly_enqueueText s n codes)))
  | hostText c =>
    injection h with h; subst h
    exact .inr (.inr (.inr (queueOnly_hostText s c)))
  | _ => injection h with h; subst h; exact .inr (.inr (.inr rfl))

/-- `t` differs from `s` only in the inputs, the queue, the in-flight list and the decoder, and a
`WrongPort` record may be new. -/
def InputsAndQueueOnly (s t : State) : Prop :=
  (s.FAULTS.wrongPort = true → t.FAULTS.wrongPort = true) ∧
  t = { s with FAULTS := { s.FAULTS with wrongPort := t.FAULTS.wrongPort },
               Q := t.Q, PEND := t.PEND, ditN := t.ditN, dahN := t.dahN, buf := t.buf,
               scanAt := t.scanAt, replyAt := t.replyAt, hWait := t.hWait, audioIn := t.audioIn,
               controlIn := t.controlIn, serialIn := t.serialIn, sched := t.sched,
               replies := t.replies, ignored := t.ignored }

/-- A step that takes no instruction writes no register of the keyer or the configuration. -/
theorem step_inputs_or_takes {s t : State} (h : step s = .next t) :
    InputsAndQueueOnly s t ∨ ∃ i u, Takes s i u ∧ exec i u = .next t := by
  rcases step_effect_cases h with
    ⟨hw, e⟩ | ⟨order, rfl⟩ | ⟨order, rfl⟩ | ⟨order, rfl⟩ | hrun
  · exact .inl ⟨hw, by rw [e]⟩
  · left; rw [pushStep_frame]; exact ⟨id, rfl⟩
  · left; unfold State.nextChunk; split <;> exact ⟨id, rfl⟩
  · exact .inl ⟨id, rfl⟩
  · exact .inr hrun

/-! ## The fault marks (10_state.md R52) -/

/-- Every record of `f` is in `g`. -/
def MarksKept (f g : FaultMarks) : Prop :=
  (f.pairingRead = true → g.pairingRead = true) ∧ (f.pairingTick = true → g.pairingTick = true) ∧
  (f.reservedState = true → g.reservedState = true) ∧ (f.tableIndex = true → g.tableIndex = true) ∧
  (f.wrongPort = true → g.wrongPort = true)

theorem MarksKept.of_eq {f g : FaultMarks} (h : g = f) : MarksKept f g := by
  subst h; exact ⟨id, id, id, id, id⟩

theorem MarksKept.trans {f g k : FaultMarks} (hfg : MarksKept f g) (hgk : MarksKept g k) :
    MarksKept f k := by
  obtain ⟨a1, a2, a3, a4, a5⟩ := hfg
  obtain ⟨b1, b2, b3, b4, b5⟩ := hgk
  exact ⟨b1 ∘ a1, b2 ∘ a2, b3 ∘ a3, b4 ∘ a4, b5 ∘ a5⟩

theorem marksKept_checkReadPhase (s : State) : MarksKept s.FAULTS s.checkReadPhase.FAULTS := by
  unfold State.checkReadPhase
  split
  · exact .of_eq rfl
  · exact ⟨fun _ => rfl, id, id, id, id⟩

theorem marksKept_checkTickPhase (s : State) : MarksKept s.FAULTS s.checkTickPhase.FAULTS := by
  rw [checkTickPhase_eq]
  exact ⟨id, fun h => by simp [h], id, id, id⟩

theorem transition_FAULTS {s t : State} {dit dah : Bool} (h : s.transition dit dah = some t) :
    t.FAULTS = s.FAULTS := by
  rw [transition_frame s t dit dah h]

/-- A TICK adds its pairing record, or a stuck one (40_keying.md R141; 60_exceptions.md R343). -/
theorem marksKept_tick (s : State) : MarksKept s.FAULTS s.tick.FAULTS := by
  refine (marksKept_checkTickPhase s).trans ?_
  rcases tick_cases s with ⟨_, e⟩ | ⟨t, ht, _, e⟩ | ⟨t, out, ht, _, e⟩ <;> rw [e]
  · exact ⟨id, id, fun _ => rfl, id, id⟩
  · rw [← transition_FAULTS ht]
    exact ⟨id, id, id, fun _ => rfl, id⟩
  · exact .of_eq ((t.finishTick_FAULTS out).trans (transition_FAULTS ht))

theorem marksKept_exec {i : Instr} {s t : State} (h : exec i s = .next t) :
    MarksKept s.FAULTS t.FAULTS := by
  rcases exec_effect_cases h with ⟨_, e⟩ | ⟨_, e⟩ | ⟨_, e⟩ | e
  · rw [e]; exact marksKept_checkReadPhase s
  · rw [e]; exact marksKept_tick s
  · exact .of_eq (by rw [e])
  · exact .of_eq (by rw [e])

/-- Settles O22: a step that takes nothing adds at most `WrongPort`, and no meaning clears a mark. -/
theorem faultMarksAreNeverCleared : Obligations.FaultMarksAreNeverCleared := by
  refine ⟨fun _ => rfl, fun s t h => ?_⟩
  change MarksKept s.FAULTS t.FAULTS
  rcases step_inputs_or_takes h with ⟨hw, e⟩ | ⟨i, u, hu, he⟩
  · rw [e]; exact ⟨id, id, id, id, hw⟩
  · have hFAULTS : u.FAULTS = s.FAULTS := by rw [hu.frame]
    exact (MarksKept.of_eq hFAULTS).trans (marksKept_exec he)

/-! ## The keyer (10_state.md R36 to R40, R49) -/

/-- The keyer's registers and the output buffer are the same. -/
def SameKeyer (s t : State) : Prop :=
  t.K = s.K ∧ t.p = s.p ∧ t.e = s.e ∧ t.L = s.L ∧ t.IND = s.IND ∧ t.OUT = s.OUT

theorem sameKeyer_checkReadPhase (s : State) : SameKeyer s s.checkReadPhase := by
  unfold State.checkReadPhase
  split <;> exact ⟨rfl, rfl, rfl, rfl, rfl, rfl⟩

theorem sameKeyer_exec {i : Instr} {s t : State} (hi : i ≠ .tick) (h : exec i s = .next t) :
    SameKeyer s t := by
  rcases exec_effect_cases h with ⟨_, e⟩ | ⟨htick, _⟩ | ⟨_, e⟩ | e
  · rw [e]; exact sameKeyer_checkReadPhase s
  · exact absurd htick hi
  · rw [e]; exact ⟨rfl, rfl, rfl, rfl, rfl, rfl⟩
  · rw [e]; exact ⟨rfl, rfl, rfl, rfl, rfl, rfl⟩

/-- A TICK is taken at the audio port only (30_encoding.md R101, R102). -/
theorem Takes.tick_audio {s u : State} (h : Takes s .tick u) :
    ∃ order a rest, s.sched = .audio :: order ∧ s.audioIn = a :: rest ∧
      decodeWord a.word = .instr .tick := by
  rcases h.agent_cases with
    ⟨_, ⟨order, a, rest, hsched, hin, hdec, _⟩ | ⟨_, _, _, _, _, _, _, _, hne⟩⟩ | ⟨hser, _⟩
  · exact ⟨order, a, rest, hsched, hin, hdec⟩
  · exact absurd rfl hne
  · cases hser

/-- Settles O23: of what a step can run, only a TICK writes the keyer, and it comes from the audio
port. -/
theorem onlyTickMovesTheKeyer : Obligations.OnlyTickMovesTheKeyer := by
  refine ⟨fun i s t hi h => sameKeyer_exec hi h, fun s t h => ?_⟩
  rcases step_inputs_or_takes h with ⟨_, e⟩ | ⟨i, u, hu, he⟩
  · left; rw [e]; exact ⟨rfl, rfl, rfl, rfl, rfl, rfl⟩
  by_cases hi : i = .tick
  · subst hi; exact .inr hu.tick_audio
  · left
    have hkeep := sameKeyer_exec hi he
    rw [hu.frame] at hkeep
    exact hkeep

/-! ## The configuration (10_state.md R32, R33) -/

/-- GeneratorConfig and what is derived from it are the same. -/
def SameConfig (s t : State) : Prop :=
  t.FREQ = s.FREQ ∧ t.WPM = s.WPM ∧ t.VOL = s.VOL ∧ t.RISE = s.RISE ∧
  t.P = s.P ∧ t.T = s.T ∧ t.D = s.D ∧ t.R = s.R ∧ t.E = s.E

theorem SameConfig.refl (s : State) : SameConfig s s := ⟨rfl, rfl, rfl, rfl, rfl, rfl, rfl, rfl, rfl⟩

theorem SameConfig.trans {s t u : State} (hst : SameConfig s t) (htu : SameConfig t u) :
    SameConfig s u := by
  obtain ⟨a1, a2, a3, a4, a5, a6, a7, a8, a9⟩ := hst
  obtain ⟨b1, b2, b3, b4, b5, b6, b7, b8, b9⟩ := htu
  exact ⟨b1.trans a1, b2.trans a2, b3.trans a3, b4.trans a4, b5.trans a5, b6.trans a6,
    b7.trans a7, b8.trans a8, b9.trans a9⟩

theorem sameConfig_checkReadPhase (s : State) : SameConfig s s.checkReadPhase := by
  unfold State.checkReadPhase
  split <;> exact .refl s

theorem sameConfig_checkTickPhase (s : State) : SameConfig s s.checkTickPhase := by
  rw [checkTickPhase_eq]; exact .refl s

theorem sameConfig_transition {s t : State} {dit dah : Bool} (h : s.transition dit dah = some t) :
    SameConfig s t := by
  rw [transition_frame s t dit dah h]; exact .refl s

/-- A TICK reads the configuration and never writes it (43_config.md R253). -/
theorem sameConfig_tick (s : State) : SameConfig s s.tick := by
  refine (sameConfig_checkTickPhase s).trans ?_
  rcases tick_cases s with ⟨_, e⟩ | ⟨t, ht, _, e⟩ | ⟨t, out, ht, _, e⟩ <;> rw [e]
  · exact .refl s.checkTickPhase
  · exact (sameConfig_transition ht).trans (.refl t)
  · exact (sameConfig_transition ht).trans (.refl t)

/-- What writes the configuration is a setter, or a serial command that does issue one. -/
theorem sameConfig_exec_or {i : Instr} {s t : State} (h : exec i s = .next t) :
    SameConfig s t ∨ IsSetter i ∨ IsIssuer i ∧ s.issuesControl i = true := by
  rcases exec_effect_cases h with ⟨_, e⟩ | ⟨_, e⟩ | ⟨hi, _⟩ | e
  · left; rw [e]; exact sameConfig_checkReadPhase s
  · left; rw [e]; exact sameConfig_tick s
  · exact .inr hi
  · left; rw [e]; exact .refl s

/-- A setter is taken at the control port only, with no enqueue in flight (20_memory.md R81). -/
theorem Takes.setter_control {s u : State} {i : Instr} (h : Takes s i u) (hi : IsSetter i) :
    ∃ order w rest, s.sched = .control :: order ∧ s.PEND = [] ∧ s.controlIn = w :: rest ∧
      decodeWord w = .instr i := by
  rcases h.agent_cases with
    ⟨_, ⟨_, _, _, _, _, _, haudio⟩ | ⟨order, w, rest, hsched, hfree, hin, hdec, _⟩⟩ | ⟨hser, _⟩
  · exact absurd haudio hi.not_audio
  · exact ⟨order, w, rest, hsched, hfree, hin, hdec⟩
  · rw [hi.not_serial] at hser; cases hser

/-- A serial command that issues a setter is taken by the decoder only, and only when the control port
is free (45_host_protocol.md R280; 20_memory.md R81). -/
theorem Takes.issuer_host {s u : State} {i : Instr} (h : Takes s i u) (hi : IsIssuer i)
    (hissue : s.issuesControl i = true) :
    ∃ order, s.sched = .host :: order ∧ s.hWait = false ∧ s.PEND = [] ∧
      decodeHost (s.buf.drop s.scanAt) = .instr i := by
  rcases h.agent_cases with ⟨hser, _⟩ | ⟨_, order, hsched, hwait, hdec, hfree⟩
  · rw [hi.serial] at hser; cases hser
  · exact ⟨order, hsched, hwait, hfree hissue, hdec⟩

/-- Whether a command issues an operation depends on the parameters and the host's version only, which
taking it leaves alone. -/
theorem Takes.issuesControl_eq {s u : State} {i : Instr} (h : Takes s i u) :
    u.issuesControl i = s.issuesControl i := by
  rw [h.frame]; cases i <;> rfl

/-- Settles O24: only a setter, or a serial command that does issue one, writes the configuration; the
first comes from the control port, the second from the decoder, each with no enqueue in flight. -/
theorem onlySettersWriteTheConfiguration : Obligations.OnlySettersWriteTheConfiguration := by
  refine ⟨fun i s t h hset hiss => ?_, fun s t h => ?_⟩
  · rcases sameConfig_exec_or h with hsame | hi | ⟨hi, _⟩
    · exact hsame
    · exact absurd hi hset
    · exact absurd hi hiss
  rcases step_inputs_or_takes h with ⟨_, e⟩ | ⟨i, u, hu, he⟩
  · left; rw [e]; exact SameConfig.refl s
  rcases sameConfig_exec_or he with hsame | hi | ⟨hi, hissue⟩
  · left; rw [hu.frame] at hsame; exact hsame
  · obtain ⟨order, w, rest, hsched, hfree, hin, hdec⟩ := hu.setter_control hi
    exact .inr (.inl ⟨order, w, rest, i, hsched, hfree, hin, hdec, hi⟩)
  · rw [hu.issuesControl_eq] at hissue
    obtain ⟨order, hsched, hwait, hfree, hdec⟩ := hu.issuer_host hi hissue
    exact .inr (.inr ⟨order, i, hsched, hwait, hfree, hdec, hi⟩)

end Sys2Proof.Machine
end

section
/-! The indicator's colour (10_state.md R45). -/

namespace Sys2Proof.Machine

/-- Settles O60, one code at a time. -/
theorem indicatorShowsItsColour : Obligations.IndicatorShowsItsColour := by
  intro s
  refine ⟨fun h => ?off, fun h => ?manual, fun h => ?queued⟩
  case off => simp only [State.indicatorColor, h]
  case manual => simp only [State.indicatorColor, h]
  case queued => simp only [State.indicatorColor, h]

end Sys2Proof.Machine
end

section
/-! Each agent's move in the case an obligation names, and through it the step: the converse of
`step_effect_cases` for an instruction that is there to be taken (20_memory.md R80, R81;
45_host_protocol.md R280, R281, R310). -/

namespace Sys2Proof.Machine

/-! ## The moves of the agents -/

/-- A running state moves by the agent at the head of the order of acceptance (R80). -/
theorem step_of_running {s : State} {a : Agent} {order : List Agent} (hrun : Running s)
    (hsched : s.sched = a :: order) : step s = State.agentTurn { s with sched := order } a := by
  obtain ⟨hok, hreserved, htable, hfw⟩ := hrun
  rw [step, State.turn, if_neg (not_not.mpr hok)]
  simp only [hreserved, htable, hfw, hsched, Bool.false_eq_true, if_false]

theorem audioTurn_instr {s : State} {a : AudioWord} {rest : List AudioWord} {i : Instr}
    (hin : s.audioIn = a :: rest) (hport : portOf a.word = .audio)
    (hdec : decodeWord a.word = .instr i) :
    s.audioTurn = exec i { s with audioIn := rest, ditN := a.ditN, dahN := a.dahN } := by
  simp [State.audioTurn, hin, hport, hdec]

theorem controlTurn_instr {s : State} {w : Word} {rest : List Word} {i : Instr}
    (hfree : s.PEND = []) (hin : s.controlIn = w :: rest) (hport : portOf w = .control)
    (hdec : decodeWord w = .instr i) :
    s.controlTurn = exec i { s with controlIn := rest } := by
  simp [State.controlTurn, hfree, hin, hport, hdec]

/-- The control port takes nothing while an enqueue is in flight (R81). -/
theorem controlTurn_of_busy {s : State} (hbusy : s.PEND ≠ []) : s.controlTurn = .next s := by
  obtain ⟨x, xs, hpend⟩ := List.exists_cons_of_ne_nil hbusy
  simp [State.controlTurn, hpend]

/-- An empty chunk decodes to nothing, so a command at the cursor says that the chunk is not empty. -/
theorem buf_ne_nil_of_decodeHost {s : State} {i : Instr}
    (hdec : decodeHost (s.buf.drop s.scanAt) = .instr i) : s.buf ≠ [] := by
  intro hnil
  rw [hnil, List.drop_nil] at hdec
  cases hdec

/-- The decoder with a command at its cursor: it waits for its own ENQT or for a control port the
command needs, and otherwise runs the command (45_host_protocol.md R281, R310). -/
theorem hostTurn_instr {s : State} {i : Instr}
    (hdec : decodeHost (s.buf.drop s.scanAt) = .instr i) :
    s.hostTurn =
      if s.hWait = true ∨ (s.issuesControl i = true ∧ s.PEND ≠ []) then .next s else exec i s := by
  obtain ⟨b, bs, hbuf⟩ := List.exists_cons_of_ne_nil (buf_ne_nil_of_decodeHost hdec)
  rw [hbuf] at hdec
  cases hwait : s.hWait <;> simp [State.hostTurn, hwait, hbuf, hdec]

theorem hostTurn_of_waiting {s : State} (hwait : s.hWait = true) : s.hostTurn = .next s := by
  simp [State.hostTurn, hwait]

/-! ## The step -/

/-- A running state runs what it takes: one case per agent that takes instructions. -/
theorem Takes.step_eq {s u : State} {i : Instr} (hrun : Running s) (h : Takes s i u) :
    step s = exec i u := by
  cases h with
  | audio order a rest hsched hin hport hdec =>
    rw [step_of_running hrun hsched]
    exact audioTurn_instr hin hport hdec
  | control order w rest hsched hfree hin hport hdec =>
    rw [step_of_running hrun hsched]
    exact controlTurn_instr hfree hin hport hdec
  | host order hsched hwait hdec hfree =>
    have hgo : ¬ (s.hWait = true ∨ (s.issuesControl i = true ∧ s.PEND ≠ [])) := by
      rintro (hw | ⟨hissue, hbusy⟩)
      · rw [hwait] at hw; cases hw
      · exact hbusy (hfree hissue)
    rw [step_of_running hrun hsched]
    exact (hostTurn_instr (s := { s with sched := order }) hdec).trans (if_neg hgo)

/-- Settles O9: each clause is one way of taking an instruction, and a step runs what it takes. -/
theorem stepRunsTheDecodedInstruction : Obligations.StepRunsTheDecodedInstruction := by
  intro s i order hrun _
  refine ⟨fun a rest hsched hin hport hdec => ?audio,
    fun w rest hsched hin hfree hport hdec => ?control, fun hsched hwait _ hdec hfree => ?host⟩
  case audio => exact (Takes.audio order a rest hsched hin hport hdec).step_eq hrun
  case control => exact (Takes.control order w rest hsched hfree hin hport hdec).step_eq hrun
  case host => exact (Takes.host order hsched hwait hdec hfree).step_eq hrun

/-- Settles O12: the control port and the decoder are held by the in-flight list, while READ and TICK
are audio words, taken whatever is in flight. -/
theorem enqueueInFlightHoldsTheControlPortOnly :
    Obligations.EnqueueInFlightHoldsTheControlPortOnly := by
  intro s order hrun hbusy
  refine ⟨fun hsched => ?control, fun hsched hwait => ?waiting,
    fun i hsched _ hdec hissue => ?issuer, fun a rest i hsched hin hdec hi => ?audio⟩
  case control =>
    rw [step_of_running hrun hsched]
    exact controlTurn_of_busy (s := { s with sched := order }) hbusy
  case waiting =>
    rw [step_of_running hrun hsched]
    exact hostTurn_of_waiting (s := { s with sched := order }) hwait
  case issuer =>
    have hheld : s.hWait = true ∨ (s.issuesControl i = true ∧ s.PEND ≠ []) := .inr ⟨hissue, hbusy⟩
    rw [step_of_running hrun hsched]
    exact (hostTurn_instr (s := { s with sched := order }) hdec).trans (if_pos hheld)
  case audio =>
    have hport := decodeWord_audio a.word i hdec hi
    obtain ⟨t, ht⟩ := exec_next i
      { s with sched := order, audioIn := rest, ditN := a.ditN, dahN := a.dahN }
    exact ⟨t, ((Takes.audio order a rest hsched hin hport hdec).step_eq hrun).trans ht, ht⟩

end Sys2Proof.Machine
end

section
/-! The command-word decoder by opcode (30_encoding.md R100 to R109): what each operation's word
decodes to, whatever its reserved bits hold, and which opcodes are no operation's. -/

namespace Sys2Proof

/-! ## ENQT's code bits -/

/-- Below bit `2n` the kept codes are the operand's, and from there on they are 0 (R106, R108). -/
theorem keepCodes_getLsbD (n : BitVec 4) (codes : BitVec 20) (i : Nat) :
    (keepCodes n codes).getLsbD i = (decide (i < 2 * n.toNat) && codes.getLsbD i) := by
  have hpow : 4 ^ n.toNat = 2 ^ (2 * n.toNat) := by rw [pow_mul]; norm_num
  rw [keepCodes_eq, hpow, BitVec.getLsbD_ofNat, Nat.testBit_mod_two_pow, BitVec.testBit_toNat]
  by_cases hi : i < 20
  · simp [hi]
  · simp [hi, BitVec.getLsbD_of_ge codes i (by omega)]

theorem usedCodesOnly_keepCodes (n : BitVec 4) (codes : BitVec 20) :
    usedCodesOnly n (keepCodes n codes) = true := by
  have hlt : codes.toNat % 4 ^ n.toNat < 4 ^ n.toNat := Nat.mod_lt _ (by positivity)
  rw [usedCodesOnly, keepCodes_eq, BitVec.toNat_ofNat]
  exact decide_eq_true ((Nat.mod_le _ _).trans_lt hlt)

theorem keepCodes_of_usedCodesOnly {n : BitVec 4} {codes : BitVec 20}
    (h : usedCodesOnly n codes = true) : keepCodes n codes = codes := by
  rw [keepCodes_eq, Nat.mod_eq_of_lt (of_decide_eq_true h), BitVec.ofNat_toNat, BitVec.setWidth_eq]

/-- Bit `i` of the operand belongs to code `i / 2`, so the codes at `j < n` decide the kept bits. -/
theorem keepCodes_congr {n : BitVec 4} {codes clear : BitVec 20}
    (h : ∀ j, j < n.toNat → codes.extractLsb' (2 * j) 2 = clear.extractLsb' (2 * j) 2) :
    keepCodes n codes = keepCodes n clear := by
  apply BitVec.eq_of_getLsbD_eq
  intro i _
  rw [keepCodes_getLsbD, keepCodes_getLsbD]
  by_cases hi : i < 2 * n.toNat
  · have hbit := congrArg (fun code => code.getLsbD (i % 2)) (h (i / 2) (by omega))
    have hsmall : i % 2 < 2 := Nat.mod_lt i two_pos
    simpa [BitVec.getLsbD_extractLsb', hsmall, Nat.div_add_mod, hi] using hbit
  · simp [hi]

/-! ## The operations by opcode -/

theorem decodeWord_read (x : BitVec 24) : decodeWord (0x01#8 ++ x) = .instr .read := by
  rw [decodeWord_append]; rfl

theorem decodeWord_tick (x : BitVec 24) : decodeWord (0x02#8 ++ x) = .instr .tick := by
  rw [decodeWord_append]; rfl

theorem decodeWord_setf (value : BitVec 24) :
    decodeWord (0x10#8 ++ value) = .instr (.setf value) := by
  rw [decodeWord_append]; rfl

theorem decodeWord_setw (value : BitVec 24) :
    decodeWord (0x11#8 ++ value) = .instr (.setw value) := by
  rw [decodeWord_append]; rfl

theorem decodeWord_setr (value : BitVec 24) :
    decodeWord (0x12#8 ++ value) = .instr (.setr value) := by
  rw [decodeWord_append]; rfl

/-- SETV's fields (R104); the seven bits `r` between channel and mute are reserved (R108). -/
theorem decodeWord_setv (ch vol : BitVec 8) (r : BitVec 7) (mute : BitVec 1) :
    decodeWord (0x13#8 ++ (ch ++ (r ++ (mute ++ vol)))) = .instr (.setv ch (mute = 1) vol) := by
  have hch : (ch ++ (r ++ (mute ++ vol))).extractLsb' 16 8 = ch := extract_hi ch _
  have hmute : (ch ++ (r ++ (mute ++ vol))).getLsbD 8 = decide (mute = 1) := by
    have hbit : ∀ b : BitVec 1, b.getLsbD 0 = decide (b = 1) := by decide
    rw [BitVec.getLsbD_append, BitVec.getLsbD_append, BitVec.getLsbD_append]
    exact hbit mute
  have hvol : (ch ++ (r ++ (mute ++ vol))).extractLsb' 0 8 = vol := by
    ext i hi
    simp only [BitVec.getElem_extractLsb', Nat.zero_add, BitVec.getLsbD_append]
    rw [if_pos (by omega), if_pos (by omega), if_pos hi, BitVec.getLsbD_eq_getElem hi]
  rw [decodeWord_append, hch, hmute, hvol]; rfl

/-- ENQ's symbol code is its two low bits (R105), and the 22 bits `r` above are reserved (R108). -/
theorem decodeWord_enq (r : BitVec 22) (code : BitVec 2) :
    decodeWord (0x20#8 ++ (r ++ code)) = .instr (.enq (symOf code)) := by
  have hcode : (r ++ code).extractLsb' 0 2 = code := extract_lo r code
  rw [decodeWord_append, hcode]; rfl

/-- ENQT's count and codes (R106). -/
theorem decodeWord_enqt (n : BitVec 4) (codes : BitVec 20) :
    decodeWord (0x21#8 ++ (n ++ codes)) = .instr (.enqt n (keepCodes n codes)) := by
  have hn : (n ++ codes).extractLsb' 20 4 = n := extract_hi n codes
  have hcodes : (n ++ codes).extractLsb' 0 20 = codes := extract_lo n codes
  rw [decodeWord_append, hn, hcodes]; rfl

theorem decodeWord_clr (x : BitVec 24) : decodeWord (0x22#8 ++ x) = .instr .clr := by
  rw [decodeWord_append]; rfl

/-! ## Ports and unassigned opcodes -/

theorem portOf_eq_audio {w : Word} (h : (opcodeOf w).toNat ≤ 0x0F) : portOf w = .audio :=
  if_pos h

theorem portOf_eq_control {w : Word} (h : 0x10 ≤ (opcodeOf w).toNat) : portOf w = .control :=
  if_neg (by omega)

/-- The opcodes of the audio port's operations (R102). -/
def audioOpcodes : List Byte := [0x01, 0x02]

/-- The opcodes of the control port's operations (R102). -/
def controlOpcodes : List Byte := [0x10, 0x11, 0x12, 0x13, 0x20, 0x21, 0x22]

theorem toNat_le_of_mem_audioOpcodes : ∀ op ∈ audioOpcodes, op.toNat ≤ 0x0F := by decide

theorem le_toNat_of_mem_controlOpcodes : ∀ op ∈ controlOpcodes, 0x10 ≤ op.toNat := by decide

/-- An opcode in neither list is unassigned (R109). -/
theorem decodeWord_unassigned {w : Word} (haudio : opcodeOf w ∉ audioOpcodes)
    (hcontrol : opcodeOf w ∉ controlOpcodes) : decodeWord w = .rejected .unassignedOpcode := by
  simp only [audioOpcodes, controlOpcodes, List.mem_cons, List.not_mem_nil, or_false,
    not_or] at haudio hcontrol
  simp only [decodeWord, haudio, hcontrol, if_false]

/-! ## The obligations -/

/-- Settles O4: each operation's word is decoded by a lemma that keeps the reserved bits free. -/
theorem reservedBitsAreIgnored : Obligations.ReservedBitsAreIgnored := by
  refine ⟨fun op hop x => ?noOperand, fun ch vol r mute => ?setv, fun r sym => ?enq,
    fun n codes clear hsame => ?enqt⟩
  case noOperand =>
    rcases hop with rfl | rfl | rfl
    · exact (decodeWord_read x).trans (decodeWord_read 0).symm
    · exact (decodeWord_tick x).trans (decodeWord_tick 0).symm
    · exact (decodeWord_clr x).trans (decodeWord_clr 0).symm
  case setv => rw [decodeWord_setv, decodeWord_setv]
  case enq => rw [decodeWord_enq, decodeWord_enq]
  case enqt => rw [decodeWord_enqt, decodeWord_enqt, keepCodes_congr hsame]

/-- Settles O5: `decodeWord_append` gives the chain of R102; what is left is ENQT's operand in
numbers. -/
theorem opcodesDecodeAsAssigned : Obligations.OpcodesDecodeAsAssigned := by
  intro op x
  have hcount : (x.extractLsb' 20 4).toNat = x.toNat / 2 ^ 20 := by
    have hx := x.isLt
    rw [BitVec.extractLsb'_toNat, Nat.shiftRight_eq_div_pow]
    omega
  have hcodes : (x.extractLsb' 0 20).toNat = x.toNat % 2 ^ 20 := by
    rw [BitVec.extractLsb'_toNat, Nat.shiftRight_zero]
  rw [decodeWord_append, keepCodes_eq, hcount, hcodes]
  rfl

/-- Settles O6: each word of R114 is split into its fields, which the lemma of its opcode reads. -/
theorem encodingExamplesDecode : Obligations.EncodingExamplesDecode :=
  ⟨decodeWord_setf 600, decodeWord_setw 20, decodeWord_setw 150, decodeWord_setr 5,
    decodeWord_setv 0 100 0 0, decodeWord_setv 0 0 0 1, decodeWord_setv 1 50 0 0,
    decodeWord_enq 0 1, decodeWord_enqt 2 4, decodeWord_enqt 3 0x11, decodeWord_enqt 5 0,
    decodeWord_enqt 0 0, decodeWord_clr 0⟩

end Sys2Proof
end

section
/-! Words that no operation comes of: at the wrong port (30_encoding.md R101; 60_exceptions.md
R343), and with an unassigned opcode at their own (R109). -/

namespace Sys2Proof.Machine

/-! ## The moves of the ports -/

theorem audioTurn_wrongPort {s : State} {a : AudioWord} {rest : List AudioWord}
    (hin : s.audioIn = a :: rest) (hport : portOf a.word = .control) :
    s.audioTurn =
      .next (State.markWrongPort { s with audioIn := rest, ditN := a.ditN, dahN := a.dahN }) := by
  simp [State.audioTurn, hin, hport]

theorem audioTurn_rejected {s : State} {a : AudioWord} {rest : List AudioWord} {r : Reject}
    (hin : s.audioIn = a :: rest) (hport : portOf a.word = .audio)
    (hdec : decodeWord a.word = .rejected r) :
    s.audioTurn = .next { s with audioIn := rest, ditN := a.ditN, dahN := a.dahN,
                                 ignored := s.ignored ++ [a.word] } := by
  simp [State.audioTurn, hin, hport, hdec]

theorem controlTurn_wrongPort {s : State} {w : Word} {rest : List Word} (hfree : s.PEND = [])
    (hin : s.controlIn = w :: rest) (hport : portOf w = .audio) :
    s.controlTurn = .next (State.markWrongPort { s with controlIn := rest }) := by
  simp [State.controlTurn, hfree, hin, hport]

theorem controlTurn_rejected {s : State} {w : Word} {rest : List Word} {r : Reject}
    (hfree : s.PEND = []) (hin : s.controlIn = w :: rest) (hport : portOf w = .control)
    (hdec : decodeWord w = .rejected r) :
    s.controlTurn = .next { s with controlIn := rest, ignored := s.ignored ++ [w] } := by
  simp [State.controlTurn, hfree, hin, hport, hdec]

/-! ## The obligations -/

/-- Settles O10: the opcode's range gives the word's port, and the other port's move records it. -/
theorem wrongPortWordIsRefused : Obligations.WrongPortWordIsRefused := by
  refine ⟨fun _ => rfl, fun s order hrun => ⟨fun a rest hsched hin hop => ?audio,
    fun w rest hsched hin hfree hop => ?control⟩⟩
  case audio =>
    rw [step_of_running hrun hsched]
    exact audioTurn_wrongPort (s := { s with sched := order }) hin (portOf_eq_control hop)
  case control =>
    rw [step_of_running hrun hsched]
    exact controlTurn_wrongPort (s := { s with sched := order }) hfree hin (portOf_eq_audio hop)

/-- Settles O11: an opcode of one port's range is none of the other port's operations, so one that
is none of its own port's is unassigned. -/
theorem unassignedOpcodeIsIgnored : Obligations.UnassignedOpcodeIsIgnored := by
  refine fun s order hrun => ⟨fun a rest hsched hin hop hread htick => ?audio,
    fun w rest hsched hin hfree hop hnone => ?control⟩
  case audio =>
    have haudio : opcodeOf a.word ∉ audioOpcodes := by
      simpa [audioOpcodes] using And.intro hread htick
    have hcontrol : opcodeOf a.word ∉ controlOpcodes := fun hmem => by
      have := le_toNat_of_mem_controlOpcodes _ hmem
      omega
    rw [step_of_running hrun hsched]
    exact audioTurn_rejected (s := { s with sched := order }) hin (portOf_eq_audio hop)
      (decodeWord_unassigned haudio hcontrol)
  case control =>
    have haudio : opcodeOf w ∉ audioOpcodes := fun hmem => by
      have := toNat_le_of_mem_audioOpcodes _ hmem
      omega
    rw [step_of_running hrun hsched]
    exact controlTurn_rejected (s := { s with sched := order }) hfree hin (portOf_eq_control hop)
      (decodeWord_unassigned haudio hnone)

end Sys2Proof.Machine
end

section
/-! The serial decoder by first byte (45_host_protocol.md R281 to R287, R306, R307), and the two
decoders against the encoder: decoding inverts encoding and answers well-formed instructions only. -/

namespace Sys2Proof

/-! ## Upper-casing (R282) -/

/-- No lower-case letter is left after upper-casing. -/
theorem upperCase_not_lower (c : Byte) : ¬ (0x61#8 ≤ upperCase c ∧ upperCase c ≤ 0x7A#8) := by
  unfold upperCase
  split_ifs with h
  · bv_omega
  · exact h

/-- A byte below the lower-case letters is its own upper case. -/
theorem upperCase_of_lt {c : Byte} (h : c < 0x61#8) : upperCase c = c :=
  if_neg fun hlower => BitVec.not_lt.mpr hlower.1 h

/-- A byte above the lower-case letters is its own upper case. -/
theorem upperCase_of_gt {c : Byte} (h : 0x7A#8 < c) : upperCase c = c :=
  if_neg fun hlower => BitVec.not_lt.mpr hlower.2 h

theorem isTextByte_iff (c : Byte) : isTextByte c = true ↔ 0x20#8 ≤ c ∧ c ≤ 0x5D#8 := by
  simp [isTextByte]

theorem isIgnoredByte_iff (g : Byte) :
    isIgnoredByte g = true ↔ (0x5E#8 ≤ g ∧ g ≤ 0x60#8) ∨ 0x7B#8 ≤ g := by
  simp [isIgnoredByte]

/-! ## The commands by first byte (R281) -/

section
variable (rest : List Byte)

theorem decodeHost_text {c : Byte} (h : isTextByte c = true) :
    decodeHost (c :: rest) = .instr (.hostText c) := by
  rw [isTextByte_iff] at h
  rw [decodeHost, upperCase_of_lt (by bv_omega)]
  exact if_pos h

theorem decodeHost_admin : decodeHost (0x00 :: rest) = decodeAdmin rest := rfl

/-- A byte below 0x20 is its five low bits. -/
theorem setWidth_extractLsb'_of_le {c : Byte} (h : c ≤ 0x1F#8) :
    (c.extractLsb' 0 5).setWidth 8 = c := by
  apply BitVec.eq_of_toNat_eq
  rw [BitVec.toNat_setWidth, BitVec.extractLsb'_toNat, Nat.shiftRight_zero]
  bv_omega

theorem extractLsb'_setWidth (b : BitVec 5) : (b.setWidth 8).extractLsb' 0 5 = b := by
  apply BitVec.eq_of_toNat_eq
  rw [BitVec.extractLsb'_toNat, BitVec.toNat_setWidth, Nat.shiftRight_zero]
  omega

theorem decodeHost_ctrlNop {b : BitVec 5} (h : b ∉ namedControlBytes) :
    decodeHost (b.setWidth 8 :: rest) = .instr (.hostCtrlNop b) := by
  have hle : b.setWidth 8 ≤ 0x1F#8 := by bv_omega
  have hne {k : Byte} (hk : k.extractLsb' 0 5 ∈ namedControlBytes) : b.setWidth 8 ≠ k := by
    rintro rfl
    rw [extractLsb'_setWidth] at hk
    exact h hk
  rw [decodeHost, upperCase_of_lt (by bv_omega)]
  rw [if_neg (by bv_omega), if_neg (hne (by decide)), if_neg (hne (by decide)),
    if_neg (hne (by decide)), if_neg (hne (by decide)), if_neg (hne (by decide)),
    if_neg (hne (by decide)), if_pos hle, extractLsb'_setWidth]

theorem decodeHost_ignored {g : Byte} (h : isIgnoredByte g = true) :
    decodeHost (g :: rest) = .instr (.hostIgnored g) := by
  rw [isIgnoredByte_iff] at h
  have hupper : upperCase g = g := by
    rcases h with ⟨_, hle⟩ | hge
    · exact upperCase_of_lt (by bv_omega)
    · exact upperCase_of_gt (by bv_omega)
  rw [decodeHost, hupper]
  rw [if_neg (by bv_omega), if_neg (by bv_omega), if_neg (by bv_omega), if_neg (by bv_omega),
    if_neg (by bv_omega), if_neg (by bv_omega), if_neg (by bv_omega), if_neg (by bv_omega)]

theorem adminOf_of_unnamed {id : Byte} (h : id ∉ namedAdminIds) :
    adminOf id = .hostAdminOther id := by
  simp only [namedAdminIds, List.mem_cons, List.not_mem_nil, or_false, not_or] at h
  simp only [adminOf, h, if_false]

theorem decodeHost_adminOther {id : Byte} (h : id ∉ namedAdminIds) :
    decodeHost (0x00 :: id :: rest) = .instr (.hostAdminOther id) := by
  have hne {k : Byte} (hk : k ∈ namedAdminIds) : id ≠ k := fun e => h (e ▸ hk)
  rw [decodeHost_admin, decodeAdmin, if_neg (hne (by decide)), if_neg (hne (by decide)),
    if_neg (hne (by decide)), adminOf_of_unnamed h]

end

/-! ## Decoding inverts encoding -/

/-- The word of an operation decodes to it (30_encoding.md R100 to R107). -/
theorem decodeWord_encode {i : Instr} {w : Word} (hwf : i.wellFormed = true)
    (henc : encode i = .word w) : decodeWord w = .instr i := by
  cases i with
  | read => cases henc; exact decodeWord_read 0
  | tick => cases henc; exact decodeWord_tick 0
  | setf value => cases henc; exact decodeWord_setf value
  | setw value => cases henc; exact decodeWord_setw value
  | setr value => cases henc; exact decodeWord_setr value
  | setv ch mute vol =>
    cases henc
    refine (decodeWord_setv ch vol 0 (BitVec.ofBool mute)).trans ?_
    cases mute <;> rfl
  | enq sym =>
    cases henc
    refine (decodeWord_enq 0 (codeOfSymbol sym)).trans ?_
    cases sym <;> rfl
  | enqt n codes =>
    cases henc
    refine (decodeWord_enqt n codes).trans ?_
    rw [keepCodes_of_usedCodesOnly hwf]
  | clr => cases henc; exact decodeWord_clr 0
  | _ => cases henc

/-- The bytes of a serial command decode to it at the front of any chunk (45_host_protocol.md R281,
R286). Only four commands have a first byte or id that depends on an operand; the scan reads every
other one off its fixed bytes. -/
theorem decodeHost_encode_append {i : Instr} {bs : List Byte} (rest : List Byte)
    (hwf : i.wellFormed = true) (henc : encode i = .bytes bs) :
    decodeHost (bs ++ rest) = .instr i := by
  cases i with
  | hostText c => cases henc; exact decodeHost_text rest hwf
  | hostAdminOther id =>
    cases henc
    exact decodeHost_adminOther rest (by simpa [Instr.wellFormed] using hwf)
  | hostCtrlNop b =>
    cases henc
    exact decodeHost_ctrlNop rest (by simpa [Instr.wellFormed] using hwf)
  | hostIgnored g => cases henc; exact decodeHost_ignored rest hwf
  | _ => cases henc <;> rfl

/-- Settles O1: an encoding is a word, or the bytes of a serial command with nothing after them. -/
theorem decodeOfEncodeIsIdentity : Obligations.DecodeOfEncodeIsIdentity := by
  intro i hwf
  cases henc : encode i with
  | word w => exact decodeWord_encode hwf henc
  | bytes bs => simpa [decode] using decodeHost_encode_append [] hwf henc

/-! ## The decoders answer well-formed instructions only -/

/-- The answer is a rejection or a well-formed instruction. -/
def Decoded.WellFormed : Decoded → Prop
  | .instr i => i.wellFormed = true
  | .rejected _ => True

theorem withByte_wellFormed {f : Byte → Instr} (hf : ∀ x, (f x).wellFormed = true)
    (bs : List Byte) : (withByte f bs).WellFormed := by
  cases bs with
  | nil => trivial
  | cons x _ => exact hf x

/-- ENQT is the only operation with an operand to check, and decoding has cut its codes (R106). -/
theorem decodeWord_wellFormed (w : Word) : (decodeWord w).WellFormed := by
  unfold decodeWord
  simp only []
  split_ifs
  case neg => trivial
  iterate 7 exact rfl
  · exact usedCodesOnly_keepCodes _ _
  · exact rfl

/-- An id that takes no third byte: it has a command of its own, or no row (R287, R300). -/
theorem adminOf_wellFormed {id : Byte} (hecho : id ≠ 4) (hrise : id ≠ 26) (hfreq : id ≠ 27) :
    (adminOf id).wellFormed = true := by
  have hnamed : ∀ id ∈ namedAdminIds, id ≠ 4 → id ≠ 26 → id ≠ 27 →
      (adminOf id).wellFormed = true := by decide
  by_cases h : id ∈ namedAdminIds
  · exact hnamed id h hecho hrise hfreq
  · rw [adminOf_of_unnamed h]
    simpa [Instr.wellFormed] using h

theorem decodeAdmin_wellFormed (bs : List Byte) : (decodeAdmin bs).WellFormed := by
  cases bs with
  | nil => trivial
  | cons id rest =>
    rw [decodeAdmin]
    split_ifs with hecho hrise hfreq
    · exact withByte_wellFormed (fun _ => rfl) rest
    · exact withByte_wellFormed (fun _ => rfl) rest
    · exact withByte_wellFormed (fun _ => rfl) rest
    · exact adminOf_wellFormed hecho hrise hfreq

/-- Each test of the scan that fails leaves a smaller range of first bytes: what reaches
`HOST.CTRL.NOP` has no meaning of its own, and what reaches `HOST.IGNORED` is above the text bytes
and no lower-case letter (R281, R282). -/
theorem decodeHost_wellFormed (bs : List Byte) : (decodeHost bs).WellFormed := by
  cases bs with
  | nil => trivial
  | cons b rest =>
    have hlower := upperCase_not_lower b
    unfold decodeHost
    simp only []
    generalize upperCase b = c at hlower ⊢
    split_ifs with htext h00 h01 h02 h07 h0E h15 hctrl
    · exact (isTextByte_iff c).mpr htext
    · exact decodeAdmin_wellFormed rest
    · exact withByte_wellFormed (fun _ => rfl) rest
    · exact withByte_wellFormed (fun _ => rfl) rest
    · rfl
    · rfl
    · rfl
    · have hfree : c.extractLsb' 0 5 ∉ namedControlBytes := by
        intro hnamed
        have hmem : (c.extractLsb' 0 5).setWidth 8 ∈ namedControlBytes.map (BitVec.setWidth 8) :=
          List.mem_map_of_mem hnamed
        have hbytes : namedControlBytes.map (BitVec.setWidth 8) =
            [0x00, 0x01, 0x02, 0x07, 0x0E, 0x15] := rfl
        rw [setWidth_extractLsb'_of_le hctrl, hbytes] at hmem
        simp only [List.mem_cons, h00, h01, h02, h07, h0E, h15, List.not_mem_nil, or_self] at hmem
      simpa [Decoded.WellFormed, Instr.wellFormed] using hfree
    · exact (isIgnoredByte_iff c).mpr (by bv_omega)

/-- Settles O3: both decoders' answers are well formed, branch by branch. -/
theorem decodersGiveWellFormed : Obligations.DecodersGiveWellFormed := by
  intro c i hdec
  have hanswer : (decode c).WellFormed := by
    cases c with
    | word w => exact decodeWord_wellFormed w
    | bytes bs => exact decodeHost_wellFormed bs
  rwa [hdec] at hanswer

end Sys2Proof
end

section
/-! The transition phase of a TICK by keyer state (40_keying.md R142 to R159): one equation for each
state and situation, and from it the obligations about a single TICK. -/

namespace Sys2Proof.Machine

/-! ## Entering a state (R147) -/

section
variable (s : State)

@[simp] theorem State.endIndex_initPause : s.endIndex .initPause = s.par.SR := rfl
@[simp] theorem State.endIndex_idle : s.endIndex .idle = 0 := rfl
@[simp] theorem State.endIndex_dit : s.endIndex .dit = s.D := Nat.mul_one _
@[simp] theorem State.endIndex_dah : s.endIndex .dah = s.D * 3 := rfl
@[simp] theorem State.endIndex_ditPause : s.endIndex .ditPause = s.D := Nat.mul_one _
@[simp] theorem State.endIndex_dahPause : s.endIndex .dahPause = s.D := Nat.mul_one _

theorem State.enter_eq (k : Keyer) (c : Option Indicator) :
    s.enter k c = { s with K := k, p := 0, e := s.endIndex k, IND := c.getD s.IND } := rfl

end

/-! ## The choices of an Idle resolution (R153) -/

section
variable {s : State} {dit dah : Bool}

theorem idleResolve_latchedDit (hL : s.L = .dit) :
    s.idleResolve dit dah = State.enter { s with L := .none } .dit (some .manual) := by
  simp only [State.idleResolve, hL]

theorem idleResolve_latchedDah (hL : s.L = .dah) :
    s.idleResolve dit dah = State.enter { s with L := .none } .dah (some .manual) := by
  simp only [State.idleResolve, hL]

theorem idleResolve_ditPaddle (hL : s.L = .none) :
    s.idleResolve true dah = State.enter { s with Q := [] } .dit (some .manual) := by
  simp only [State.idleResolve, hL, if_true]

theorem idleResolve_dahPaddle (hL : s.L = .none) :
    s.idleResolve false true = State.enter { s with Q := [] } .dah (some .manual) := by
  simp only [State.idleResolve, hL, Bool.false_eq_true, if_true, if_false]

theorem idleResolve_queued {sym : Symbol} {rest : List Symbol} (hL : s.L = .none)
    (hQ : s.Q = sym :: rest) :
    s.idleResolve false false =
      State.enter { s with Q := rest } (poppedState sym) (some .queued) := by
  simp only [State.idleResolve, hL, hQ, Bool.false_eq_true, if_false]

theorem idleResolve_nothing (hL : s.L = .none) (hQ : s.Q = []) :
    s.idleResolve false false = s.enter .idle (some .off) := by
  simp only [State.idleResolve, hL, hQ, Bool.false_eq_true, if_false]

/-! ## The transition phase -/

theorem transition_init (hK : s.K = .init) :
    s.transition dit dah = some (s.enter .initPause (some .off)) := by
  simp only [State.transition, hK]

theorem transition_unpaused_window (hK : s.K = .initPause ∨ s.K = .dit ∨ s.K = .dah)
    (hend : ¬ PastEnd s) : s.transition dit dah = some s := by
  rcases hK with hK | hK | hK <;>
    simp only [State.transition, hK, expired_eq_false s hend, Bool.false_eq_true, if_false]

theorem transition_dit_pastEnd (hK : s.K = .dit) (hend : PastEnd s) :
    s.transition dit dah = some (s.enter .ditPause none) := by
  simp only [State.transition, hK, (expired_iff s).mpr hend, if_true]

theorem transition_dah_pastEnd (hK : s.K = .dah) (hend : PastEnd s) :
    s.transition dit dah = some (s.enter .dahPause none) := by
  simp only [State.transition, hK, (expired_iff s).mpr hend, if_true]

theorem transition_ditPause_window (hK : s.K = .ditPause) (hend : ¬ PastEnd s) :
    s.transition dit dah = some (s.latch dah .dah) := by
  simp only [State.transition, hK, expired_eq_false s hend, Bool.false_eq_true, if_false]

theorem transition_dahPause_window (hK : s.K = .dahPause) (hend : ¬ PastEnd s) :
    s.transition dit dah = some (s.latch dit .dit) := by
  simp only [State.transition, hK, expired_eq_false s hend, Bool.false_eq_true, if_false]

theorem transition_ditPause_pressed (hK : s.K = .ditPause) (hend : PastEnd s) (hdah : dah = true) :
    s.transition dit dah = some (State.enter { s with L := .none } .dah (some .manual)) := by
  simp only [State.transition, hK, (expired_iff s).mpr hend, State.pauseExpiry, hdah, if_true]

theorem transition_dahPause_pressed (hK : s.K = .dahPause) (hend : PastEnd s) (hdit : dit = true) :
    s.transition dit dah = some (State.enter { s with L := .none } .dit (some .manual)) := by
  simp only [State.transition, hK, (expired_iff s).mpr hend, State.pauseExpiry, hdit, if_true]

end

/-- The situations in which a TICK runs `IdleResolve` (R143, R152, R153). -/
def ResolvesIdle (s : State) (dit dah : Bool) : Prop :=
  s.K = .idle ∨ (s.K = .initPause ∧ PastEnd s) ∨ (s.K = .ditPause ∧ PastEnd s ∧ dah = false) ∨
    (s.K = .dahPause ∧ PastEnd s ∧ dit = false)

theorem transition_resolvesIdle {s : State} {dit dah : Bool} (h : ResolvesIdle s dit dah) :
    s.transition dit dah = some (s.idleResolve dit dah) := by
  rcases h with hK | ⟨hK, hend⟩ | ⟨hK, hend, rfl⟩ | ⟨hK, hend, rfl⟩
  · simp only [State.transition, hK]
  · simp only [State.transition, hK, (expired_iff s).mpr hend, if_true]
  · simp only [State.transition, hK, (expired_iff s).mpr hend, State.pauseExpiry, if_true,
      Bool.false_eq_true, if_false]
  · simp only [State.transition, hK, (expired_iff s).mpr hend, State.pauseExpiry, if_true,
      Bool.false_eq_true, if_false]

/-! ## One TICK of a legal state -/

theorem exec_tick_of_transition {s t : State} (h : Inv s)
    (ht : s.transition (!s.ditN) (!s.dahN) = some t) : exec .tick s = .next (afterTick s t) :=
  congrArg Host.Outcome.next (tick_afterTick s t h ht)

/-- Settles O29: Init is left by `Enter(InitPause, 0)`, with no condition. -/
theorem tickFromInitEntersInitPause : Obligations.TickFromInitEntersInitPause := by
  intro s h hK
  rw [exec_tick_of_transition h (transition_init hK), State.enter_eq, State.endIndex_initPause,
    Option.getD_some]

/-- Settles O31: before the end index the transition phase leaves the state as it is, past it the pause
is entered. -/
theorem ditAndDahEndInTheirPause : Obligations.DitAndDahEndInTheirPause := by
  intro s h
  refine ⟨fun hK hend => ?window, fun hK hend => ?dit, fun hK hend => ?dah⟩
  case window => exact exec_tick_of_transition h (transition_unpaused_window hK hend)
  case dit =>
    rw [exec_tick_of_transition h (transition_dit_pastEnd hK hend), State.enter_eq,
      State.endIndex_ditPause, Option.getD_none]
  case dah =>
    rw [exec_tick_of_transition h (transition_dah_pastEnd hK hend), State.enter_eq,
      State.endIndex_dahPause, Option.getD_none]

/-- The latch in the words of R150: only the flag is written, and only by a pressed paddle. -/
theorem latch_eq (s : State) (pressed : Bool) (sym : LookAhead) :
    s.latch pressed sym = { s with L := if pressed = true then sym else s.L } := by
  cases pressed <;> rfl

/-- Settles O32: each pause's window is its latch. -/
theorem pauseWindowLatchesTheOppositePaddle : Obligations.PauseWindowLatchesTheOppositePaddle := by
  intro s h hend
  refine ⟨fun hK => ?ditPause, fun hK => ?dahPause⟩
  case ditPause =>
    rw [exec_tick_of_transition h (transition_ditPause_window hK hend), latch_eq]
    simp only [Bool.not_eq_true']
  case dahPause =>
    rw [exec_tick_of_transition h (transition_dahPause_window hK hend), latch_eq]
    simp only [Bool.not_eq_true']

/-- Settles O33: the direct transition of either pause. -/
theorem pauseExpiryGoesDirectlyToTheOppositeSymbol :
    Obligations.PauseExpiryGoesDirectlyToTheOppositeSymbol := by
  intro s h hend
  refine ⟨fun hK hdah => ?ditPause, fun hK hdit => ?dahPause⟩
  case ditPause =>
    exact exec_tick_of_transition h (transition_ditPause_pressed hK hend (by simp [hdah]))
  case dahPause =>
    rw [exec_tick_of_transition h (transition_dahPause_pressed hK hend (by simp [hdit])),
      State.enter_eq, State.endIndex_dit, Option.getD_some]

/-- Settles O34: the situations resolve Idle, and `IdleResolve`'s choices are taken in R153's order. -/
theorem idleResolutionFollowsThePriority : Obligations.IdleResolutionFollowsThePriority := by
  intro s h hsit
  have hres : ResolvesIdle s (!s.ditN) (!s.dahN) := by
    simpa only [ResolvesIdle, Bool.not_eq_false'] using hsit
  rw [exec_tick_of_transition h (transition_resolvesIdle hres)]
  congr 2
  cases hL : s.L with
  | dit => simp [idleResolve_latchedDit hL, State.enter_eq]
  | dah => simp [idleResolve_latchedDah hL, State.enter_eq]
  | none =>
    cases hdit : s.ditN with
    | false => simp [idleResolve_ditPaddle hL, State.enter_eq, hL, hdit]
    | true =>
      cases hdah : s.dahN with
      | false => simp [idleResolve_dahPaddle hL, State.enter_eq, hL, hdit, hdah]
      | true =>
        cases hQ : s.Q with
        | nil => simp [idleResolve_nothing hL hQ, State.enter_eq, hL, hdit, hdah, hQ]
        | cons sym rest =>
          cases sym <;>
            simp [idleResolve_queued hL hQ, State.enter_eq, poppedState, hL, hdit, hdah]

end Sys2Proof.Machine
end

section
/-! Rows of TICKs under any pins (40_keying.md R143, R145, R161, R162): inside a state's window every
TICK is the same but for the latch, so the progress counts them, and the TICK past the end leaves. -/

namespace Sys2Proof.Machine

/-! ## What the invariant gives the keyer -/

theorem Inv.not_reserved {s : State} (h : Inv s) : s.K ≠ .reserved := by
  obtain ⟨_, _, ⟨hK, _⟩, _⟩ := h
  exact hK

theorem Inv.buffer_pos {s : State} (h : Inv s) : 1 ≤ s.par.B := by
  obtain ⟨⟨⟨_, ⟨hB, _⟩, _⟩, _⟩, _⟩ := h
  exact hB

/-- InitPause lasts one second (10_state.md R38). -/
theorem Inv.initPause_end {s : State} (h : Inv s) (hK : s.K = .initPause) : s.e = s.par.SR := by
  obtain ⟨_, _, ⟨_, _, _, _, hend, _⟩, _⟩ := h
  exact hend hK

/-! ## One TICK -/

/-- Inside its window a state is left as it is, but for the latch (R143, R144, R150). -/
theorem transition_window {s : State} {dit dah : Bool} (hres : s.K ≠ .reserved)
    (hinit : s.K ≠ .init) (hidle : s.K ≠ .idle) (hend : ¬ PastEnd s) :
    ∃ l, s.transition dit dah = some { s with L := l } := by
  have hK : (s.K = .initPause ∨ s.K = .dit ∨ s.K = .dah) ∨ s.K = .ditPause ∨ s.K = .dahPause := by
    revert hres hinit hidle
    cases s.K <;> decide
  rcases hK with hK | hK | hK
  · exact ⟨s.L, transition_unpaused_window hK hend⟩
  · exact ⟨_, (transition_ditPause_window hK hend).trans (by rw [latch_eq])⟩
  · exact ⟨_, (transition_dahPause_window hK hend).trans (by rw [latch_eq])⟩

/-- Past its end a state is left for one entered afresh (R147). -/
theorem transition_pastEnd {s t : State} {dit dah : Bool} (hend : PastEnd s)
    (ht : s.transition dit dah = some t) : t.p = 0 := by
  have hexp : s.expired ≠ false := by simp [(expired_iff s).mpr hend]
  rcases transition_cases s t dit dah ht with ⟨_, _, he⟩ | ⟨_, he, _⟩ | ⟨_, he, _⟩ | ⟨_, rfl⟩ |
    ⟨_, _, rfl⟩ | ⟨_, _, rfl⟩ | ⟨_, _, _, rfl⟩ | ⟨_, _, _, rfl⟩ | ⟨_, rfl⟩
  · exact absurd he hexp
  · exact absurd he hexp
  · exact absurd he hexp
  · exact State.enter_p ..
  · exact State.enter_p ..
  · exact State.enter_p ..
  · exact State.enter_p ..
  · exact State.enter_p ..
  · rw [idleResolve_eq, State.enter_p]

/-- `t` is `s` after `n` TICKs inside the window of its state: what such TICKs keep, and the progress
they count (R145). -/
def WindowRun (s t : State) (n : Nat) : Prop :=
  t.par = s.par ∧ t.K = s.K ∧ t.e = s.e ∧ t.p = s.p + n * s.par.B ∧ t.IND = s.IND ∧ t.Q = s.Q

theorem windowRun_zero (s : State) : WindowRun s s 0 := ⟨rfl, rfl, rfl, by simp, rfl, rfl⟩

theorem WindowRun.state_eq {s t : State} {n : Nat} (h : WindowRun s t n) : t.K = s.K := by
  obtain ⟨_, hK, _⟩ := h
  exact hK

theorem WindowRun.succ {s t u : State} {n : Nat} (hst : WindowRun s t n) (htu : WindowRun t u 1) :
    WindowRun s u (n + 1) := by
  obtain ⟨hpar, hK, he, hp, hIND, hQ⟩ := hst
  obtain ⟨hpar', hK', he', hp', hIND', hQ'⟩ := htu
  refine ⟨hpar'.trans hpar, hK'.trans hK, he'.trans he, ?_, hIND'.trans hIND, hQ'.trans hQ⟩
  rw [hp', hp, hpar]
  ring

/-- The expiry test reads the parameters, the end index and the progress only (R146). -/
theorem WindowRun.pastEnd_iff {s t : State} {n : Nat} (h : WindowRun s t n) :
    PastEnd t ↔ PastEnd { s with p := s.p + n * s.par.B } := by
  obtain ⟨hpar, _, he, hp, _⟩ := h
  simp only [PastEnd, hpar, he, hp]

theorem windowRun_tick {s : State} (h : Inv s) (hinit : s.K ≠ .init) (hidle : s.K ≠ .idle)
    (hend : ¬ PastEnd s) : WindowRun s s.tick 1 := by
  obtain ⟨l, ht⟩ := transition_window h.not_reserved hinit hidle hend
  rw [tick_afterTick s _ h ht]
  exact ⟨rfl, rfl, rfl, by simp [afterTick, hidle], rfl, rfl⟩

/-- Past its end a state is left for Idle, or for a state whose first buffer is rendered (R162). -/
theorem tick_pastEnd_progress {s : State} (h : Inv s) (hend : PastEnd s) :
    (s.tick.K = .idle ∧ s.tick.p = 0) ∨ (s.tick.K ≠ .idle ∧ s.tick.p = s.par.B) := by
  obtain ⟨t, ht⟩ := transition_isSome s (!s.ditN) (!s.dahN) h.not_reserved
  have hp : t.p = 0 := transition_pastEnd hend ht
  rw [tick_afterTick s _ h ht]
  by_cases hidle : t.K = .idle
  · exact .inl ⟨hidle, by simp [afterTick, hidle, hp]⟩
  · exact .inr ⟨hidle, by simp [afterTick, hidle, hp]⟩

/-- What an Idle resolution enters is never InitPause (R153). -/
theorem tick_initPause_pastEnd {s : State} (h : Inv s) (hK : s.K = .initPause) (hend : PastEnd s) :
    s.tick.K ≠ .initPause := by
  rw [tick_afterTick s _ h (transition_resolvesIdle (.inr (.inl ⟨hK, hend⟩)))]
  change (s.idleResolve _ _).K ≠ .initPause
  rw [idleResolve_eq, State.enter_K]
  rcases idleChoice_state s (!s.ditN) (!s.dahN) with ⟨hk, _⟩ | ⟨hk | hk | hk, _⟩ <;> simp [hk]

/-- A TICK that leaves a state other than Dit and Dah leaves a silent buffer (R193). -/
theorem tick_OUT_silent {s : State} (h : Inv s) (hdit : s.tick.K ≠ .dit) (hdah : s.tick.K ≠ .dah) :
    s.tick.OUT = List.replicate s.par.B 0 := by
  obtain ⟨t, ht⟩ := transition_isSome s (!s.ditN) (!s.dahN) h.not_reserved
  have hpar : t.par = s.par := transition_par s t _ _ ht
  rw [tick_afterTick s _ h ht] at hdit hdah ⊢
  have hsilent := render_silent t (sounds_false_of_state t hdit hdah)
  rw [← hpar]
  exact renderedBuffer_of_render t _ hsilent

/-! ## Rows of TICKs -/

theorem ticks_cons (s : State) (pin : Bool × Bool) (pins : List (Bool × Bool)) :
    s.ticks (pin :: pins) = (State.tick { s with ditN := pin.1, dahN := pin.2 }).ticks pins := rfl

/-- As long as the progress has not passed the end index, a row of TICKs only counts, whatever the
pins. -/
theorem windowRun_ticks {s : State} (h : Inv s) (hinit : s.K ≠ .init) (hidle : s.K ≠ .idle)
    (pins : List (Bool × Bool))
    (hwin : ∀ k < pins.length, ¬ PastEnd { s with p := s.p + k * s.par.B }) :
    WindowRun s (s.ticks pins) pins.length := by
  induction pins using List.reverseRecOn with
  | nil => exact windowRun_zero s
  | append_singleton pins pin ih =>
    rw [List.length_append, List.length_singleton] at hwin ⊢
    have hrun : WindowRun s (s.ticks pins) pins.length := ih fun k hk => hwin k (by omega)
    have hend : ¬ PastEnd (s.ticks pins) := hrun.pastEnd_iff.not.mpr (hwin _ (by omega))
    rw [ticks_append]
    exact hrun.succ (windowRun_tick (inv_pins _ (inv_ticks s h pins) pin.1 pin.2)
      (hrun.state_eq.trans_ne hinit) (hrun.state_eq.trans_ne hidle) hend)

/-- After `k` further TICKs the progress is `(k + 1) × B` (R145): `e / B` of them stay in the window
(R162). -/
theorem progress_le_iff {B : Nat} (hB : 1 ≤ B) (k e : Nat) : B + k * B ≤ e ↔ k < e / B := by
  rw [Nat.lt_iff_add_one_le, Nat.le_div_iff_mul_le hB, Nat.add_mul, Nat.one_mul, Nat.add_comm]

section
variable {s : State} (h : Inv s) (hcmp : s.par.EXPIRY_CMP = .gt) (hp : s.p = s.par.B)
include h hcmp hp

/-- From a state's first buffer on, under the comparison gt. -/
theorem pastEnd_firstBuffer_iff (k : Nat) :
    PastEnd { s with p := s.p + k * s.par.B } ↔ s.e / s.par.B ≤ k := by
  have hle := progress_le_iff h.buffer_pos k s.e
  simp only [PastEnd, hcmp, hp, true_and, reduceCtorEq, false_and, or_false]
  omega

variable (hinit : s.K ≠ .init) (hidle : s.K ≠ .idle)
include hinit hidle

theorem windowRun_firstBuffer (pins : List (Bool × Bool))
    (hlen : pins.length ≤ s.e / s.par.B) : WindowRun s (s.ticks pins) pins.length :=
  windowRun_ticks h hinit hidle pins fun k hk =>
    (pastEnd_firstBuffer_iff h hcmp hp k).not.mpr (by omega)

/-- The row that leaves the state: `e / B` TICKs to a state past its end, and one more. -/
theorem ticks_leave_firstBuffer (pins : List (Bool × Bool))
    (hlen : pins.length = s.e / s.par.B + 1) :
    ∃ u, Inv u ∧ PastEnd u ∧ WindowRun s u (s.e / s.par.B) ∧ s.ticks pins = u.tick := by
  obtain ⟨row, pin, rfl⟩ : ∃ row pin, pins = row ++ [pin] :=
    (List.eq_nil_or_concat' pins).resolve_left (by rintro rfl; simp at hlen)
  have hrow : row.length = s.e / s.par.B := by simpa using hlen
  have hrun := windowRun_firstBuffer h hcmp hp hinit hidle row hrow.le
  rw [hrow] at hrun
  exact ⟨{ s.ticks row with ditN := pin.1, dahN := pin.2 }, inv_pins _ (inv_ticks s h row) _ _,
    hrun.pastEnd_iff.mpr ((pastEnd_firstBuffer_iff h hcmp hp _).mpr le_rfl), hrun,
    ticks_append s row pin⟩

end

/-- Settles O36: the window's TICKs count `B` each, and the one past them leaves the state. -/
theorem stateLastsFloorPlusOneTicks : Obligations.StateLastsFloorPlusOneTicks := by
  intro s pins h hcmp hinit hidle hp
  refine ⟨fun hlen => ?stays, fun hlen => ?leaves⟩
  case stays =>
    obtain ⟨_, hK, he, hp', _⟩ := windowRun_firstBuffer h hcmp hp hinit hidle pins hlen
    exact ⟨hK, he, by rw [hp', hp]; ring⟩
  case leaves =>
    obtain ⟨u, hu, hend, ⟨hpar, _⟩, e⟩ := ticks_leave_firstBuffer h hcmp hp hinit hidle pins hlen
    rw [e, ← hpar]
    exact tick_pastEnd_progress hu hend

/-! ## The start-up guard (R161) -/

/-- A row that starts in Init: its first TICK enters InitPause and renders its first buffer (R142). -/
theorem ticks_init {s : State} (h : Inv s) (hK : s.K = .init) (pin : Bool × Bool)
    (row : List (Bool × Bool)) :
    ∃ a, Inv a ∧ a.par = s.par ∧ a.K = .initPause ∧ a.p = a.par.B ∧ a.IND = .off ∧ a.Q = s.Q ∧
      s.ticks (pin :: row) = a.ticks row := by
  have hs : Inv { s with ditN := pin.1, dahN := pin.2 } := inv_pins s h _ _
  have ha := inv_tick _ hs
  have hrow := ticks_cons s pin row
  rw [tick_afterTick _ _ hs (transition_init hK)] at ha hrow
  exact ⟨_, ha, rfl, rfl, by simp [afterTick], rfl, rfl, hrow⟩

/-- InitPause from its first buffer on (R143, R161). -/
theorem ticks_initPause {a : State} (h : Inv a) (hcmp : a.par.EXPIRY_CMP = .gt)
    (hK : a.K = .initPause) (hp : a.p = a.par.B) (row : List (Bool × Bool)) :
    (row.length ≤ a.par.SR / a.par.B → WindowRun a (a.ticks row) row.length) ∧
    (row.length = a.par.SR / a.par.B + 1 → (a.ticks row).K ≠ .initPause) := by
  have hinit : a.K ≠ .init := by rw [hK]; decide
  have hidle : a.K ≠ .idle := by rw [hK]; decide
  rw [← h.initPause_end hK]
  refine ⟨windowRun_firstBuffer h hcmp hp hinit hidle row, fun hlen => ?_⟩
  obtain ⟨u, hu, hend, hrun, e⟩ := ticks_leave_firstBuffer h hcmp hp hinit hidle row hlen
  rw [e]
  exact tick_initPause_pastEnd hu (hrun.state_eq.trans hK) hend

/-- The buffer of a row's last TICK, when that TICK leaves a silent state. -/
theorem ticks_OUT_silent {s : State} (h : Inv s) {pins : List (Bool × Bool)} (hne : pins ≠ [])
    (hdit : (s.ticks pins).K ≠ .dit) (hdah : (s.ticks pins).K ≠ .dah) :
    (s.ticks pins).OUT = List.replicate (s.ticks pins).par.B 0 := by
  obtain ⟨row, pin, rfl⟩ := (List.eq_nil_or_concat' pins).resolve_left hne
  rw [ticks_append] at hdit hdah ⊢
  rw [tick_OUT_silent (inv_pins _ (inv_ticks s h row) _ _) hdit hdah, State.tick_par]

/-- Settles O30: the first TICK enters InitPause, whose window is counted from its first buffer on. -/
theorem startUpGuardLastsOneSecond : Obligations.StartUpGuardLastsOneSecond := by
  intro s pins h hcmp hK hlen
  obtain ⟨pin, row, rfl⟩ := List.exists_cons_of_length_pos hlen
  obtain ⟨a, ha, hpar, hKa, hp, hIND, hQ, hrow⟩ := ticks_init h hK pin row
  obtain ⟨hstay, hleave⟩ := ticks_initPause ha (by rw [hpar, hcmp]) hKa hp row
  rw [hpar] at hstay hleave
  rw [List.length_cons]
  refine ⟨fun hle => ?guard, fun heq => ?leaves⟩
  case guard =>
    obtain ⟨rpar, rK, _, _, rIND, rQ⟩ := hstay (by omega)
    rw [← hrow] at rpar rK rIND rQ
    have hsilent := ticks_OUT_silent h (pins := pin :: row) (by simp) (by rw [rK, hKa]; decide)
      (by rw [rK, hKa]; decide)
    exact ⟨rK.trans hKa, rIND.trans hIND, rQ.trans hQ, by rw [hsilent, rpar, hpar]⟩
  case leaves =>
    rw [hrow]
    exact hleave (by omega)

end Sys2Proof.Machine
end

section
/-! Paddles held from Idle on (40_keying.md R164, R166): what holds after every TICK, and the circle
that both paddles drive. -/

namespace Sys2Proof.Machine

/-! ## One TICK -/

/-- Idle holds no look-ahead symbol (10_state.md R39). -/
theorem Inv.latch_idle {s : State} (h : Inv s) (hK : s.K = .idle) : s.L = .none := by
  obtain ⟨_, _, ⟨_, _, _, _, _, hL, _⟩, _⟩ := h
  simpa [hK] using hL

/-- An Idle resolution with nothing latched and the Dit paddle pressed (R155). -/
theorem tick_ditPaddle {s : State} (h : Inv s) (hres : ResolvesIdle s (!s.ditN) (!s.dahN))
    (hL : s.L = .none) (hdit : s.ditN = false) :
    s.tick = afterTick s (State.enter { s with Q := [] } .dit (some .manual)) := by
  have hpress : (!s.ditN) = true := by rw [hdit]; rfl
  have ht := transition_resolvesIdle hres
  rw [hpress, idleResolve_ditPaddle hL] at ht
  exact tick_afterTick s _ h (by rw [hpress]; exact ht)

/-- A TICK that leaves a state other than Idle has rendered a buffer of it (R145). -/
theorem le_tick_p {s : State} (h : Inv s) (hidle : s.tick.K ≠ .idle) : s.tick.par.B ≤ s.tick.p := by
  obtain ⟨t, ht⟩ := transition_isSome s (!s.ditN) (!s.dahN) h.not_reserved
  have hpar : t.par = s.par := transition_par s t _ _ ht
  rw [tick_afterTick s t h ht] at hidle ⊢
  have hK : t.K ≠ .idle := hidle
  simp [afterTick, hK, hpar]

/-! ## The same pins for a row of TICKs -/

/-- What the first TICK establishes and every further one keeps holds after any number of them. -/
theorem ticks_replicate_induction {s : State} (h : Inv s) (pin : Bool × Bool) {P : State → Prop}
    (start : P (State.tick { s with ditN := pin.1, dahN := pin.2 }))
    (keep : ∀ t, Inv t → P t → P (State.tick { t with ditN := pin.1, dahN := pin.2 })) :
    ∀ n, 1 ≤ n → P (s.ticks (List.replicate n pin)) := by
  intro n hn
  induction n, hn using Nat.le_induction with
  | base => exact start
  | succ n _ ih =>
    rw [List.replicate_succ', ticks_append]
    exact keep _ (inv_ticks s h _) ih

theorem ticks_replicate_add (s : State) (pin : Bool × Bool) (n k : Nat) :
    s.ticks (List.replicate (n + k) pin) =
      (s.ticks (List.replicate n pin)).ticks (List.replicate k pin) := by
  rw [List.replicate_add, State.ticks, List.foldl_append]
  rfl

/-! ## The Dit paddle held (R164) -/

/-- What every TICK with the Dit paddle alone held leaves. -/
def DitHeld (s : State) : Prop :=
  (s.K = .dit ∨ s.K = .ditPause) ∧ s.IND = .manual ∧ s.Q = [] ∧ s.L = .none

theorem ditHeld_of_resolvesIdle {s : State} (h : Inv s) (hdit : s.ditN = false)
    (hres : ResolvesIdle s (!s.ditN) (!s.dahN)) (hL : s.L = .none) : DitHeld s.tick := by
  rw [tick_ditPaddle h hres hL hdit]
  exact ⟨.inl rfl, rfl, rfl, hL⟩

theorem ditHeld_tick {s : State} (h : Inv s) (hdit : s.ditN = false) (hdah : s.dahN = true)
    (hs : DitHeld s) : DitHeld s.tick := by
  obtain ⟨hK | hK, hIND, hQ, hL⟩ := hs <;> by_cases hend : PastEnd s
  · rw [tick_afterTick s _ h (transition_dit_pastEnd hK hend)]
    exact ⟨.inr rfl, hIND, hQ, hL⟩
  · rw [tick_afterTick s _ h (transition_unpaused_window (.inr (.inl hK)) hend)]
    exact ⟨.inl hK, hIND, hQ, hL⟩
  · exact ditHeld_of_resolvesIdle h hdit (.inr (.inr (.inl ⟨hK, hend, by rw [hdah]; rfl⟩))) hL
  · rw [tick_afterTick s _ h (transition_ditPause_window hK hend), hdah]
    exact ⟨.inr hK, hIND, hQ, hL⟩

/-- Settles O37: the first TICK resolves Idle to Dit, and every further one stays in Dit and DitPause. -/
theorem heldDitNeverReturnsToIdle : Obligations.HeldDitNeverReturnsToIdle := by
  intro s n h hK hn
  exact ticks_replicate_induction h (false, true)
    (ditHeld_of_resolvesIdle (inv_pins s h _ _) rfl (.inl hK) (h.latch_idle hK))
    (fun t ht hheld => ditHeld_tick (inv_pins t ht _ _) rfl rfl hheld) n hn

/-! ## Both paddles held (R166) -/

/-- The states both paddles go round in. -/
def OnCircle (k : Keyer) : Prop := k = .dit ∨ k = .ditPause ∨ k = .dah ∨ k = .dahPause

/-- `k'` comes after `k` in the circle. -/
def NextOnCircle (k k' : Keyer) : Prop :=
  (k = .dit ∧ k' = .ditPause) ∨ (k = .ditPause ∧ k' = .dah) ∨ (k = .dah ∧ k' = .dahPause) ∨
    (k = .dahPause ∧ k' = .dit)

theorem OnCircle.ne_init {k : Keyer} (h : OnCircle k) : k ≠ .init := by
  rcases h with rfl | rfl | rfl | rfl <;> decide

theorem OnCircle.ne_idle {k : Keyer} (h : OnCircle k) : k ≠ .idle := by
  rcases h with rfl | rfl | rfl | rfl <;> decide

theorem NextOnCircle.onCircle {k k' : Keyer} (h : NextOnCircle k k') : OnCircle k' := by
  rcases h with ⟨_, rfl⟩ | ⟨_, rfl⟩ | ⟨_, rfl⟩ | ⟨_, rfl⟩ <;> simp [OnCircle]

/-- Past its end each state of the circle is left for the next: Dit and Dah by R144, a pause by the
direct transition of R151. -/
theorem tick_circle_pastEnd {s : State} (h : Inv s) (hdit : s.ditN = false) (hdah : s.dahN = false)
    (hc : OnCircle s.K) (hend : PastEnd s) :
    NextOnCircle s.K s.tick.K ∧ (s.IND = .manual → s.tick.IND = .manual) ∧ s.tick.Q = s.Q := by
  rcases hc with hK | hK | hK | hK
  · rw [tick_afterTick s _ h (transition_dit_pastEnd hK hend)]
    exact ⟨.inl ⟨hK, rfl⟩, id, rfl⟩
  · rw [tick_afterTick s _ h (transition_ditPause_pressed hK hend (by rw [hdah]; rfl))]
    exact ⟨.inr (.inl ⟨hK, rfl⟩), fun _ => rfl, rfl⟩
  · rw [tick_afterTick s _ h (transition_dah_pastEnd hK hend)]
    exact ⟨.inr (.inr (.inl ⟨hK, rfl⟩)), id, rfl⟩
  · rw [tick_afterTick s _ h (transition_dahPause_pressed hK hend (by rw [hdit]; rfl))]
    exact ⟨.inr (.inr (.inr ⟨hK, rfl⟩)), fun _ => rfl, rfl⟩

/-- What every TICK with both paddles held leaves. -/
def BothHeld (s : State) : Prop :=
  OnCircle s.K ∧ s.IND = .manual ∧ s.Q = [] ∧ s.par.B ≤ s.p

/-- With both paddles pressed a TICK stays in its state of the circle or takes the next. -/
theorem bothHeld_tick {s : State} (h : Inv s) (hdit : s.ditN = false) (hdah : s.dahN = false)
    (hs : BothHeld s) : BothHeld s.tick ∧ (s.tick.K = s.K ∨ NextOnCircle s.K s.tick.K) := by
  obtain ⟨hc, hIND, hQ, _⟩ := hs
  by_cases hend : PastEnd s
  · obtain ⟨hnext, hIND', hQ'⟩ := tick_circle_pastEnd h hdit hdah hc hend
    have hc' := hnext.onCircle
    exact ⟨⟨hc', hIND' hIND, hQ'.trans hQ, le_tick_p h hc'.ne_idle⟩, .inr hnext⟩
  · obtain ⟨_, hK, _, _, hIND', hQ'⟩ := windowRun_tick h hc.ne_init hc.ne_idle hend
    have hc' : OnCircle s.tick.K := by rwa [hK]
    exact ⟨⟨hc', hIND'.trans hIND, hQ'.trans hQ, le_tick_p h hc'.ne_idle⟩, .inl hK⟩

theorem tick_idle_dit {s : State} (h : Inv s) (hK : s.K = .idle) (hdit : s.ditN = false) :
    s.tick.K = .dit ∧ BothHeld s.tick := by
  have htick := tick_ditPaddle h (.inl hK) (h.latch_idle hK) hdit
  have hdit' : s.tick.K = .dit := by rw [htick]; rfl
  have hp : s.tick.par.B ≤ s.tick.p := le_tick_p h (by rw [hdit']; decide)
  exact ⟨hdit', .inl hdit', by rw [htick]; rfl, by rw [htick]; rfl, hp⟩

theorem bothHeld_ticks {s : State} (h : Inv s) (hK : s.K = .idle) :
    ∀ n, 1 ≤ n → BothHeld (s.ticks (List.replicate n (false, false))) := by
  obtain ⟨_, hstart⟩ := tick_idle_dit (inv_pins s h false false) hK rfl
  refine ticks_replicate_induction h (false, false) hstart fun t ht hheld => ?_
  obtain ⟨hheld', _⟩ := bothHeld_tick (inv_pins t ht false false) rfl rfl hheld
  exact hheld'

/-- Under either comparison progress beyond the end index is past it (R146). -/
theorem pastEnd_of_lt {s : State} (h : s.e < s.p) : PastEnd s := by
  cases hcmp : s.par.EXPIRY_CMP
  · exact .inl ⟨hcmp, h⟩
  · exact .inr ⟨hcmp, h.le⟩

/-- The state's end is passed within `e / B` TICKs after its first buffer, under either comparison. -/
theorem pastEnd_of_div {s : State} (h : Inv s) (hp : s.par.B ≤ s.p) :
    PastEnd { s with p := s.p + s.e / s.par.B * s.par.B } := by
  have hlt : s.e < s.par.B + s.e / s.par.B * s.par.B :=
    not_le.mp ((progress_le_iff h.buffer_pos (s.e / s.par.B) s.e).not.mpr (lt_irrefl _))
  exact pastEnd_of_lt (hlt.trans_le (Nat.add_le_add_right hp _))

/-- The number of TICKs after which the circle goes on: one more than the window holds. -/
theorem exists_leave_circle {a : State} (h : Inv a) (hheld : BothHeld a) :
    ∃ m, 1 ≤ m ∧ m ≤ a.e / a.par.B + 1 ∧
      (∀ k, k < m → (a.ticks (List.replicate k (false, false))).K = a.K) ∧
      NextOnCircle a.K (a.ticks (List.replicate m (false, false))).K := by
  obtain ⟨hc, _, _, hp⟩ := hheld
  have hlast := pastEnd_of_div h hp
  have hex : ∃ k, PastEnd { a with p := a.p + k * a.par.B } := ⟨_, hlast⟩
  have hrun : ∀ k, k ≤ Nat.find hex →
      WindowRun a (a.ticks (List.replicate k (false, false))) k := by
    intro k hk
    have hwin := windowRun_ticks h hc.ne_init hc.ne_idle (List.replicate k (false, false))
      fun j hj => Nat.find_min hex (by rw [List.length_replicate] at hj; omega)
    rwa [List.length_replicate] at hwin
  refine ⟨Nat.find hex + 1, Nat.le_add_left 1 _, Nat.succ_le_succ (Nat.find_min' hex hlast),
    fun k hk => (hrun k (Nat.lt_succ_iff.mp hk)).state_eq, ?_⟩
  have hfull := hrun _ le_rfl
  have hend := hfull.pastEnd_iff.mpr (Nat.find_spec hex)
  have hK := hfull.state_eq
  obtain ⟨hnext, _⟩ := tick_circle_pastEnd (inv_pins _ (inv_ticks a h _) false false) rfl rfl
    (by rwa [← hK] at hc) hend
  rw [List.replicate_succ', ticks_append, ← hK]
  exact hnext

/-- Settles O38: `BothHeld` after every TICK, the next TICK by `bothHeld_tick`, and the count of the
state's window. -/
theorem bothPaddlesHeldAlternate : Obligations.BothPaddlesHeldAlternate := by
  intro s n h hK hn
  have hheld := bothHeld_ticks h hK n hn
  have ha := inv_ticks s h (List.replicate n (false, false))
  obtain ⟨_, hstep⟩ := bothHeld_tick (inv_pins _ ha false false) rfl rfl hheld
  obtain ⟨m, hm, hbound, hstay, hleave⟩ := exists_leave_circle ha hheld
  obtain ⟨hc, hIND, hQ, _⟩ := hheld
  refine ⟨?_, hc, hIND, hQ, ?_, m, hm, hbound, fun k hk => ?_, ?_⟩
  · rw [List.replicate_succ', ticks_append]
    exact hstep
  · rintro rfl
    obtain ⟨hdit, _⟩ := tick_idle_dit (inv_pins s h false false) hK rfl
    exact hdit
  · rw [ticks_replicate_add]
    exact hstay k hk
  · rw [ticks_replicate_add]
    exact hleave

end Sys2Proof.Machine
end

section
/-! The numerics fields (41_synthesizer.md R181 to R186): each entry and product as an integer, the
seven properties of R185 for the reference and for every build, and the shape of the reference
tables. -/

namespace Sys2Proof.Machine

/-! ## Truncation toward zero (00_scope.md R15) -/

theorem withSign_zero (s : Int) : withSign s 0 = 0 := by simp [withSign]

theorem natAbs_withSign (s : Int) (m : Nat) : (withSign s m).natAbs = m := by
  unfold withSign
  split <;> simp

/-- A magnitude that vanishes with its sign's argument makes truncation odd. -/
theorem withSign_neg {s : Int} {m : Nat} (h : s = 0 → m = 0) :
    withSign (-s) m = -withSign s m := by
  unfold withSign
  split_ifs <;> omega

theorem sign_withSign {s : Int} {m : Nat} (hm : m ≠ 0) (hle : m ≤ s.natAbs) :
    (withSign s m).sign = s.sign := by
  unfold withSign
  split_ifs with hs
  · rw [Int.sign_eq_neg_one_of_neg hs, Int.sign_eq_neg_one_of_neg (by omega)]
  · rw [Int.sign_eq_one_of_pos (a := s) (by omega), Int.sign_eq_one_of_pos (by omega)]

/-! ## Entries and products as integers -/

/-- The limits TONEMAX puts on an entry fit int16. -/
theorem toInt_ofInt_toneLimit (raw : Int) :
    (BitVec.ofInt 16 (max (-32767) (min raw 32767))).toInt = max (-32767) (min raw 32767) := by
  rw [BitVec.toInt_ofInt, Int.bmod_eq_of_le (by omega) (by omega)]

/-- The magnitude of an envelope product: MULMAG is the `min`. -/
def envMagnitude (c : Params) (s : Sample) (x : EnvVal) : Nat :=
  min (match c.NUMERICS with
    | .reference => s.toInt.natAbs * x / envOne
    | .build => if x = 0 then 0 else Config.buildMul s.toInt x) s.toInt.natAbs

theorem envMagnitude_le (c : Params) (s : Sample) (x : EnvVal) :
    envMagnitude c s x ≤ s.toInt.natAbs := Nat.min_le_right _ _

theorem envMagnitude_reference_le {c : Params} (hN : c.NUMERICS = .reference) (s : Sample)
    (x : EnvVal) : envMagnitude c s x ≤ s.toInt.natAbs * x / envOne := by
  simp only [envMagnitude, hN]
  exact Nat.min_le_left _ _

theorem envMagnitude_envZero (c : Params) (s : Sample) : envMagnitude c s 0 = 0 := by
  unfold envMagnitude
  split <;> simp

/-- A product is its magnitude with the sign of its sample. -/
theorem toInt_envMul (c : Params) (s : Sample) (x : EnvVal) :
    (envMul c s x).toInt = withSign s.toInt (envMagnitude c s x) := by
  have hle := envMagnitude_le c s x
  have hlow := BitVec.le_toInt s
  have hhigh := BitVec.toInt_lt (x := s)
  change (BitVec.ofInt 16 (withSign s.toInt (envMagnitude c s x))).toInt = _
  have hbound : -32768 ≤ withSign s.toInt (envMagnitude c s x) ∧
      withSign s.toInt (envMagnitude c s x) < 32768 := by
    unfold withSign
    split_ifs <;> omega
  rw [BitVec.toInt_ofInt, Int.bmod_eq_of_le (by omega) (by omega)]

theorem envMul_eq_zero_of_magnitude {c : Params} {s : Sample} {x : EnvVal}
    (h : envMagnitude c s x = 0) : envMul c s x = 0 := by
  apply BitVec.eq_of_toInt_eq
  rw [toInt_envMul, h, withSign_zero]
  rfl

/-- MULZERO. -/
@[simp] theorem envMul_zero (c : Params) (x : EnvVal) : envMul c 0 x = 0 := by
  have hle := envMagnitude_le c 0 x
  exact envMul_eq_zero_of_magnitude (by simpa using hle)

/-- A reference product below one truncates to 0 (R186). -/
theorem envMul_eq_zero_of_lt {c : Params} (hN : c.NUMERICS = .reference) {s : Sample} {x : EnvVal}
    (h : s.toInt.natAbs * x < envOne) : envMul c s x = 0 := by
  have hle := envMagnitude_reference_le hN s x
  rw [Nat.div_eq_of_lt h] at hle
  exact envMul_eq_zero_of_magnitude (by omega)

/-! ## The fixed-point sine (log 5) -/

theorem fxOne_pos : 0 < fxOne := by decide

theorem sinQuarter_zero (den : Nat) : sinQuarter 0 den = 0 := if_pos rfl

theorem sinQuarter_self {den : Nat} (h : 0 < den) : sinQuarter den den = fxOne := by
  simp [sinQuarter, h.ne']

theorem sinQuarter_le (num den : Nat) : sinQuarter num den ≤ fxOne := by
  have hhalf := Nat.div_le_self fxOne 2
  unfold sinQuarter
  split_ifs
  · omega
  · exact le_refl _
  · exact hhalf
  · exact Nat.min_le_left _ _

/-- The sine by the quarter turn `k` of the angle and the position `r` in it. -/
theorem sinTurn_eq_of_quarter {num den k r : Nat} (hr : r < den)
    (h : 4 * num % (4 * den) = k * den + r) :
    sinTurn num den =
      if k = 0 then (sinQuarter r den : Int)
      else if k = 1 then (sinQuarter (den - r) den : Int)
      else if k = 2 then -(sinQuarter r den : Int)
      else -(sinQuarter (den - r) den : Int) := by
  have hquarter : 4 * num % (4 * den) / den = k := by
    rw [h, Nat.mul_comm, Nat.mul_add_div (by omega), Nat.div_eq_of_lt hr, Nat.add_zero]
  have hrest : 4 * num % den = r := by
    rw [← Nat.mod_mul_left_mod, h, Nat.mul_comm k, Nat.mul_add_mod, Nat.mod_eq_of_lt hr]
  simp only [sinTurn, hquarter, hrest]

/-- Every angle lies in one of the four quarter turns. -/
theorem exists_quarter (num : Nat) {den : Nat} (hden : 0 < den) :
    ∃ k r, k < 4 ∧ r < den ∧ 4 * num % (4 * den) = k * den + r := by
  refine ⟨4 * num % (4 * den) / den, 4 * num % (4 * den) % den, ?_, Nat.mod_lt _ hden, ?_⟩
  · rw [Nat.div_lt_iff_lt_mul hden]
    exact Nat.mod_lt _ (by omega)
  · rw [Nat.div_add_mod']

/-- The sine at a whole number of quarter turns. -/
theorem sinTurn_wholeQuarter {num den k : Nat} (hden : 0 < den)
    (h : 4 * num % (4 * den) = k * den) :
    sinTurn num den = if k = 0 then 0 else if k = 1 then (fxOne : Int)
      else if k = 2 then 0 else -(fxOne : Int) := by
  rw [sinTurn_eq_of_quarter (k := k) (r := 0) hden (by omega), sinQuarter_zero, Nat.sub_zero,
    sinQuarter_self hden]
  simp

theorem natAbs_sinTurn_le (num : Nat) {den : Nat} (hden : 0 < den) :
    (sinTurn num den).natAbs ≤ fxOne := by
  obtain ⟨k, r, _, hr, h⟩ := exists_quarter num hden
  have hrise := sinQuarter_le r den
  have hfall := sinQuarter_le (den - r) den
  rw [sinTurn_eq_of_quarter hr h]
  split_ifs <;> omega

/-- The sine is odd about the half turn: the angle `P - i` lies in the mirrored quarter turn, at the
mirrored position. -/
theorem sinTurn_sub {P i : Nat} (hi : 0 < i) (hiP : i < P) :
    sinTurn (P - i) P = -sinTurn i P := by
  obtain ⟨k, r, hk, hr, h⟩ := exists_quarter i (by omega : 0 < P)
  have hangle : 4 * i = k * P + r := by rw [← h, Nat.mod_eq_of_lt (by omega)]
  have hmirror : 4 * (P - i) % (4 * P) = 4 * P - (k * P + r) := by
    rw [Nat.mod_eq_of_lt (by omega)]
    omega
  rw [sinTurn_eq_of_quarter hr h]
  rcases Nat.eq_zero_or_pos r with rfl | hpos
  · have hk0 : 0 < k := Nat.pos_of_ne_zero (by rintro rfl; omega)
    rw [sinTurn_wholeQuarter (k := 4 - k) (by omega) (by rw [hmirror, Nat.sub_mul]; omega),
      sinQuarter_zero, Nat.sub_zero, sinQuarter_self (by omega)]
    interval_cases k <;> simp
  · rw [sinTurn_eq_of_quarter (k := 3 - k) (r := P - r) (by omega)
        (by rw [hmirror, Nat.sub_mul]; interval_cases k <;> omega), Nat.sub_sub_self hr.le]
    interval_cases k <;> simp

/-! ## The reference tone (R181, R182) -/

/-- The reference entry with TONE_PHASE = cycle: a function of period, volume and index. -/
def cycleTone (P vol i : Nat) : Int :=
  withSign (sinTurn i P) (vol * 32767 * (sinTurn i P).natAbs / (100 * fxOne))

theorem natAbs_cycleTone_le {P : Nat} (hP : 1 ≤ P) (vol i : Nat) :
    (cycleTone P vol i).natAbs ≤ vol * 32767 / 100 := by
  rw [cycleTone, natAbs_withSign]
  calc vol * 32767 * (sinTurn i P).natAbs / (100 * fxOne)
      ≤ vol * 32767 * fxOne / (100 * fxOne) :=
        Nat.div_le_div_right (Nat.mul_le_mul_left _ (natAbs_sinTurn_le i hP))
    _ = vol * 32767 / 100 := Nat.mul_div_mul_right _ _ fxOne_pos

theorem cycleTone_index_zero {P : Nat} (hP : 1 ≤ P) (vol : Nat) : cycleTone P vol 0 = 0 := by
  have hsin : sinTurn 0 P = 0 := sinTurn_wholeQuarter (k := 0) hP (by simp)
  rw [cycleTone, hsin, Int.natAbs_zero, Nat.mul_zero, Nat.zero_div, withSign_zero]

theorem cycleTone_volume_zero (P i : Nat) : cycleTone P 0 i = 0 := by
  rw [cycleTone, Nat.zero_mul, Nat.zero_div, withSign_zero]

theorem cycleTone_sub {P i : Nat} (vol : Nat) (hi : 0 < i) (hiP : i < P) :
    cycleTone P vol (P - i) = -cycleTone P vol i := by
  rw [cycleTone, cycleTone, sinTurn_sub hi hiP, Int.natAbs_neg]
  exact withSign_neg fun h => by simp [h]

/-- At a quarter turn the sine is plus or minus one, and the entry the whole amplitude. -/
theorem cycleTone_of_sinTurn_one {P i : Nat} (vol : Nat) (h : sinTurn i P = fxOne) :
    cycleTone P vol i = (vol * 32767 / 100 : Nat) := by
  rw [cycleTone, h, Int.natAbs_natCast, Nat.mul_div_mul_right _ _ fxOne_pos, withSign,
    if_neg (by omega)]

theorem cycleTone_quarter {P : Nat} (vol : Nat) (hP : 1 ≤ P) (hdvd : P % 4 = 0) :
    cycleTone P vol (P / 4) = (vol * 32767 / 100 : Nat) :=
  cycleTone_of_sinTurn_one vol <| sinTurn_wholeQuarter (k := 1) hP <| by
    rw [Nat.mod_eq_of_lt (by omega)]
    omega

theorem cycleTone_threeQuarters {P : Nat} (vol : Nat) (hP : 1 ≤ P) (hdvd : P % 4 = 0) :
    cycleTone P vol (3 * P / 4) = -((vol * 32767 / 100 : Nat) : Int) := by
  rw [show 3 * P / 4 = P - P / 4 by omega, cycleTone_sub vol (by omega) (by omega),
    cycleTone_quarter vol hP hdvd]

/-- The limits of R185 change nothing of a reference entry: it is 0 at index 0 and at volume 0
already, and its amplitude is at most 32767. -/
theorem toInt_genTone_cycle {c : Params} (hN : c.NUMERICS = .reference)
    (hphase : c.TONE_PHASE = .cycle) {P vol : Nat} (hP : 1 ≤ P) (hvol : vol ≤ 100) (freq i : Nat) :
    (genTone c freq P vol i).toInt = cycleTone P vol i := by
  simp only [genTone, hN, referenceTone, hphase]
  change (if i = 0 ∨ vol = 0 then 0
    else BitVec.ofInt 16 (max (-32767) (min (cycleTone P vol i) 32767)) : Sample).toInt = _
  split_ifs with h
  · rcases h with rfl | rfl
    · rw [cycleTone_index_zero hP]; rfl
    · rw [cycleTone_volume_zero]; rfl
  · have hle := natAbs_cycleTone_le hP vol i
    rw [toInt_ofInt_toneLimit]
    omega

theorem genTone_index_zero (c : Params) (freq P vol : Nat) : genTone c freq P vol 0 = 0 := by
  simp [genTone]

theorem genTone_volume_zero (c : Params) (freq P i : Nat) : genTone c freq P 0 i = 0 := by
  simp [genTone]

theorem natAbs_genTone_le (c : Params) (freq P vol i : Nat) :
    (genTone c freq P vol i).toInt.natAbs ≤ 32767 := by
  unfold genTone
  dsimp only
  split
  · decide
  · rw [toInt_ofInt_toneLimit]
    omega

/-! ## The reference envelope (R183, R184)

`EnvVal` is `Nat`; the goals below are put at `Nat`, where `omega` reads them. -/

theorem genEnv_reference {c : Params} (hN : c.NUMERICS = .reference) (R i : Nat) :
    genEnv c R i = min (referenceEnv R i) envOne := by
  simp only [genEnv, hN]

theorem cosTurn_zero {den : Nat} (h : 0 < den) : cosTurn 0 den = fxOne :=
  sinTurn_wholeQuarter (k := 1) (by omega) (by rw [Nat.mod_eq_of_lt (by omega)]; omega)

theorem cosTurn_quarter {den : Nat} (h : 0 < den) : cosTurn den (4 * den) = 0 :=
  sinTurn_wholeQuarter (k := 2) (by omega) (by rw [Nat.mod_eq_of_lt (by omega)]; omega)

theorem cosTurn_half {den : Nat} (h : 0 < den) : cosTurn den (2 * den) = -(fxOne : Int) :=
  sinTurn_wholeQuarter (k := 3) (by omega) (by rw [Nat.mod_eq_of_lt (by omega)]; omega)

theorem cosTurn_self {den : Nat} (h : 0 < den) : cosTurn den den = fxOne :=
  sinTurn_wholeQuarter (k := 1) (by omega) (by
    rw [show 4 * (4 * den + den) = 4 * den + 4 * (4 * den) by omega, Nat.add_mod_right,
      Nat.mod_eq_of_lt (by omega), Nat.one_mul])

theorem referenceEnv_zero {R : Nat} (hR : 1 ≤ R) : referenceEnv R 0 = 0 := by
  rw [referenceEnv, cosTurn_zero (by omega), cosTurn_zero hR]
  change (_ : Nat) = _
  omega

theorem referenceEnv_self {R : Nat} (hR : 1 ≤ R) : referenceEnv R R = envOne := by
  rw [referenceEnv, cosTurn_half hR, cosTurn_self hR, envOne]
  change (_ : Nat) = _
  omega

theorem referenceEnv_middle {k : Nat} (hk : 1 ≤ k) : referenceEnv (2 * k) k = 34 * fxOne := by
  rw [referenceEnv, show 2 * (2 * k) = 4 * k by omega, cosTurn_quarter hk, cosTurn_half hk]
  change (_ : Nat) = _
  omega

/-- The rise of the vectors' 1 ms and 5 ms, entry by entry. -/
theorem genEnv_le_succ {R : Nat} (hR : R = 48 ∨ R = 240) :
    ∀ i < R, genEnv .reference R i ≤ genEnv .reference R (i + 1) := by
  rcases hR with rfl | rfl <;> decide +kernel

theorem genEnv_mono {R i j : Nat} (hR : R = 48 ∨ R = 240) (hij : i ≤ j) (hj : j ≤ R) :
    genEnv .reference R i ≤ genEnv .reference R j := by
  induction j, hij using Nat.le_induction with
  | base => exact le_refl _
  | succ j _ ih => exact (ih (by omega)).trans (genEnv_le_succ hR j (by omega))

/-- ENVZERO: entry 0 is the value 0, of the reference by R184 and of a build by the model's form
(log 6). -/
theorem genEnv_zero (c : Params) {R : Nat} (hR : 1 ≤ R) : genEnv c R 0 = 0 := by
  cases hN : c.NUMERICS with
  | reference => rw [genEnv_reference hN, referenceEnv_zero hR, Nat.zero_min]
  | build => simp only [genEnv, hN, if_true]

/-! ## The obligations -/

/-- Settles O40: the tone's limits, the product's magnitude and sign, and envelope entry 0. -/
theorem numericsHaveTheNamedProperties : Obligations.NumericsHaveTheNamedProperties := by
  intro c freq P vol i R x s
  refine ⟨genTone_index_zero c freq P vol, natAbs_genTone_le c freq P vol i,
    genTone_volume_zero c freq P i, fun hR => ?envZero, envMul_zero c x, ?mulMag, ?mulSign⟩
  case envZero =>
    rw [genEnv_zero c hR]
    exact envMul_eq_zero_of_magnitude (envMagnitude_envZero c s)
  case mulMag =>
    rw [toInt_envMul, natAbs_withSign]
    exact envMagnitude_le c s x
  case mulSign =>
    by_cases hm : envMagnitude c s x = 0
    · exact .inl (envMul_eq_zero_of_magnitude hm)
    · right
      rw [toInt_envMul, sign_withSign hm (envMagnitude_le c s x)]

/-- Settles O41: every entry of the Tone Table is `cycleTone`'s, and the envelope's points are at
whole quarter turns of its cosines. -/
theorem referenceTablesHaveTheirShape : Obligations.ReferenceTablesHaveTheirShape := by
  intro c hN
  refine ⟨fun hphase freq freq' P vol hP hvol => ?tone, fun R hR => ?envelope⟩
  case tone =>
    have hentry (i : Nat) := toInt_genTone_cycle hN hphase hP hvol freq i
    refine ⟨genTone_index_zero c freq P vol, fun i => ?_, genTone_volume_zero c freq P,
      fun hdvd => ⟨?_, ?_⟩, fun i hi hiP => ?_, fun i => ?_⟩
    · rw [hentry]; exact natAbs_cycleTone_le hP vol i
    · rw [hentry, cycleTone_quarter vol hP hdvd]
    · rw [hentry, cycleTone_threeQuarters vol hP hdvd]
    · rw [hentry, hentry, cycleTone_sub vol hi hiP]
    · apply BitVec.eq_of_toInt_eq
      rw [hentry, toInt_genTone_cycle hN hphase hP hvol freq' i]
  case envelope =>
    have hentry := genEnv_reference hN R
    refine ⟨genEnv_zero c hR, ?_, fun heven => ?_, fun i => ?_, fun hlen i j hij hj => ?_⟩
    · rw [hentry, referenceEnv_self hR, Nat.min_self]
    · obtain ⟨k, rfl⟩ := Nat.dvd_of_mod_eq_zero heven
      rw [hentry, Nat.mul_div_cancel_left k two_pos, referenceEnv_middle (by omega), envOne]
      change (_ : Nat) = _
      omega
    · rw [hentry]; exact Nat.min_le_right _ _
    · have hmono := genEnv_mono hlen hij hj
      rwa [genEnv_reference rfl, genEnv_reference rfl, ← hentry, ← hentry] at hmono

end Sys2Proof.Machine
end

section
/-! The samples a TICK renders, position by position (41_synthesizer.md R190 to R194): where they
are silent, and the first and last sample of a symbol. -/

namespace Sys2Proof.Machine

/-! ## What the invariant gives the synthesizer -/

theorem Inv.period_dvd_dit {s : State} (h : Inv s) : s.P ∣ s.D := by
  obtain ⟨_, ⟨_, hD, _⟩, _⟩ := h
  rw [hD]
  exact dvd_ditLength _ _ _

theorem Inv.rise_pos {s : State} (h : Inv s) : 1 ≤ s.R := by
  obtain ⟨⟨hOk, _, _, _, hRISE, _⟩, ⟨_, _, hR, _⟩, _⟩ := h
  rw [hR]
  exact riseSamples_pos _ _ hOk hRISE

/-- A legal state's Tone Table, while it sounds (R181). -/
theorem Inv.tone_entry {s : State} (h : Inv s) (hvol : 0 < s.VOL) {i : Nat} (hi : i < s.P) :
    s.T.getD i 0 = genTone s.par s.FREQ s.P s.VOL i := by
  obtain ⟨_, ⟨_, _, _, _, _, hT, _⟩, _⟩ := h
  simp [hT (by omega), toneTable, hi]

/-- A legal state's Envelope Table (R183). -/
theorem Inv.env_entry {s : State} (h : Inv s) {i : Nat} (hi : i ≤ s.R) :
    s.E.getD i 0 = genEnv s.par s.R i := by
  obtain ⟨_, ⟨_, _, _, hE, _⟩, _⟩ := h
  simp [hE, envTable, Nat.lt_succ_of_le hi]

/-! ## One sample (R190) -/

section
variable {s : State} {q : Nat}

theorem renderedSample_of_not_symbol (h : ¬ (s.K = .dit ∨ s.K = .dah)) : renderedSample s q = 0 :=
  if_neg fun hsounds => h hsounds.left

theorem renderedSample_muted (h : s.VOL = 0) : renderedSample s q = 0 :=
  if_neg fun ⟨_, hvol, _⟩ => by omega

theorem renderedSample_pastEnd (h : s.e ≤ q) : renderedSample s q = 0 :=
  if_neg fun ⟨_, _, hq⟩ => by omega

/-- MULZERO: where the tone is 0, no envelope factor changes it. -/
theorem renderedSample_of_tone_zero (h : s.T.getD (q % s.P) 0 = 0) : renderedSample s q = 0 := by
  unfold renderedSample
  rw [h]
  split_ifs
  · exact envMul_zero _ _
  · exact envMul_zero _ _
  · rfl
  · rfl

/-- The first sample of a symbol is 0: TONE0 (R194). -/
theorem Inv.renderedSample_zero (h : Inv s) : renderedSample s 0 = 0 := by
  rcases Nat.eq_zero_or_pos s.VOL with hvol | hvol
  · exact renderedSample_muted hvol
  · apply renderedSample_of_tone_zero
    rw [Nat.zero_mod, h.tone_entry hvol h.period_pos, genTone_index_zero]

/-- The last sample of a symbol longer than its rise time carries envelope entry 1 (R190, R192). -/
theorem renderedSample_last (hK : s.K = .dit ∨ s.K = .dah) (hvol : 0 < s.VOL) (hR : 1 ≤ s.R)
    (hlong : s.R < s.e) (hq : q + 1 = s.e) :
    renderedSample s q = envMul s.par (s.T.getD ((s.e - 1) % s.P) 0) (s.E.getD 1 0) := by
  rw [renderedSample, if_pos ⟨hK, hvol, by omega⟩, if_neg (by omega), if_pos (by omega),
    show s.e - q = 1 by omega, show q = s.e - 1 by omega]

end

/-- The last tone entry of the vectors' period, at full volume and by the first factor of their
rise, is below one (R197). -/
theorem lastProduct_lt_one :
    (cycleTone 80 100 79).natAbs * genEnv .reference 240 1 < envOne := by decide +kernel

/-- The vectors' last sample of a symbol truncates to 0 (V-S17, V-S20). -/
theorem envMul_lastTone_firstFactor {c : Params} (hN : c.NUMERICS = .reference)
    (hphase : c.TONE_PHASE = .cycle) (freq : Nat) :
    envMul c (genTone c freq 80 100 79) (genEnv c 240 1) = 0 := by
  apply envMul_eq_zero_of_lt hN
  rw [toInt_genTone_cycle hN hphase (by omega) le_rfl, genEnv_reference hN,
    ← genEnv_reference (c := .reference) rfl]
  exact lastProduct_lt_one

/-- With the vectors' period, rise and volume, the last sample of a whole number of periods is 0. -/
theorem Inv.lastProduct_zero {s : State} (h : Inv s) (hN : s.par.NUMERICS = .reference)
    (hphase : s.par.TONE_PHASE = .cycle) (hP : s.P = 80) (hR : s.R = 240) (hVOL : s.VOL = 100)
    (hdvd : s.P ∣ s.e) (hpos : 0 < s.e) :
    envMul s.par (s.T.getD ((s.e - 1) % s.P) 0) (s.E.getD 1 0) = 0 := by
  have hlast : (s.e - 1) % s.P = 79 := by rw [hP] at hdvd ⊢; omega
  rw [hlast, h.tone_entry (by omega) (by omega), h.env_entry (by omega), hP, hR, hVOL]
  exact envMul_lastTone_firstFactor hN hphase s.FREQ

/-! ## The buffer of a TICK -/

theorem renderedBuffer_get {s : State} {j : Nat} (h : j < s.par.B) :
    (renderedBuffer s)[j]? = some (renderedSample s (s.p + j)) := by
  simp [renderedBuffer, h]

theorem renderedBuffer_silent {s : State} (h : ∀ q, renderedSample s q = 0) :
    renderedBuffer s = List.replicate s.par.B 0 := by
  simp [renderedBuffer, h]

theorem Inv.renderedBuffer_head {s : State} (h : Inv s) (hp : s.p = 0) :
    (renderedBuffer s).head? = some 0 := by
  rw [List.head?_eq_getElem?, renderedBuffer_get h.buffer_pos, hp, Nat.add_zero,
    h.renderedSample_zero]

/-! ## The transition before it -/

/-- The transition phase keeps the invariant (40_keying.md R141): a ready keyer is a legal one. -/
theorem inv_transition {s t : State} {dit dah : Bool} (h : Inv s)
    (ht : s.transition dit dah = some t) : Inv t := by
  obtain ⟨hres, hinit, hp, he, hidle, hpause, hL, hIND⟩ := keyerReady_transition s t h dit dah ht
  have hQ := transition_queue s t dit dah ht
  have hf := transition_frame s t dit dah ht
  obtain ⟨hc, htables, _, ⟨hcap, hstorage⟩, hd⟩ := h
  have hkeyer : KeyerLegal t := by
    refine ⟨hres, by omega, he, fun hK => hidle (hK.resolve_left hinit), hpause, hL, ?_⟩
    rw [hIND]
    simp [hinit]
  refine ⟨?_, ?_, hkeyer, ⟨?_, ?_⟩, ?_⟩
  · rw [hf]; exact hc
  · rw [hf]; exact htables
  · rw [transition_par s t _ _ ht]; exact hQ.trans hcap
  · rw [hf]; exact hstorage
  · rw [hf]; exact hd

/-- A TICK that leaves Dit or Dah has advanced past the positions it rendered (40_keying.md
R145). -/
theorem afterTick_position {s t : State} (hpar : t.par = s.par) (hK : t.K = .dit ∨ t.K = .dah) :
    (afterTick s t).p - s.par.B = t.p := by
  have hidle : t.K ≠ .idle := by rcases hK with hK | hK <;> simp [hK]
  simp [afterTick, hidle, hpar]

/-- A transition into Dit or Dah, or out of an ended state into one, enters it at position 0
(40_keying.md R147). -/
theorem transition_enters_symbol {s t : State} {dit dah : Bool}
    (ht : s.transition dit dah = some t) (hK : t.K = .dit ∨ t.K = .dah)
    (hnew : t.K ≠ s.K ∨ PastEnd s) : t.p = 0 ∧ t.e = t.endIndex t.K := by
  rcases transition_cases s t dit dah ht with ⟨rfl, _, he⟩ | ⟨hs, _, rfl⟩ | ⟨hs, _, rfl⟩ |
    ⟨_, rfl⟩ | ⟨_, _, rfl⟩ | ⟨_, _, rfl⟩ | ⟨_, _, _, rfl⟩ | ⟨_, _, _, rfl⟩ | ⟨_, rfl⟩
  · have hend : ¬ PastEnd t := by rw [← expired_iff, he]; exact Bool.false_ne_true
    exact absurd hnew (by simp [hend])
  · simp [latch_eq, hs] at hK
  · simp [latch_eq, hs] at hK
  · exact ⟨rfl, rfl⟩
  · exact ⟨rfl, rfl⟩
  · exact ⟨rfl, rfl⟩
  · exact ⟨rfl, rfl⟩
  · exact ⟨rfl, rfl⟩
  · rw [idleResolve_eq]; exact ⟨rfl, rfl⟩

/-- A symbol is one or three dit lengths long (40_keying.md R147). -/
theorem Inv.symbol_length {s : State} (h : Inv s) {k : Keyer} (hk : k = .dit ∨ k = .dah) :
    s.P ∣ s.endIndex k ∧ 0 < s.endIndex k := by
  have hpos := h.dit_pos
  rcases hk with rfl | rfl
  · rw [State.endIndex_dit]
    exact ⟨h.period_dvd_dit, hpos⟩
  · rw [State.endIndex_dah]
    exact ⟨h.period_dvd_dit.mul_right 3, by omega⟩

/-! ## The obligations -/

/-- Settles O35: a silent state and a muted one render no sounding position, and no position at or
past the end index sounds. -/
theorem silenceOutsideSoundingPositions : Obligations.SilenceOutsideSoundingPositions := by
  intro s t h he
  obtain ⟨u, hu, rfl⟩ := exec_tick_data s t h he
  have hpar : u.par = s.par := transition_par s u _ _ hu
  have hVOL : u.VOL = s.VOL := by rw [transition_frame s u _ _ hu]
  change (u.K ≠ .dit ∧ u.K ≠ .dah → renderedBuffer u = _) ∧ (_ → renderedBuffer u = _) ∧
    ∀ j, _ → u.K = .dit ∨ u.K = .dah → u.e ≤ _ → (renderedBuffer u)[j]? = _
  rw [← hpar]
  refine ⟨fun ⟨hdit, hdah⟩ => ?_, fun hmute => ?_, fun j hj hK hpos => ?_⟩
  · exact renderedBuffer_silent fun q => renderedSample_of_not_symbol (by simp [hdit, hdah])
  · exact renderedBuffer_silent fun q => renderedSample_muted (hVOL.trans hmute)
  · rw [hpar, afterTick_position hpar hK] at hpos
    rw [renderedBuffer_get hj, renderedSample_pastEnd hpos]

/-- Settles O39: an entered symbol starts at position 0 and is one or three dit lengths long, and
the position before the end index is the release's index 1. -/
theorem symbolsAreWholeTonePeriods : Obligations.SymbolsAreWholeTonePeriods := by
  intro s t h he hK
  obtain ⟨u, hu, rfl⟩ := exec_tick_data s t h he
  change u.K = .dit ∨ u.K = .dah at hK
  have hInv : Inv u := inv_transition h hu
  have hpar : u.par = s.par := transition_par s u _ _ hu
  refine ⟨fun hnew => ?entered, fun j hj hlast hvol hlong => ?last⟩
  case entered =>
    obtain ⟨hp, hend⟩ := transition_enters_symbol hu hK hnew
    obtain ⟨hdvd, hpos⟩ := hInv.symbol_length hK
    exact ⟨hend ▸ hdvd, hend ▸ hpos, hInv.renderedBuffer_head hp⟩
  case last =>
    rw [afterTick_position hpar hK] at hlast
    have hpos : 0 < u.e := hlast ▸ Nat.succ_pos _
    have hsample := renderedSample_last hK hvol hInv.rise_pos hlong hlast
    have hOUT := (renderedBuffer_get (by rwa [hpar])).trans (congrArg some hsample)
    exact ⟨hOUT, fun hN hphase hP hR hV hdvd => hOUT.trans
      (congrArg some (hInv.lastProduct_zero hN hphase hP hR hV hdvd hpos))⟩

end Sys2Proof.Machine
end

section
/-! READ (41_synthesizer.md R195, R196): what it delivers, and that a TICK never reads what it
wrote. -/

namespace Sys2Proof.Machine

/-! ## READ -/

/-- The pairing check writes one mark. -/
theorem checkReadPhase_eq (s : State) :
    s.checkReadPhase =
      { s with FAULTS := { s.FAULTS with
                           pairingRead := s.FAULTS.pairingRead || s.APH == .awaitTick } } := by
  have hphase : (s.APH == .awaitTick) = !decide (s.APH = .awaitRead) := by cases s.APH <;> rfl
  unfold State.checkReadPhase
  split
  next h => rw [hphase, decide_eq_true h, Bool.not_true, Bool.or_false]
  next h => rw [hphase, decide_eq_false h, Bool.not_false, Bool.or_true]; rfl

theorem exec_read (s : State) :
    exec .read s = .next { s with sink := s.sink ++ [s.OUT], APH := .awaitTick,
                                  FAULTS := { s.FAULTS with
                                    pairingRead :=
                                      s.FAULTS.pairingRead || s.APH == .awaitTick } } := by
  change execRead s = _
  rw [execRead, checkReadPhase_eq]

/-- Settles O27: READ is one equation, and the reset state's buffer is zeros. -/
theorem readDeliversTheBuffer : Obligations.ReadDeliversTheBuffer :=
  ⟨decodeWord_read, exec_read, fun c => ⟨_, exec_read (State.resetOf c), rfl⟩⟩

/-! ## A TICK that gets stuck (60_exceptions.md R343) -/

section
variable {s : State}

theorem tick_of_no_transition (h : s.checkTickPhase.transition (!s.ditN) (!s.dahN) = none) :
    s.tick = s.checkTickPhase.markReservedState := by
  rcases tick_cases s with ⟨_, e⟩ | ⟨t, ht, _⟩ | ⟨t, out, ht, _⟩
  · exact e
  · rw [h] at ht; cases ht
  · rw [h] at ht; cases ht

theorem tick_of_no_render {t : State}
    (h : s.checkTickPhase.transition (!s.ditN) (!s.dahN) = some t) (hr : t.render = none) :
    s.tick = t.markTableIndex := by
  rcases tick_cases s with ⟨hK, _⟩ | ⟨u, hu, _, e⟩ | ⟨u, out, hu, hout, _⟩
  · have hreserved : s.checkTickPhase.K = .reserved := by rw [checkTickPhase_eq]; exact hK
    simp [State.transition, hreserved] at h
  · cases h.symm.trans hu
    exact e
  · cases h.symm.trans hu
    rw [hr] at hout; cases hout

end

/-! ## What READ writes and TICK does not read -/

/-- `s` with other values in what READ writes: the sink, the audio phase and the fault records. -/
def State.withReadData (s : State) (sink : List (List Sample)) (phase : AudioPhase)
    (marks : FaultMarks) : State :=
  { s with sink := sink, APH := phase, FAULTS := marks }

section
variable (s : State) (sink : List (List Sample)) (phase : AudioPhase) (marks : FaultMarks)

theorem idleResolve_withReadData (dit dah : Bool) :
    (s.withReadData sink phase marks).idleResolve dit dah =
      (s.idleResolve dit dah).withReadData sink phase marks := by
  rw [idleResolve_eq, idleResolve_eq]
  rfl

/-- The transition phase neither reads nor writes what READ writes. -/
theorem transition_withReadData (dit dah : Bool) :
    (s.withReadData sink phase marks).transition dit dah =
      (s.transition dit dah).map (·.withReadData sink phase marks) := by
  have hidle := idleResolve_withReadData s sink phase marks dit dah
  have hexp : (s.withReadData sink phase marks).expired = s.expired := rfl
  have hstate : (s.withReadData sink phase marks).K = s.K := rfl
  unfold State.transition State.pauseExpiry
  rw [hstate, hexp, hidle]
  cases s.K with
  | init => rfl
  | idle => rfl
  | reserved => rfl
  | initPause => cases s.expired <;> rfl
  | dit => cases s.expired <;> rfl
  | dah => cases s.expired <;> rfl
  | ditPause => cases s.expired <;> cases dah <;> rfl
  | dahPause => cases s.expired <;> cases dit <;> rfl

theorem renderFrom_withReadData (n q : Nat) :
    (s.withReadData sink phase marks).renderFrom n q = s.renderFrom n q := by
  induction n generalizing q with
  | zero => rfl
  | succ n ih => simp only [State.renderFrom, ih]; rfl

theorem render_withReadData : (s.withReadData sink phase marks).render = s.render :=
  renderFrom_withReadData s sink phase marks _ _

/-- A TICK carries what READ writes along: its other registers do not depend on it (R196), stuck or
not (60_exceptions.md R343). -/
theorem tick_withReadData :
    ∃ phase' marks', (s.withReadData sink phase marks).tick =
      s.tick.withReadData sink phase' marks' := by
  obtain ⟨checked, hcheck⟩ : ∃ checked, (s.withReadData sink phase marks).checkTickPhase =
      s.checkTickPhase.withReadData sink phase checked := by
    rw [checkTickPhase_eq, checkTickPhase_eq]
    exact ⟨_, rfl⟩
  have htrans := transition_withReadData s.checkTickPhase sink phase checked (!s.ditN) (!s.dahN)
  rw [← hcheck] at htrans
  cases ht : s.checkTickPhase.transition (!s.ditN) (!s.dahN) with
  | none =>
    rw [ht] at htrans
    rw [tick_of_no_transition ht, tick_of_no_transition htrans, hcheck]
    exact ⟨_, _, rfl⟩
  | some t =>
    rw [ht] at htrans
    have hrender := render_withReadData t sink phase checked
    cases hr : t.render with
    | none =>
      rw [tick_of_no_render ht hr, tick_of_no_render htrans (hrender.trans hr)]
      exact ⟨_, _, rfl⟩
    | some out =>
      rw [tick_eq s t out ht hr, tick_eq _ _ out htrans (hrender.trans hr)]
      exact ⟨_, _, rfl⟩

end

/-- Settles O28: READ writes only what a TICK carries along. -/
theorem readNeverChangesTheNextTick : Obligations.ReadNeverChangesTheNextTick := by
  intro s r t u hread htick htick'
  rw [exec_read] at hread
  injection hread with hread
  injection htick with htick
  injection htick' with htick'
  obtain ⟨phase, marks, htick_r⟩ := tick_withReadData s r.sink r.APH r.FAULTS
  have hr : r = s.withReadData r.sink r.APH r.FAULTS := by rw [← hread]; rfl
  rw [← hr, htick', htick] at htick_r
  rw [htick_r]
  exact ⟨rfl, rfl, rfl, rfl, rfl, rfl, rfl, rfl, rfl, rfl, rfl, rfl⟩

end Sys2Proof.Machine
end

section
/-! The Transmission Queue (42_queue.md): what accepts an enqueue, how a row of push steps delivers it,
and what can make room while it is in flight. -/

namespace Sys2Proof.Machine

/-! ## Accepting an enqueue (R220, R222) -/

theorem startEnqueue_nil (s : State) : s.startEnqueue [] = { s with PEND := [] } := rfl

/-- The first symbol is pushed in the accepting step when the queue has room (log 13). -/
theorem startEnqueue_cons (s : State) (x : Symbol) (rest : List Symbol) :
    s.startEnqueue (x :: rest) =
      if s.Q.length < s.par.QCAP then
        { s with Q := s.Q ++ [x], PEND := rest, hWait := s.hWait && !rest.isEmpty }
      else { s with PEND := x :: rest } := rfl

/-- More than 10 characters are ignored whole (R224). -/
theorem enqueueText_of_gt {n : BitVec 4} (hn : 10 < n.toNat) (s : State) (codes : BitVec 20) :
    s.enqueueText n codes = s := if_pos hn

theorem enqueueText_of_le {n : BitVec 4} (hn : n.toNat ≤ 10) (s : State) (codes : BitVec 20) :
    s.enqueueText n codes = s.startEnqueue (enqtSymbols s.par n codes) := if_neg (by omega)

theorem exec_enq (x : Symbol) (s : State) : exec (.enq x) s = .next (s.startEnqueue [x]) := rfl

theorem exec_enqt (n : BitVec 4) (codes : BitVec 20) (s : State) :
    exec (.enqt n codes) s = .next (s.enqueueText n codes) := rfl

theorem exec_clr (s : State) : exec .clr s = .next { s with Q := [] } := rfl

/-- Settles O42: with one symbol accepted, nothing is left in flight after its push. -/
theorem enqPushesOrHolds : Obligations.EnqPushesOrHolds := by
  refine ⟨decodeWord_enq, fun s x => ?_⟩
  rw [exec_enq, startEnqueue_cons]
  simp only [List.isEmpty_nil, Bool.not_true, Bool.and_false]

/-- Settles O43: by the count, and then by whether the text leaves anything to push. -/
theorem enqtTakesItsText : Obligations.EnqtTakesItsText := by
  refine fun s n codes => ⟨fun hn => ?ignored, fun hn syms hsyms => ?taken⟩
  case ignored => rw [exec_enqt, enqueueText_of_gt hn]
  case taken =>
    have hlist : enqtSymbols s.par n codes = syms := hsyms.symm
    rw [exec_enqt, enqueueText_of_le hn, hlist]
    cases syms with
    | nil => rw [startEnqueue_nil]
    | cons x rest => rw [startEnqueue_cons]

/-- Settles O46. -/
theorem clrEmptiesTheQueue : Obligations.ClrEmptiesTheQueue :=
  ⟨decodeWord_clr, exec_clr⟩

/-! ## One push step (R221) -/

theorem pushStep_room {s : State} {x : Symbol} {rest : List Symbol} (hpend : s.PEND = x :: rest)
    (hroom : s.Q.length < s.par.QCAP) :
    s.pushStep =
      { s with Q := s.Q ++ [x], PEND := rest, hWait := s.hWait && !rest.isEmpty } := by
  simp only [State.pushStep, hpend, hroom, if_true]

theorem pushStep_idle {s : State} (hidle : s.PEND = [] ∨ s.par.QCAP ≤ s.Q.length) :
    s.pushStep = s := by
  rcases pushStep_cases s with ⟨_, e⟩ | ⟨x, rest, hpend, hroom, _⟩ | ⟨_, _, e⟩
  · exact e
  · rcases hidle with hnil | hfull
    · rw [hpend] at hnil; cases hnil
    · omega
  · exact e

/-- A push step moves no symbol past another, and drops none (R223). -/
theorem pushStep_order (s : State) : s.pushStep.Q ++ s.pushStep.PEND = s.Q ++ s.PEND := by
  rcases pushStep_cases s with ⟨_, e⟩ | ⟨x, rest, hpend, _, e⟩ | ⟨_, _, e⟩ <;> rw [e]
  rw [hpend, List.append_assoc, List.singleton_append]

/-- A push step never overfills the queue (R226). -/
theorem pushStep_le_capacity {s : State} (h : s.Q.length ≤ s.par.QCAP) :
    s.pushStep.Q.length ≤ s.par.QCAP := by
  rcases pushStep_cases s with ⟨_, e⟩ | ⟨x, rest, _, hroom, e⟩ | ⟨_, _, e⟩ <;> rw [e]
  · exact h
  · simpa using hroom
  · exact h

theorem pushStep_prefix (s : State) : s.Q <+: s.pushStep.Q := by
  rcases pushStep_cases s with ⟨_, e⟩ | ⟨x, rest, _, _, e⟩ | ⟨_, _, e⟩ <;> rw [e]
  exact List.prefix_append s.Q [x]

/-- The decoder waits only while an enqueue is in flight (45_host_protocol.md R310). -/
def WaitsForPending (s : State) : Prop := s.hWait = true → s.PEND ≠ []

theorem waitsForPending_pushStep {s : State} (h : WaitsForPending s) :
    WaitsForPending s.pushStep := by
  unfold WaitsForPending
  rcases pushStep_cases s with ⟨_, e⟩ | ⟨x, rest, _, _, e⟩ | ⟨_, _, e⟩ <;> rw [e]
  · exact h
  · simp
  · exact h

/-! ## A row of push steps (R221, R223) -/

/-- What `n` push steps in a row make of `s`: the symbols that find a free slot, at most `n`, are at the
end of the queue, and the rest is held. -/
def State.afterPushes (s : State) (n : Nat) : State :=
  let k := min n (s.par.QCAP - s.Q.length)
  { s with Q := s.Q ++ s.PEND.take k, PEND := s.PEND.drop k,
           hWait := s.hWait && !(s.PEND.drop k).isEmpty }

/-- Nothing moves when nothing is in flight, when the queue is full, or without a push step. -/
theorem afterPushes_idle {s : State} (hwait : WaitsForPending s) {n : Nat}
    (hidle : s.PEND = [] ∨ min n (s.par.QCAP - s.Q.length) = 0) : s.afterPushes n = s := by
  have hw : (s.hWait && !s.PEND.isEmpty) = s.hWait := by
    have himp : s.hWait = true → (!s.PEND.isEmpty) = true := by simpa [WaitsForPending] using hwait
    exact Bool.and_eq_left_iff_imp.mpr himp
  unfold State.afterPushes
  rcases hidle with hnil | hzero
  · rw [hnil] at hw
    simp only [hnil, List.take_nil, List.drop_nil, List.append_nil, hw]
    rw [← hnil]
  · simp only [hzero, List.take_zero, List.drop_zero, List.append_nil, hw]

/-- The first of `n + 1` push steps, then the others. -/
theorem afterPushes_succ {s : State} (hwait : WaitsForPending s) (n : Nat) :
    s.afterPushes (n + 1) = s.pushStep.afterPushes n := by
  rcases pushStep_cases s with ⟨hnil, e⟩ | ⟨x, rest, hpend, hroom, e⟩ | ⟨_, hfull, e⟩ <;> rw [e]
  · rw [afterPushes_idle hwait (.inl hnil), afterPushes_idle hwait (.inl hnil)]
  · have hslots : min (n + 1) (s.par.QCAP - s.Q.length) =
        min n (s.par.QCAP - (s.Q ++ [x]).length) + 1 := by
      simp only [List.length_append, List.length_singleton]
      omega
    have hlast (k : Nat) : (!rest.isEmpty && !(rest.drop k).isEmpty) = !(rest.drop k).isEmpty := by
      cases rest with
      | nil => simp
      | cons y ys => simp
    simp only [State.afterPushes, hslots, hpend, List.take_succ_cons, List.drop_succ_cons,
      List.append_assoc, List.singleton_append, Bool.and_assoc, hlast]
  · have hnone (m : Nat) : min m (s.par.QCAP - s.Q.length) = 0 := by omega
    rw [afterPushes_idle hwait (.inr (hnone _)), afterPushes_idle hwait (.inr (hnone _))]

theorem running_pushStep {s : State} (h : Running s) : Running s.pushStep := by
  rw [pushStep_frame]; exact h

/-- A push step neither reads nor writes the order of acceptance. -/
theorem pushStep_withSched (s : State) (order : List Agent) :
    State.pushStep { s with sched := order } = { s.pushStep with sched := order } := by
  simp only [State.pushStep]
  split
  · rfl
  · split <;> rfl

theorem step_push {s : State} {order : List Agent} (hrun : Running s)
    (hsched : s.sched = .push :: order) : step s = .next { s.pushStep with sched := order } := by
  rw [step_of_running hrun hsched, ← pushStep_withSched]
  rfl

/-- A row of push steps, by induction on its length: the first leaves a state that the others start
from. -/
theorem run_pushes {s : State} (n : Nat) (order : List Agent) (hrun : Running s)
    (hwait : WaitsForPending s) :
    Host.Core.run core n { s with sched := List.replicate n .push ++ order } =
      .next { s.afterPushes n with sched := order } := by
  induction n generalizing s with
  | zero =>
    rw [afterPushes_idle hwait (.inr (Nat.zero_min _))]
    rfl
  | succ n ih =>
    have hfirst : step { s with sched := .push :: (List.replicate n .push ++ order) } =
        .next { s.pushStep with sched := List.replicate n .push ++ order } := by
      have hmove := step_push
        (s := { s with sched := .push :: (List.replicate n .push ++ order) }) hrun rfl
      rw [pushStep_withSched] at hmove
      exact hmove
    rw [afterPushes_succ hwait, ← ih (running_pushStep hrun) (waitsForPending_pushStep hwait)]
    exact run_succ core n _ _ hfirst

/-- The row a state's own order of acceptance begins with. -/
theorem run_pushes_of_sched {s : State} {n : Nat} {order : List Agent} (hrun : Running s)
    (hwait : WaitsForPending s) (hsched : s.sched = List.replicate n .push ++ order) :
    Host.Core.run core n s = .next { s.afterPushes n with sched := order } := by
  rw [← run_pushes n order hrun hwait, ← hsched]

/-- Settles O44: one push step by its cases, a row of them by `run_pushes`; an enqueue that fits finds
a free slot for each of its symbols. -/
theorem pushStepsDeliverInOrder : Obligations.PushStepsDeliverInOrder := by
  intro s order hrun
  refine ⟨fun hsched => ⟨fun x rest hpend hroom => ?room, fun hidle => ?idle, ?order⟩,
    fun n hpend hsched => ?row, fun hpend hfits hsched => ?whole⟩
  case room => rw [step_push hrun hsched, pushStep_room hpend hroom]
  case idle => rw [step_push hrun hsched, pushStep_idle hidle]
  case order => exact ⟨_, step_push hrun hsched, pushStep_order s, pushStep_le_capacity⟩
  case row => exact run_pushes_of_sched hrun (fun _ => hpend) hsched
  case whole =>
    have hslots : min s.PEND.length (s.par.QCAP - s.Q.length) = s.PEND.length := by omega
    rw [run_pushes_of_sched hrun (fun _ => hpend) hsched]
    simp only [State.afterPushes, hslots, List.take_length, List.drop_length, List.isEmpty_nil,
      Bool.not_true, Bool.and_false]

/-! ## What a TICK does to the queue (40_keying.md R153) -/

/-- The queue stays, is cleared, or loses its oldest symbol. -/
def KeptClearedOrPopped (q q' : List Symbol) : Prop := q' = q ∨ q' = [] ∨ ∃ x, q = x :: q'

theorem idleChoice_queue_cases (s : State) (dit dah : Bool) :
    KeptClearedOrPopped s.Q (idleChoice s dit dah).2.2 := by
  unfold idleChoice
  split
  next => exact .inl rfl
  next => exact .inl rfl
  next => exact .inr (.inl rfl)
  next => exact .inr (.inl rfl)
  next x q _ hQ => exact .inr (.inr ⟨x, hQ⟩)
  next => exact .inr (.inl rfl)

/-- Only `IdleResolve` writes the queue in the transition phase. -/
theorem transition_queue_cases {s t : State} {dit dah : Bool} (h : s.transition dit dah = some t) :
    KeptClearedOrPopped s.Q t.Q := by
  rcases transition_cases s t dit dah h with
    ⟨e, _⟩ | ⟨_, _, e⟩ | ⟨_, _, e⟩ | ⟨_, e⟩ | ⟨_, _, e⟩ | ⟨_, _, e⟩ | ⟨_, _, _, e⟩ | ⟨_, _, _, e⟩ |
    ⟨_, e⟩ <;> rw [e]
  · exact .inl rfl
  · rw [latch_eq]; exact .inl rfl
  · rw [latch_eq]; exact .inl rfl
  · exact .inl rfl
  · exact .inl rfl
  · exact .inl rfl
  · exact .inl rfl
  · exact .inl rfl
  · rw [idleResolve_eq]; exact idleChoice_queue_cases s dit dah

theorem tick_queue_cases (s : State) : KeptClearedOrPopped s.Q s.tick.Q := by
  have hcheck : s.checkTickPhase.Q = s.Q := by rw [checkTickPhase_eq]
  rcases tick_cases s with ⟨_, e⟩ | ⟨t, ht, _, e⟩ | ⟨t, out, ht, _, e⟩ <;> rw [e, ← hcheck]
  · exact .inl rfl
  · exact (transition_queue_cases ht :)
  · exact (transition_queue_cases ht :)

/-! ## What else can do to the queue (R220 to R225) -/

theorem startEnqueue_prefix (s : State) (syms : List Symbol) : s.Q <+: (s.startEnqueue syms).Q :=
  pushStep_prefix { s with PEND := syms }

theorem enqueueText_prefix (s : State) (n : BitVec 4) (codes : BitVec 20) :
    s.Q <+: (s.enqueueText n codes).Q := by
  rcases Nat.lt_or_ge 10 n.toNat with hn | hn
  · rw [enqueueText_of_gt hn]
  · rw [enqueueText_of_le hn]; exact startEnqueue_prefix s _

theorem sendText_prefix (s : State) (c : Byte) : s.Q <+: (s.sendText c).Q := by
  unfold State.sendText
  split
  · exact List.prefix_refl _
  · exact enqueueText_prefix s _ _

/-- Every meaning but TICK's and CLR's keeps the queue or adds to its end. -/
theorem exec_prefix {i : Instr} {s t : State} (htick : i ≠ .tick) (hclr : i ≠ .clr)
    (h : exec i s = .next t) : s.Q <+: t.Q := by
  cases i with
  | tick => exact absurd rfl htick
  | clr => exact absurd rfl hclr
  | read => rw [exec_read] at h; injection h with h; subst h; exact List.prefix_refl _
  | setv ch mute vol =>
    injection h with h; subst h
    rw [configOnly_setVolume s ch mute vol]
  | enq sym => injection h with h; subst h; exact startEnqueue_prefix s [sym]
  | enqt n codes => injection h with h; subst h; exact enqueueText_prefix s n codes
  | hostText c =>
    injection h with h; subst h
    exact (sendText_prefix { s with buf := s.buf.set s.scanAt c } c :)
  | hostSidetone v =>
    simp only [exec, execHostSidetone] at h
    split at h <;> injection h with h <;> subst h <;> exact List.prefix_refl _
  | _ => injection h with h; subst h; exact List.prefix_refl _

/-- CLR is taken at the control port only, with no enqueue in flight (20_memory.md R81). -/
theorem Takes.clr_free {s u : State} (h : Takes s .clr u) : s.PEND = [] := by
  rcases h.agent_cases with
    ⟨_, ⟨_, _, _, _, _, _, haudio⟩ | ⟨_, _, _, _, hfree, _⟩⟩ | ⟨hser, _⟩
  · rcases haudio with hread | htick
    · cases hread
    · cases htick
  · exact hfree
  · cases hser

/-- While an enqueue is in flight, a step keeps the queue or adds to its end, unless it runs a TICK. -/
theorem step_prefix_or_tick {s t : State} (hbusy : s.PEND ≠ []) (h : step s = .next t) :
    s.Q <+: t.Q ∨ ∃ u, Takes s .tick u ∧ t = u.tick := by
  rcases step_effect_cases h with
    ⟨_, e⟩ | ⟨order, rfl⟩ | ⟨order, rfl⟩ | ⟨order, rfl⟩ | ⟨i, u, hu, he⟩
  · left; rw [e]
  · exact .inl (pushStep_prefix { s with sched := order })
  · left; unfold State.nextChunk; split <;> exact List.prefix_refl _
  · exact .inl (List.prefix_refl _)
  by_cases htick : i = .tick
  · subst htick
    injection he with he
    exact .inr ⟨u, hu, he.symm⟩
  · left
    have hclr : i ≠ .clr := by
      rintro rfl
      exact hbusy hu.clr_free
    have hkeep := exec_prefix htick hclr he
    rw [hu.frame] at hkeep
    exact hkeep

/-- Settles O45: a queue that got shorter is not the old one with symbols added, so the step ran a
TICK, which comes from the audio port and clears the queue or pops one symbol. -/
theorem onlyATickLiftsAHold : Obligations.OnlyATickLiftsAHold := by
  intro s t _ hbusy hstep hshorter
  rcases step_prefix_or_tick hbusy hstep with hgrow | ⟨u, hu, rfl⟩
  · have := hgrow.length_le
    omega
  · have hqueue : u.Q = s.Q := by rw [hu.frame]
    refine ⟨hu.tick_audio, ?_⟩
    rcases tick_queue_cases u with hkept | hcleared | ⟨x, hpopped⟩
    · rw [hkept, hqueue] at hshorter
      omega
    · exact .inl hcleared
    · exact .inr ⟨x, hqueue.symm.trans hpopped⟩

end Sys2Proof.Machine
end

section
/-! The configuration setters (43_config.md): what a regeneration recomputes, what a setter repeated or
run on a legal state leaves as it is, and the dit length that comes of it. -/

namespace Sys2Proof.Machine

/-! ## The setters as operations -/

theorem exec_setf (v : BitVec 24) (s : State) :
    exec (.setf v) s = .next (s.setFrequency v.toNat) := rfl

theorem exec_setw (v : BitVec 24) (s : State) : exec (.setw v) s = .next (s.setSpeed v.toNat) := rfl

theorem exec_setr (v : BitVec 24) (s : State) : exec (.setr v) s = .next (s.setRise v.toNat) := rfl

theorem exec_setv (ch : BitVec 8) (mute : Bool) (vol : BitVec 8) (s : State) :
    exec (.setv ch mute vol) s = .next (s.setVolume ch mute vol) := rfl

/-! SETV by its three branches (R266) -/

theorem setVolume_of_channel {ch : BitVec 8} (hch : ch ≠ 0) (s : State) (mute : Bool)
    (vol : BitVec 8) : s.setVolume ch mute vol = s := if_pos hch

theorem setVolume_of_silent {mute : Bool} {vol : BitVec 8} (hsilent : mute = true ∨ vol = 0)
    (s : State) : s.setVolume 0 mute vol = { s with VOL := 0 } := if_pos hsilent

theorem setVolume_of_sounding {mute : Bool} {vol : BitVec 8} (hsound : ¬ (mute = true ∨ vol = 0))
    (s : State) :
    s.setVolume 0 mute vol = State.regenerate { s with VOL := min vol.toNat 100 } := if_neg hsound

/-- Settles O48: `clamp` is the minimum of a maximum (00_scope.md R15). -/
theorem settersClampAndRegenerate : Obligations.SettersClampAndRegenerate := fun v s =>
  ⟨decodeWord_setf v, decodeWord_setw v, decodeWord_setr v, exec_setf v s, exec_setw v s,
    exec_setr v s⟩

/-- Settles O49: the operand's fields by `decodeWord_setv`, and the branches of R266 in its order. -/
theorem volumeHandler : Obligations.VolumeHandler := by
  refine ⟨decodeWord_setv, fun ch vol mute s => ?_⟩
  rw [exec_setv]
  by_cases hch : ch = 0
  · subst hch
    rw [if_neg (not_not.mpr rfl)]
    by_cases hsilent : mute = true ∨ vol = 0
    · rw [setVolume_of_silent hsilent, if_pos hsilent]
    · rw [setVolume_of_sounding hsilent, if_neg hsilent]
  · rw [setVolume_of_channel hch, if_pos hch]

/-! ## A regeneration (R250) -/

/-- A regeneration computes the period and the rise samples first, and the rest from them. -/
theorem regenerate_eq (s : State) :
    s.regenerate =
      { s with
        P := tonePeriod s.par s.FREQ
        T := toneTable s.par s.FREQ (tonePeriod s.par s.FREQ) s.VOL
        D := ditLength s.par s.WPM (tonePeriod s.par s.FREQ)
        R := riseSamples s.par s.RISE
        E := envTable s.par (riseSamples s.par s.RISE) } := rfl

theorem ditLength_exact {c : Params} (h : c.DIT_ARITH = .exact) (wpm P : Nat) :
    ditLength c wpm P = ceilDiv (6 * c.SR) (5 * wpm * P) * P := by
  rw [ditLength, h]

/-- Settles O47: the five sizes and tables, the dit length by the exact arithmetic. -/
theorem regenerationRecomputesEverything : Obligations.RegenerationRecomputesEverything := by
  intro s hexact
  rw [regenerate_eq, ditLength_exact hexact]
  rfl

/-! ## The dit length (R255) -/

/-- Settles O50: the invariant makes `S.D` the formula's number of periods, and a ceiling is at least
its quotient and less than one above it. -/
theorem ditLengthIsRoundedUpToWholePeriods : Obligations.DitLengthIsRoundedUpToWholePeriods := by
  intro s h hexact
  have hdvd := h.period_dvd_dit
  have hpos := h.dit_pos
  have hperiod := h.period_pos
  obtain ⟨⟨_, _, ⟨hWPM, _⟩, _⟩, ⟨_, hD, _⟩, _⟩ := h
  rw [ditLength_exact hexact] at hD
  have hdiv : 1 ≤ 5 * s.WPM * s.P := Nat.mul_pos (by omega) hperiod
  have hround : 5 * s.WPM * s.D =
      ceilDiv (6 * s.par.SR) (5 * s.WPM * s.P) * (5 * s.WPM * s.P) := by
    rw [hD]; ring
  refine ⟨hD, hdvd, hpos, ?_, ?_⟩
  · rw [hround]; exact ceilDiv_mul_ge _ _ hdiv
  · rw [hround]; exact ceilDiv_mul_lt _ _ hdiv

/-! ## A setter repeated (R252, R261, R267) -/

/-- The tables are a function of the configuration alone, so that the later of two frequencies is the
one that counts (R252). -/
theorem setFrequency_setFrequency (s : State) (hz hz' : Nat) :
    (s.setFrequency hz).setFrequency hz' = s.setFrequency hz' := rfl

theorem setSpeed_setSpeed (s : State) (wpm wpm' : Nat) :
    (s.setSpeed wpm).setSpeed wpm' = s.setSpeed wpm' := rfl

theorem setRise_setRise (s : State) (ms ms' : Nat) :
    (s.setRise ms).setRise ms' = s.setRise ms' := rfl

/-- For the volume only the same operand again: a mute keeps the tables of the volume before it
(R266). -/
theorem setVolume_repeated (s : State) (ch : BitVec 8) (mute : Bool) (vol : BitVec 8) :
    (s.setVolume ch mute vol).setVolume ch mute vol = s.setVolume ch mute vol := by
  by_cases hch : ch = 0
  · subst hch
    by_cases hsilent : mute = true ∨ vol = 0
    · rw [setVolume_of_silent hsilent, setVolume_of_silent hsilent]
    · rw [setVolume_of_sounding hsilent, setVolume_of_sounding hsilent]; rfl
  · rw [setVolume_of_channel hch, setVolume_of_channel hch]

/-- Settles O51: each setter repeated is the setter once. -/
theorem repeatedSetterIsBitIdentical : Obligations.RepeatedSetterIsBitIdentical := by
  intro v ch vol mute i s t hi h
  rcases hi with rfl | rfl | rfl | rfl
  case inl =>
    rw [exec_setf] at h ⊢; injection h with h
    rw [← h, setFrequency_setFrequency]
  case inr.inl =>
    rw [exec_setw] at h ⊢; injection h with h
    rw [← h, setSpeed_setSpeed]
  case inr.inr.inl =>
    rw [exec_setr] at h ⊢; injection h with h
    rw [← h, setRise_setRise]
  case inr.inr.inr =>
    rw [exec_setv] at h ⊢; injection h with h
    rw [← h, setVolume_repeated]

/-! ## What a setter leaves as it is (R254) -/

/-- The registers and tables of a legal state that is not muted are what its configuration gives, so
that a regeneration changes nothing in it. -/
theorem Inv.regenerate_eq_self {s : State} (h : Inv s) (hvol : s.VOL ≠ 0) : s.regenerate = s := by
  obtain ⟨_, ⟨hP, hD, hR, hE, _, hT, _⟩, _⟩ := h
  rw [regenerate_eq, ← hP, ← hT hvol, ← hD, ← hR, ← hE]

/-- Of the five recomputed values only the dit length depends on the speed (R262). -/
theorem setSpeed_eq (s : State) (wpm : Nat) :
    s.setSpeed wpm =
      { s.regenerate with WPM := clamp wpm 10 99
                          D := ditLength s.par (clamp wpm 10 99) s.regenerate.P } := rfl

/-- Of the five recomputed values only the rise samples and the envelope depend on the rise time
(R264). -/
theorem setRise_eq (s : State) (ms : Nat) :
    s.setRise ms =
      { s.regenerate with RISE := clamp ms 1 50
                          R := riseSamples s.par (clamp ms 1 50)
                          E := envTable s.par (riseSamples s.par (clamp ms 1 50)) } := rfl

/-- Settles O52: a setter's own registers over a regeneration that changes nothing. -/
theorem unmutedSettersTouchTheirOwnTablesOnly :
    Obligations.UnmutedSettersTouchTheirOwnTablesOnly := by
  intro v s h hvol
  have hself := h.regenerate_eq_self hvol
  refine ⟨⟨ditLength s.par (clamp v.toNat 10 99) s.P, ?_⟩,
    ⟨riseSamples s.par (clamp v.toNat 1 50), envTable s.par (riseSamples s.par (clamp v.toNat 1 50)),
      ?_⟩⟩
  · rw [exec_setw, setSpeed_eq, hself]; rfl
  · rw [exec_setr, setRise_eq, hself]; rfl

end Sys2Proof.Machine
end

section
/-! The serial decoder's scan (45_host_protocol.md R281, R282, R286, R312): a command is recognised
by its own bytes alone, and the scan stops only where they are cut off. -/

namespace Sys2Proof

/-- Settles O2: the bytes of the encoding are all that the scan reads of the chunk. -/
theorem serialCommandDecodesInContext : Obligations.SerialCommandDecodesInContext :=
  fun _ _ rest hwf henc => decodeHost_encode_append rest hwf henc

/-! ## Upper-casing before any other test (R282) -/

theorem upperCase_upperCase (c : Byte) : upperCase (upperCase c) = upperCase c :=
  if_neg (upperCase_not_lower c)

/-- The scan sees the upper-cased byte only. -/
theorem decodeHost_upperCase (c : Byte) (rest : List Byte) :
    decodeHost (upperCase c :: rest) = decodeHost (c :: rest) := by
  simp only [decodeHost, upperCase_upperCase]

theorem upperCase_of_lower {c : Byte} (hlo : 0x61#8 ≤ c) (hhi : c ≤ 0x7A#8) :
    upperCase c = c - 0x20#8 := if_pos ⟨hlo, hhi⟩

/-- Settles O8: the upper-case letters are text bytes. -/
theorem lowerCaseDecodesAsUpperCase : Obligations.LowerCaseDecodesAsUpperCase := by
  intro c rest hlo hhi
  have htext : isTextByte (c - 0x20#8) = true := (isTextByte_iff _).mpr (by bv_omega)
  have hupper := decodeHost_text rest htext
  rw [← upperCase_of_lower hlo hhi] at hupper ⊢
  exact ⟨(decodeHost_upperCase c rest).symm.trans hupper, hupper⟩

/-! ## Where the scan stops (R312) -/

/-- Upper-casing gives a byte below the letters only for that byte itself. -/
theorem upperCase_eq_iff {k : Byte} (hk : k < 0x41#8) (c : Byte) : upperCase c = k ↔ c = k := by
  unfold upperCase
  split_ifs
  · constructor <;> intro h <;> bv_omega
  · exact Iff.rfl

/-- The decoder gives no instruction. -/
def Decoded.Stops (d : Decoded) : Prop := ∃ r, d = .rejected r

@[simp] theorem Decoded.stops_rejected (r : Reject) : (Decoded.rejected r).Stops := ⟨r, rfl⟩

@[simp] theorem Decoded.not_stops_instr (i : Instr) : ¬ (Decoded.instr i).Stops := by
  rintro ⟨r, h⟩
  cases h

theorem withByte_stops_iff (f : Byte → Instr) (bs : List Byte) :
    (withByte f bs).Stops ↔ bs = [] := by
  cases bs <;> simp [withByte]

/-- An admin command is cut off without its id, or without the third byte of ids 4, 26 and 27
(R286). -/
theorem decodeAdmin_stops_iff (bs : List Byte) :
    (decodeAdmin bs).Stops ↔ bs = [] ∨ bs = [4] ∨ bs = [26] ∨ bs = [27] := by
  cases bs with
  | nil => simp [decodeAdmin]
  | cons id rest =>
    rw [decodeAdmin]
    split_ifs with hecho hrise hfreq
    · simp [hecho, withByte_stops_iff]
    · simp [hrise, withByte_stops_iff]
    · simp [hfreq, withByte_stops_iff]
    · simp only [Decoded.not_stops_instr, List.cons.injEq, hecho, hrise, hfreq, false_and,
        or_self]

/-- Three first bytes ask for more than themselves; every other branch of the scan gives a
command. -/
theorem decodeHost_stops_iff (b : Byte) (rest : List Byte) :
    (decodeHost (b :: rest)).Stops ↔
      (upperCase b = 0x00 ∧ (decodeAdmin rest).Stops) ∨
      ((upperCase b = 0x01 ∨ upperCase b = 0x02) ∧ rest = []) := by
  unfold decodeHost
  simp only []
  generalize upperCase b = c
  split_ifs with htext h00 h01 h02
  · have hne : c ≠ 0x00 ∧ c ≠ 0x01 ∧ c ≠ 0x02 := by bv_omega
    simp only [Decoded.not_stops_instr, hne, false_and, or_self]
  · simp [h00]
  · simp [h01, withByte_stops_iff]
  · simp [h02, withByte_stops_iff]
  all_goals simp only [Decoded.not_stops_instr, h00, h01, h02, false_and, or_self]

/-- Settles O7: upper-casing makes none of the three first bytes, so the tests of the scan are
tests of the byte itself. -/
theorem onlyCutOffCommandsStopTheScan : Obligations.OnlyCutOffCommandsStopTheScan := by
  intro b rest
  change (decodeHost (b :: rest)).Stops ↔ _
  rw [decodeHost_stops_iff, decodeAdmin_stops_iff, upperCase_eq_iff (by decide),
    upperCase_eq_iff (by decide), upperCase_eq_iff (by decide)]

end Sys2Proof
end

section
/-! The decoder's calls (45_host_protocol.md R281, R308, R312): where one begins, where it ends, and
the one that never returns (R296). -/

namespace Sys2Proof.Machine

/-! ## A call's start and end -/

theorem hostTurn_noChunk {s : State} (hwait : s.hWait = false) (hbuf : s.buf = []) :
    s.hostTurn = .next s.nextChunk := by
  simp [State.hostTurn, hwait, hbuf]

theorem hostTurn_rejected {s : State} {r : Reject} (hwait : s.hWait = false) (hbuf : s.buf ≠ [])
    (hdec : decodeHost (s.buf.drop s.scanAt) = .rejected r) : s.hostTurn = .next s.endChunk := by
  obtain ⟨b, bs, hcons⟩ := List.exists_cons_of_ne_nil hbuf
  rw [hcons] at hdec
  simp [State.hostTurn, hwait, hcons, hdec]

theorem nextChunk_nil {s : State} (h : s.serialIn = []) : s.nextChunk = s := by
  simp only [State.nextChunk, h]

theorem nextChunk_cons {s : State} {chunk : List Byte} {rest : List (List Byte)}
    (h : s.serialIn = chunk :: rest) :
    s.nextChunk = { s with serialIn := rest, buf := chunk, scanAt := 0, replyAt := 0 } := by
  simp only [State.nextChunk, h]

/-- Settles O16: the decoder's move where it finds no command, with a chunk and without one. -/
theorem chunkEndReturnsTheReplies : Obligations.ChunkEndReturnsTheReplies := by
  intro s order hrun hsched hwait
  rw [step_of_running hrun hsched]
  refine ⟨fun r hbuf hdec => ?ends, fun hbuf chunk rest hin => ?starts, fun hbuf hin => ?idle⟩
  case ends => exact hostTurn_rejected (s := { s with sched := order }) hwait hbuf hdec
  case starts =>
    have hnext := nextChunk_cons (s := { s with sched := order }) hin
    exact (hostTurn_noChunk (s := { s with sched := order }) hwait hbuf).trans (by rw [hnext])
  case idle =>
    have hnext := nextChunk_nil (s := { s with sched := order }) hin
    exact (hostTurn_noChunk (s := { s with sched := order }) hwait hbuf).trans (by rw [hnext])

/-! ## Firmware update (R296; 10_state.md R47) -/

/-- A state that a step leaves as it is stays so for a run of any length. -/
theorem run_of_step_self {s : State} (h : step s = .next s) (k : Nat) :
    Host.Core.run core k s = .next s := by
  induction k with
  | zero => rfl
  | succ k ih => exact (run_succ core k s s h).trans ih

theorem step_of_fwUpdate {s : State} (hrun : Running s) :
    step { s with fwUpdate := true } = .next { s with fwUpdate := true } := by
  obtain ⟨hok, hreserved, htable, _⟩ := hrun
  rw [step, State.turn, if_neg (not_not.mpr hok)]
  simp only [hreserved, htable, Bool.false_eq_true, if_false, if_true]

/-- Settles O15: after firmware update a step changes nothing, so neither does a run. -/
theorem firmwareUpdateEndsAllOperations : Obligations.FirmwareUpdateEndsAllOperations :=
  ⟨fun rest => decodeHost_encode_append (i := .hostAdminFwupdate) rest rfl rfl,
    fun _ hrun => ⟨rfl, run_of_step_self (step_of_fwUpdate hrun)⟩⟩

end Sys2Proof.Machine
end

section
/-! The serial commands' meanings by kind (45_host_protocol.md R288 to R307): those that reply,
those that set the version or do nothing, and those that issue a setter. -/

namespace Sys2Proof.Machine

/-! ## Replies (R288 to R295, R305) -/

/-- The bytes `bs` are a command of their own whose meaning is to reply `b`. -/
structure RepliesByte (bs : List Byte) (i : Instr) (b : Byte) : Prop where
  wellFormed : i.wellFormed = true
  encode_eq : encode i = .bytes bs
  exec_eq (s : State) : exec i s = .next ((s.reply b).consume bs.length)

theorem repliesByte_echo (x : Byte) : RepliesByte [0x00, 0x04, x] (.hostAdminEcho x) x :=
  ⟨rfl, rfl, fun _ => rfl⟩

/-- The commands whose reply is a constant, as `Obligations.SerialCommandsReply` lists them. -/
def fixedReplies : List (List Byte × Instr × Byte) :=
  [([0x00, 5], .hostAdmin5, 0), ([0x00, 6], .hostAdmin6, 0), ([0x00, 7], .hostAdmin7, 0),
    ([0x00, 9], .hostAdminMajor, 31), ([0x00, 21], .hostAdminVoltage, 52),
    ([0x00, 23], .hostAdminMinor, 3), ([0x00, 24], .hostAdminIctype, 1),
    ([0x15], .hostStatus, 0xC0)]

theorem repliesByte_fixed {bs : List Byte} {i : Instr} {b : Byte} (h : (bs, i, b) ∈ fixedReplies) :
    RepliesByte bs i b := by
  simp only [fixedReplies, List.mem_cons, Prod.mk.injEq, List.not_mem_nil, or_false] at h
  rcases h with ⟨rfl, rfl, rfl⟩ | ⟨rfl, rfl, rfl⟩ | ⟨rfl, rfl, rfl⟩ | ⟨rfl, rfl, rfl⟩ |
    ⟨rfl, rfl, rfl⟩ | ⟨rfl, rfl, rfl⟩ | ⟨rfl, rfl, rfl⟩ | ⟨rfl, rfl, rfl⟩ <;>
    exact ⟨rfl, rfl, fun _ => rfl⟩

/-- Settles O53: Host Open writes two replies, every other command of the list one. -/
theorem serialCommandsReply : Obligations.SerialCommandsReply := by
  intro s x rest
  have hecho := repliesByte_echo x
  refine ⟨decodeHost_encode_append (i := .hostAdminHostopen) rest rfl rfl, rfl,
    decodeHost_encode_append rest hecho.wellFormed hecho.encode_eq, hecho.exec_eq s,
    fun bs i b hmem => ?_⟩
  have hreply := repliesByte_fixed hmem
  exact ⟨decodeHost_encode_append rest hreply.wellFormed hreply.encode_eq, hreply.exec_eq s⟩

/-! ## Versions and no-ops (R292, R297, R300, R304, R306, R307) -/

/-- Settles O54: the commands without operands by their fixed bytes, the other no-ops by the ranges
of their operands. -/
theorem versionAndNoOpCommands : Obligations.VersionAndNoOpCommands := by
  intro s id g b rest
  refine ⟨decodeHost_encode_append (i := .hostAdminVersion1) rest rfl rfl,
    decodeHost_encode_append (i := .hostAdminVersion2) rest rfl rfl,
    decodeHost_encode_append (i := .hostAdminVersion3) rest rfl rfl,
    decodeHost_encode_append (i := .hostVersion3) rest rfl rfl,
    decodeHost_encode_append (i := .hostAdminSidetonevol) rest rfl rfl,
    fun hid => decodeHost_adminOther rest hid, fun hb => decodeHost_ctrlNop rest hb,
    fun hg => decodeHost_ignored rest ((isIgnoredByte_iff g).mpr hg), ?_⟩
  exact ⟨rfl, rfl, rfl, rfl, rfl, rfl, rfl, rfl⟩

/-! ## The setters a command issues (R298, R299, R301, R302) -/

theorem exec_hostAdminRise (x : Byte) (s : State) :
    exec (.hostAdminRise x) s = .next ((s.setRise x.toNat).consume 3) := rfl

theorem exec_hostAdminFreq (x : Byte) (s : State) :
    exec (.hostAdminFreq x) s = .next ((s.setFrequency (10 * x.toNat)).consume 3) := rfl

theorem exec_hostSpeed (x : Byte) (s : State) :
    exec (.hostSpeed x) s = .next ((s.setSpeed x.toNat).consume 2) := rfl

/-- Settles O55: `clamp` is the minimum of a maximum (00_scope.md R15). -/
theorem serialSettersIssueTheirSetter : Obligations.SerialSettersIssueTheirSetter := fun s x rest =>
  ⟨decodeHost_encode_append (i := .hostAdminRise x) rest rfl rfl,
    decodeHost_encode_append (i := .hostAdminFreq x) rest rfl rfl,
    decodeHost_encode_append (i := .hostSpeed x) rest rfl rfl,
    exec_hostAdminRise x s, exec_hostAdminFreq x s, exec_hostSpeed x s⟩

section
variable {s : State} {v : Byte}

/-- A value in the version's range issues SETF, another one nothing (R301). -/
theorem exec_hostSidetone_some {hz : Nat} (h : sidetoneHz s.par s.oldVersion v = some hz) :
    exec (.hostSidetone v) s = .next ((s.setFrequency hz).consume 2) := by
  simp only [exec, execHostSidetone, h]

theorem exec_hostSidetone_none (h : sidetoneHz s.par s.oldVersion v = none) :
    exec (.hostSidetone v) s = .next (s.consume 2) := by
  simp only [exec, execHostSidetone, h]

theorem oldVersion_eq_true (h : s.hVersion ≠ .v3) : s.oldVersion = true := bne_iff_ne.mpr h

theorem oldVersion_eq_false (h : s.hVersion = .v3) : s.oldVersion = false := by
  rw [State.oldVersion, h]; rfl

end

/-- The range and the frequency of versions 1 and 2. -/
theorem sidetoneHz_old (par : Params) (v : Byte) :
    sidetoneHz par true v =
      if 1 ≤ v.toNat ∧ v.toNat ≤ 10 then some (par.SIDETONE_TABLE.getD v.toNat 0).toNat
      else none := rfl

/-- The range and the frequency of version 3. -/
theorem sidetoneHz_new (par : Params) (v : Byte) :
    sidetoneHz par false v =
      if 15 ≤ v.toNat ∧ v.toNat ≤ 125 then some (62500 / v.toNat) else none := rfl

/-- Settles O56: the version picks the range, and the value is in it or not. -/
theorem sidetoneByVersion : Obligations.SidetoneByVersion := by
  refine fun s v => ⟨fun rest => decodeHost_encode_append (i := .hostSidetone v) rest rfl rfl,
    fun hver hlo hhi => ?old, fun hver hlo hhi => ?new, fun hout => ?out⟩
  case old =>
    have hz := (sidetoneHz_old s.par v).trans (if_pos ⟨hlo, hhi⟩)
    rw [← oldVersion_eq_true hver] at hz
    exact exec_hostSidetone_some hz
  case new =>
    have hz := (sidetoneHz_new s.par v).trans (if_pos ⟨hlo, hhi⟩)
    rw [← oldVersion_eq_false hver] at hz
    exact exec_hostSidetone_some hz
  case out =>
    apply exec_hostSidetone_none
    rcases hout with ⟨hver, hrange⟩ | ⟨hver, hrange⟩
    · rw [oldVersion_eq_true hver, sidetoneHz_old, if_neg (by omega)]
    · rw [oldVersion_eq_false hver, sidetoneHz_new, if_neg (by omega)]

/-! ## The speed query (R303) -/

/-- Masking to six bits is the remainder by 64, and bit 7 is free of it. -/
theorem speedReply_eq (n : Nat) :
    (BitVec.ofNat 8 n &&& 0x3F#8) ||| 0x80#8 = BitVec.ofNat 8 (n % 64 + 128) := by
  have hmask : n % 256 &&& 63 = n % 64 := by
    rw [Nat.and_two_pow_sub_one_eq_mod _ 6, Nat.mod_mod_of_dvd n (by decide)]
  have hbit : n % 64 ||| 128 = n % 64 + 128 := by
    have hlt : n % 64 < 2 ^ 7 := by omega
    have hadd := Nat.two_pow_add_eq_or_of_lt hlt 1
    rw [Nat.or_comm, Nat.add_comm]
    exact hadd.symm
  apply BitVec.eq_of_toNat_eq
  simp only [BitVec.toNat_or, BitVec.toNat_and, BitVec.toNat_ofNat, Nat.reducePow, Nat.reduceMod]
  rw [hmask, hbit]
  omega

/-- Settles O57: `H.wpm` is the block's own speed (log 11). -/
theorem speedQueryReplies : Obligations.SpeedQueryReplies := by
  refine ⟨fun rest => decodeHost_encode_append (i := .hostSpeedquery) rest rfl rfl, fun s _ => ?_⟩
  rw [← speedReply_eq]
  rfl

end Sys2Proof.Machine
end

section
/-! Morse text (45_host_protocol.md R282, R283): the ENQT a byte's string stands for, and the
decoder's wait for it (R310). -/

namespace Sys2Proof.Machine

/-! ## A string as ENQT's operand -/

/-- The symbol a character of a morse string stands for (42_queue.md R222). -/
def symbolOfChar : TextChar → Symbol
  | .dot => .dit
  | .dash => .dah
  | .other => .pause

/-- Packing a character as a code and reading the code back. -/
theorem symOf_codeOfChar (ch : TextChar) :
    symOf (BitVec.ofNat 2 (codeOfChar ch)) = symbolOfChar ch := by
  cases ch <;> rfl

/-- What sending a string puts in flight: its symbols, then `ICP - 1` Pauses (R283). -/
def stringSymbols (c : Params) (str : List TextChar) : List Symbol :=
  str.map symbolOfChar ++ List.replicate (c.ICP - 1) .pause

theorem enqtSymbols_string (c : Params) {str : List TextChar} (h : str.length ≤ 10) :
    enqtSymbols c (stringCount str) (stringCodes str) = stringSymbols c str := by
  simp only [enqtSymbols, textSymbols_string str h, symOf_codeOfChar, stringSymbols]

theorem stringCount_le {str : List TextChar} (h : str.length ≤ 10) :
    (stringCount str).toNat ≤ 10 := by
  rw [stringCount, BitVec.toNat_ofNat]
  exact (Nat.mod_le _ _).trans h

theorem enqueueText_string (s : State) {str : List TextChar} (h : str.length ≤ 10) :
    s.enqueueText (stringCount str) (stringCodes str) =
      s.startEnqueue (stringSymbols s.par str) := by
  rw [enqueueText_of_le (stringCount_le h), enqtSymbols_string s.par h]

/-! ## Sending a byte's string -/

theorem sendText_of_nil {s : State} {c : Byte} (h : morseOf s.par c = []) : s.sendText c = s := by
  simp only [State.sendText, h]

theorem sendText_of_cons {s : State} {c : Byte} {ch : TextChar} {str : List TextChar}
    (hok : s.par.Ok) (h : morseOf s.par c = ch :: str) :
    s.sendText c =
      { s.startEnqueue (stringSymbols s.par (ch :: str)) with
        hWait := !(s.startEnqueue (stringSymbols s.par (ch :: str))).PEND.isEmpty } := by
  have hlen := morseOf_length s.par hok c
  rw [h] at hlen
  simp only [State.sendText, h, enqueueText_string s hlen]

/-- The first symbol is pushed at once when the queue has room, and the decoder waits for the
rest. -/
theorem sendText_pushes {s : State} {c : Byte} {ch : TextChar} {str : List TextChar} {x : Symbol}
    {rest : List Symbol} (hok : s.par.Ok) (h : morseOf s.par c = ch :: str)
    (hsyms : stringSymbols s.par (ch :: str) = x :: rest) :
    s.sendText c =
      if s.Q.length < s.par.QCAP then
        { s with Q := s.Q ++ [x], PEND := rest, hWait := !rest.isEmpty }
      else { s with PEND := x :: rest, hWait := true } := by
  rw [sendText_of_cons hok h, hsyms, startEnqueue_cons]
  split
  · rfl
  · rfl

theorem exec_hostText (c : Byte) (s : State) :
    exec (.hostText c) s =
      .next ((State.sendText { s with buf := s.buf.set s.scanAt c } c).consume 1) := rfl

/-- Settles O58: a byte without a string sends nothing, and any other its string's symbols. -/
theorem textEnqueuesItsMorse : Obligations.TextEnqueuesItsMorse := by
  refine fun s c hok => ⟨fun hnone => ?noString, fun ch str x rest hmorse hlist => ?string⟩
  case noString =>
    rw [exec_hostText, sendText_of_nil (s := { s with buf := s.buf.set s.scanAt c }) hnone]
    rfl
  case string =>
    have hsyms : stringSymbols s.par (ch :: str) = x :: rest := hlist.symm
    rw [exec_hostText,
      sendText_pushes (s := { s with buf := s.buf.set s.scanAt c }) hok hmorse hsyms]
    by_cases hroom : s.Q.length < s.par.QCAP
    · simp only [hroom, if_true]; rfl
    · simp only [hroom, if_false]; rfl

end Sys2Proof.Machine
end

section
/-! What every serial command leaves alone (45_host_protocol.md R280), and how far it moves the
decoder's cursors (R281, R308). -/

namespace Sys2Proof.Machine

/-- Only the commands of the serial line are encoded as bytes. -/
theorem isSerial_of_encode_bytes {i : Instr} {bs : List Byte} (h : encode i = .bytes bs) :
    isSerial i = true := by
  cases i with
  | read | tick | setf _ | setw _ | setr _ | setv _ _ _ | enq _ | enqt _ _ | clr => cases h
  | _ => rfl

theorem exec_hostSidetone_cases (v : Byte) (s : State) :
    (∃ hz, exec (.hostSidetone v) s = .next ((s.setFrequency hz).consume 2)) ∨
    exec (.hostSidetone v) s = .next (s.consume 2) := by
  cases h : sidetoneHz s.par s.oldVersion v with
  | none => exact .inr (exec_hostSidetone_none h)
  | some hz => exact .inl ⟨hz, exec_hostSidetone_some h⟩

/-! ## The audio side (R280) -/

/-- The setters that a serial command issues are not the volume's. -/
theorem IsIssuer.exec_VOL {i : Instr} {s t : State} (hi : IsIssuer i) (h : exec i s = .next t) :
    t.VOL = s.VOL := by
  rcases hi with ⟨x, rfl⟩ | ⟨x, rfl⟩ | ⟨v, rfl⟩ | ⟨v, rfl⟩
  · rw [exec_hostAdminRise] at h; injection h with h; rw [← h]; rfl
  · rw [exec_hostAdminFreq] at h; injection h with h; rw [← h]; rfl
  · rcases exec_hostSidetone_cases v s with ⟨hz, e⟩ | e
    · rw [e] at h; injection h with h; rw [← h]; rfl
    · rw [e] at h; injection h with h; rw [← h]; rfl
  · rw [exec_hostSpeed] at h; injection h with h; rw [← h]; rfl

/-- Settles O25: a serial command writes the configuration but the volume, or the queue and the
decoder. -/
theorem serialCommandsLeaveTheAudioSide : Obligations.SerialCommandsLeaveTheAudioSide := by
  intro i bs s t henc h
  have hser := isSerial_of_encode_bytes henc
  have hnot {j : Instr} (hj : isSerial j = false) : i ≠ j := by
    rintro rfl
    rw [hj] at hser; cases hser
  have hqueue : s.Q <+: t.Q := exec_prefix (hnot rfl) (hnot rfl) h
  rcases exec_effect_cases h with ⟨hread, _⟩ | ⟨htick, _⟩ | ⟨hset | ⟨hissue, _⟩, e⟩ | e
  · exact absurd hread (hnot rfl)
  · exact absurd htick (hnot rfl)
  · exact absurd rfl (hnot hset.not_serial)
  · have hvol := hissue.exec_VOL h
    rw [e] at hqueue ⊢
    exact ⟨rfl, hvol, rfl, rfl, rfl, rfl, rfl, rfl, rfl, rfl, rfl, hqueue⟩
  · rw [e] at hqueue ⊢
    exact ⟨rfl, rfl, rfl, rfl, rfl, rfl, rfl, rfl, rfl, rfl, rfl, hqueue⟩

/-! ## The cursors (R281, R308) -/

/-- The parse cursor moves past `n` bytes, and the chunk takes at most `n` bytes of reply in
place. -/
def ScansBytes (n : Nat) (s t : State) : Prop :=
  t.scanAt = s.scanAt + n ∧ t.buf.length = s.buf.length ∧
  s.replyAt ≤ t.replyAt ∧ t.replyAt ≤ s.replyAt + n

/-- A command that replies `k` bytes before the parse cursor moves past its own `n`. -/
theorem scansBytes_consume {s u : State} {n : Nat} (k : Nat) (hscan : u.scanAt = s.scanAt)
    (hbuf : u.buf.length = s.buf.length) (hreply : u.replyAt = s.replyAt + k) (hk : k ≤ n) :
    ScansBytes n s (u.consume n) := by
  refine ⟨?_, hbuf, ?_, ?_⟩
  · rw [State.consume_scanAt, hscan]
  · rw [State.consume_replyAt, hreply]; omega
  · rw [State.consume_replyAt, hreply]; omega

theorem scansBytes_of_silent {s u : State} (n : Nat) (hscan : u.scanAt = s.scanAt)
    (hbuf : u.buf.length = s.buf.length) (hreply : u.replyAt = s.replyAt) :
    ScansBytes n s (u.consume n) :=
  scansBytes_consume 0 hscan hbuf hreply (Nat.zero_le n)

theorem scansBytes_reply (s : State) (b : Byte) {n : Nat} (hn : 1 ≤ n) :
    ScansBytes n s ((s.reply b).consume n) :=
  scansBytes_consume 1 rfl List.length_set rfl hn

theorem scansBytes_hostText (s : State) (c : Byte) :
    ScansBytes 1 s ((State.sendText { s with buf := s.buf.set s.scanAt c } c).consume 1) := by
  rw [sendText_frame]
  exact scansBytes_of_silent 1 rfl List.length_set rfl

/-- Settles O59: by how many bytes each command replies, two for Host Open and at most one for the
others. -/
theorem repliesNeverOutrunTheScan : Obligations.RepliesNeverOutrunTheScan := by
  intro i bs s t henc hfw h
  change ScansBytes bs.length s t
  cases i with
  | read | tick | setf _ | setw _ | setr _ | setv _ _ _ | enq _ | enqt _ _ | clr => cases henc
  | hostAdminFwupdate => exact absurd rfl hfw
  | hostText c =>
    cases henc; injection h with h; subst h
    exact scansBytes_hostText s c
  | hostSidetone v =>
    cases henc
    rcases exec_hostSidetone_cases v s with ⟨hz, e⟩ | e
    · rw [e] at h; injection h with h; subst h
      exact scansBytes_of_silent 2 rfl rfl rfl
    · rw [e] at h; injection h with h; subst h
      exact scansBytes_of_silent 2 rfl rfl rfl
  | hostAdminHostopen =>
    cases henc; injection h with h; subst h
    exact scansBytes_consume 2 rfl (List.length_set.trans List.length_set) rfl (le_refl 2)
  | hostAdminEcho _ | hostAdmin5 | hostAdmin6 | hostAdmin7 | hostAdminMajor | hostAdminVoltage
  | hostAdminMinor | hostAdminIctype | hostSpeedquery | hostStatus =>
    cases henc; injection h with h; subst h
    exact scansBytes_reply s _ (Nat.le_add_left 1 _)
  | _ =>
    cases henc; injection h with h; subst h
    exact scansBytes_of_silent _ rfl rfl rfl

end Sys2Proof.Machine
end

section
/-! What stops a step and what does not: the refusal of the parameters, the two stuck records, and
otherwise a next state (60_exceptions.md R340, R343, R345). -/

namespace Sys2Proof.Machine

/-! ## The answer of a step -/

/-- Whoever moves goes on: a move changes ports, queue or chunk, or runs a meaning, and every meaning
answers a next state. -/
theorem agentTurn_next (s : State) (a : Agent) : ∃ t, s.agentTurn a = .next t := by
  cases a with
  | audio =>
    change ∃ t, s.audioTurn = .next t
    rcases audioTurn_cases s with
      ⟨_, e⟩ | ⟨_, _, _, _, e⟩ | ⟨_, _, i, _, _, _, e⟩ | ⟨_, _, _, _, _, _, e⟩ <;> rw [e]
    · exact ⟨_, rfl⟩
    · exact ⟨_, rfl⟩
    · exact exec_next i _
    · exact ⟨_, rfl⟩
  | control =>
    change ∃ t, s.controlTurn = .next t
    rcases controlTurn_cases s with
      e | ⟨_, _, _, _, _, e⟩ | ⟨_, _, i, _, _, _, _, e⟩ | ⟨_, _, _, _, _, _, _, e⟩ <;> rw [e]
    · exact ⟨_, rfl⟩
    · exact ⟨_, rfl⟩
    · exact exec_next i _
    · exact ⟨_, rfl⟩
  | push => exact ⟨s.pushStep, rfl⟩
  | host =>
    change ∃ t, s.hostTurn = .next t
    rcases hostTurn_cases s with e | ⟨_, _, e⟩ | ⟨_, _, _, _, e⟩ | ⟨i, _, _, _, _, e⟩ <;> rw [e]
    · exact ⟨_, rfl⟩
    · exact ⟨_, rfl⟩
    · exact ⟨_, rfl⟩
    · exact exec_next i s

/-- The four answers of a step, each with the condition that decides it. -/
theorem step_answer_cases (s : State) :
    (¬ s.par.Ok ∧ step s = .refused .parameters) ∨
    (s.par.Ok ∧ s.FAULTS.reservedState = true ∧ step s = .fault .reservedState) ∨
    (s.par.Ok ∧ s.FAULTS.reservedState = false ∧ s.FAULTS.tableIndex = true ∧
      step s = .fault .tableIndex) ∨
    (s.par.Ok ∧ s.FAULTS.reservedState = false ∧ s.FAULTS.tableIndex = false ∧
      ∃ t, step s = .next t) := by
  rcases step_cases s with
    hrefused | hreserved | htable | ⟨hok, hr, ht, _, e⟩ | ⟨a, rest, hok, hr, ht, _, _, e⟩
  · exact .inl hrefused
  · exact .inr (.inl hreserved)
  · exact .inr (.inr (.inl htable))
  · exact .inr (.inr (.inr ⟨hok, hr, ht, s, e⟩))
  · obtain ⟨t, hmove⟩ := agentTurn_next { s with sched := rest } a
    exact .inr (.inr (.inr ⟨hok, hr, ht, t, e.trans hmove⟩))

/-- Bad parameters are the one reason for a refusal (R345; log 16). -/
theorem step_eq_refused_iff {s : State} {r : Refusal} :
    step s = .refused r ↔ r = .parameters ∧ ¬ s.par.Ok := by
  constructor
  · intro h
    rcases step_answer_cases s with ⟨hbad, e⟩ | ⟨_, _, e⟩ | ⟨_, _, _, e⟩ | ⟨_, _, _, t, e⟩ <;>
      rw [e] at h <;> cases h
    exact ⟨rfl, hbad⟩
  · rintro ⟨rfl, hbad⟩
    rw [step, State.turn, if_pos hbad]

/-- The record 3 is looked at before the record 4 (R343; log 14). -/
theorem step_of_reservedState {s : State} (hok : s.par.Ok)
    (hr : s.FAULTS.reservedState = true) : step s = .fault .reservedState := by
  rw [step, State.turn, if_neg (not_not.mpr hok), if_pos hr]

theorem step_of_tableIndex {s : State} (hok : s.par.Ok) (hr : s.FAULTS.reservedState = false)
    (ht : s.FAULTS.tableIndex = true) : step s = .fault .tableIndex := by
  rw [step, State.turn, if_neg (not_not.mpr hok), if_neg (Bool.eq_false_iff.mp hr), if_pos ht]

/-- With admissible parameters and neither stuck record a step goes on, whatever waits at its inputs. -/
theorem step_next_of_not_stuck {s : State} (hok : s.par.Ok) (hr : s.FAULTS.reservedState = false)
    (ht : s.FAULTS.tableIndex = false) : ∃ t, step s = .next t := by
  rcases step_answer_cases s with ⟨hbad, _⟩ | ⟨_, hr', _⟩ | ⟨_, _, ht', _⟩ | ⟨_, _, _, hnext⟩
  · exact absurd hok hbad
  · rw [hr] at hr'; cases hr'
  · rw [ht] at ht'; cases ht'
  · exact hnext

/-! ## Runs of a legal state -/

/-- What every step reaches and keeps, a run of any length reaches and keeps. -/
theorem run_next_of_progress {M : Host.Core} {Good : M.State → Prop}
    (hprogress : ∀ s, Good s → ∃ t, M.step s = .next t ∧ Good t) (k : Nat) (s : M.State)
    (h : Good s) : ∃ t, M.run k s = .next t ∧ Good t := by
  induction k generalizing s with
  | zero => exact ⟨s, rfl, h⟩
  | succ k ih =>
    obtain ⟨t, hstep, ht⟩ := hprogress s h
    rw [run_succ M k s t hstep]
    exact ih t ht

/-- A legal state holds admissible parameters and neither stuck record, so its step goes on. -/
theorem Inv.step_next {s : State} (h : Inv s) : ∃ t, step s = .next t ∧ Inv t := by
  have hlegal := h
  obtain ⟨⟨hok, _⟩, _, _, ⟨_, _, hr, ht⟩, _⟩ := hlegal
  obtain ⟨t, hstep⟩ := step_next_of_not_stuck hok hr ht
  exact ⟨t, hstep, stepKeepsInvariant s t h hstep⟩

/-- Settles O19: progress and preservation of one step, carried through the run. -/
theorem legalRunsNeverStop : Obligations.LegalRunsNeverStop := fun s h k =>
  run_next_of_progress (M := core) (Good := Inv) (fun _ => Inv.step_next) k s h

/-! ## Bad parameters (R345) -/

/-- Settles O13: construction by its own test of R11, the step by `step_eq_refused_iff`. -/
theorem badParametersAreRefused : Obligations.BadParametersAreRefused := by
  refine ⟨fun c => ⟨fun hbad => ⟨if_neg hbad, ?refuses⟩, fun hok => if_pos hok⟩,
    fun s r => step_eq_refused_iff.mp⟩
  case refuses =>
    rintro s rfl
    exact step_eq_refused_iff.mpr ⟨rfl, hbad⟩

/-! ## Stuck states (R343) -/

/-- The reserved state has no transition phase, so a TICK that finds it makes its two checks only
(40_keying.md R141, R166). -/
theorem tick_of_reserved {s : State} (hK : s.K = .reserved) :
    s.tick = s.checkTickPhase.markReservedState := by
  refine tick_of_no_transition ?_
  rw [checkTickPhase_eq]
  simp only [State.transition, hK]

/-- Settles O14: the TICK by its record, the later steps by the record they find. -/
theorem reservedStateLeavesTheModelStuck : Obligations.ReservedStateLeavesTheModelStuck := by
  refine ⟨fun s hK => ?records, fun _ => step_of_reservedState, fun _ => step_of_tableIndex⟩
  case records =>
    change Host.Outcome.next s.tick = _
    rw [tick_of_reserved hK, checkTickPhase_eq]
    rfl

end Sys2Proof.Machine
end

section
/-! The state after reset (70_reset_and_hazards.md R370): the clamped defaults under one regeneration,
legal for every admissible parameter set. -/

namespace Sys2Proof.Machine

/-! ## The configuration at reset -/

theorem clamp_eq_self {v lo hi : Nat} (hlo : lo ≤ v) (hhi : v ≤ hi) : clamp v lo hi = v := by
  rw [clamp, max_eq_left hlo, min_eq_left hhi]

/-- The clamps put every default into its field's range (10_state.md R32; R370). -/
theorem configLegal_resetOf {c : Params} (hok : c.Ok) : ConfigLegal (State.resetOf c) := by
  have hrange : c.F_MIN ≤ c.F_MAX := by
    obtain ⟨_, _, _, ⟨_, hle, _⟩, _⟩ := hok
    exact hle
  exact ⟨hok, clamp_bounds _ _ _ hrange, clamp_bounds _ _ _ (by decide), min_le_right _ _,
    clamp_bounds _ _ _ (by decide)⟩

/-- A default frequency within the device's range is taken as it is. -/
theorem resetOf_FREQ {c : Params} (hmin : c.F_MIN ≤ c.DEFAULT_FREQ.toNat)
    (hmax : c.DEFAULT_FREQ.toNat ≤ c.F_MAX) :
    (State.resetOf c).FREQ = c.DEFAULT_FREQ.toNat := clamp_eq_self hmin hmax

theorem resetOf_WPM {c : Params} (hmin : 10 ≤ c.DEFAULT_WPM.toNat)
    (hmax : c.DEFAULT_WPM.toNat ≤ 99) :
    (State.resetOf c).WPM = c.DEFAULT_WPM.toNat := clamp_eq_self hmin hmax

theorem resetOf_RISE {c : Params} (hmin : 1 ≤ c.DEFAULT_RISE.toNat)
    (hmax : c.DEFAULT_RISE.toNat ≤ 50) :
    (State.resetOf c).RISE = c.DEFAULT_RISE.toNat := clamp_eq_self hmin hmax

/-! ## The derived registers and tables at reset -/

/-- The derived registers are those of one `Regenerate()` on the reset configuration, which a second
one repeats (R370; 43_config.md R250, R252). -/
theorem regenerate_resetOf (c : Params) : (State.resetOf c).regenerate = State.resetOf c := rfl

theorem resetOf_P (c : Params) :
    (State.resetOf c).P = tonePeriod c (State.resetOf c).FREQ := rfl

theorem resetOf_D (c : Params) :
    (State.resetOf c).D = ditLength c (State.resetOf c).WPM (State.resetOf c).P := rfl

theorem resetOf_R (c : Params) :
    (State.resetOf c).R = riseSamples c (State.resetOf c).RISE := rfl

/-- 600 Hz at 48000 samples per second: one cycle is 80 samples. -/
theorem resetOf_P_600 {c : Params} (hSR : c.SR = 48000) (hmin : c.F_MIN ≤ 600)
    (hmax : 600 ≤ c.F_MAX) (hfreq : c.DEFAULT_FREQ = 600) : (State.resetOf c).P = 80 := by
  have hnat : c.DEFAULT_FREQ.toNat = 600 := by rw [hfreq]; rfl
  rw [resetOf_P, resetOf_FREQ (by rwa [hnat]) (by rwa [hnat]), hnat, tonePeriod, hSR, ceilDiv]

/-- 20 WPM at 48000 samples per second: 60 ms, which is 36 whole cycles of 80 samples. -/
theorem resetOf_D_20 {c : Params} (hSR : c.SR = 48000) (hexact : c.DIT_ARITH = .exact)
    (hP : (State.resetOf c).P = 80) (hwpm : c.DEFAULT_WPM = 20) :
    (State.resetOf c).D = 2880 := by
  have hnat : c.DEFAULT_WPM.toNat = 20 := by rw [hwpm]; rfl
  rw [resetOf_D, resetOf_WPM (by omega) (by omega), hP, hnat, ditLength_exact hexact, hSR, ceilDiv]

/-- 5 ms at 48000 samples per second: 240 samples. -/
theorem resetOf_R_5 {c : Params} (hSR : c.SR = 48000) (hrise : c.DEFAULT_RISE = 5) :
    (State.resetOf c).R = 240 := by
  have hnat : c.DEFAULT_RISE.toNat = 5 := by rw [hrise]; rfl
  rw [resetOf_R, resetOf_RISE (by omega) (by omega), hnat, riseSamples, hSR]

/-! ## The rest of the machine at reset -/

/-- In Init progress and end index are 0, the latch and the indicator off (10_state.md R36 to R40;
40_keying.md R158). -/
theorem keyerLegal_resetOf (c : Params) : KeyerLegal (State.resetOf c) :=
  ⟨Keyer.noConfusion, Nat.zero_le _, Nat.zero_le _, fun _ => ⟨rfl, rfl⟩, Keyer.noConfusion, .inl rfl,
    fun _ => .inl rfl, fun _ => rfl⟩

/-- The queue is empty, the buffer holds its `B` zeros, and nothing is recorded (10_state.md R41,
R49; 60_exceptions.md R343). -/
theorem storageLegal_resetOf (c : Params) : StorageLegal (State.resetOf c) :=
  ⟨Nat.zero_le _, List.length_replicate, rfl, rfl⟩

/-- There is no chunk, and nothing is in flight for the decoder to wait for (45_host_protocol.md R308,
R310). -/
theorem decoderLegal_resetOf (c : Params) : DecoderLegal (State.resetOf c) :=
  ⟨le_refl _, Nat.zero_le _, Bool.noConfusion, Nat.zero_le _⟩

/-! ## The statements -/

/-- Settles O17: reset is a regeneration of itself, and a regeneration on a legal configuration is
legal. -/
theorem resetIsLegal : Obligations.ResetIsLegal := by
  intro c hok
  rw [← regenerate_resetOf c]
  exact inv_regenerate _ (configLegal_resetOf hok) (keyerLegal_resetOf c) (storageLegal_resetOf c)
    (decoderLegal_resetOf c)

/-- Settles O21: the registers of R370 as the construction gives them, the tables by
`regenerate_resetOf`, and the three vector values each from its own default. -/
theorem resetValues : Obligations.ResetValues := by
  intro c
  refine ⟨rfl, rfl, rfl, rfl, (regenerate_resetOf c).symm, rfl, rfl, rfl, rfl, rfl, rfl, rfl, rfl, rfl,
    rfl, rfl, ?vectors⟩
  case vectors =>
    intro hSR hmin hmax hexact hfreq hwpm hrise
    have hP := resetOf_P_600 hSR hmin hmax hfreq
    exact ⟨hP, resetOf_D_20 hSR hexact hP hwpm, resetOf_R_5 hSR hrise⟩

end Sys2Proof.Machine
end
